-- ==== Sys2Proof/Word.lean ====
section
/-! DEFINITION. The machine's word types: what the spec treats as bits (00_scope.md R8, R9, R12). -/

namespace Sys2Proof

/-- One byte of packet RAM or of a byte sequence (R12). -/
abbrev Byte := BitVec 8

/-- A 16-bit value: a checksum, a 16-bit header field (R8, R9). -/
abbrev Half := BitVec 16

/-- A 32-bit register or host data word (R8). -/
abbrev Word := BitVec 32

/-- An 18-bit address or length register, or an 18-bit aperture offset (R8, R50). -/
abbrev Addr := BitVec 18

end Sys2Proof
end

