-- ==== Sys2Proof/Syntax.lean ====
section
/-! DEFINITION. The eleven commands of the block (30_encoding.md R69): one constructor per row of
spec/opcode_table.json. -/

namespace Sys2Proof

/-- One command. The only operand a command word carries is the flag index IDX of the three flag commands (R70);
every other operand is a register (R72). -/
inductive Instr where
  /-- CKSUM: internet checksum of the source region (R85). -/
  | cksum
  /-- PCKSUM: internet checksum of the TCP pseudo-header and the source region (R86). -/
  | pcksum
  /-- IPDEC: decode an IPv4 header (R87). -/
  | ipdec
  /-- IPENC: encode an IPv4 frame (R89). -/
  | ipenc
  /-- TCPDEC: decode a TCP header (R93). -/
  | tcpdec
  /-- TCPENC: encode a TCP segment (R95). -/
  | tcpenc
  /-- FSET: set TCP flag `idx` (R96). -/
  | fset (idx : Nat)
  /-- FCLR: clear TCP flag `idx` (R97). -/
  | fclr (idx : Nat)
  /-- FTEST: test TCP flag `idx` (R98). -/
  | ftest (idx : Nat)
  /-- ATON: dotted-quad text to a 32-bit address (R104). -/
  | aton
  /-- NTOA: a 32-bit address to dotted-quad text (R105). -/
  | ntoa
deriving DecidableEq, Repr

end Sys2Proof
end

