-- ==== Sys2Proof/WellFormed.lean ====
section
/-! DEFINITION. Which terms of `Instr` are commands that a command word can hold. -/

namespace Sys2Proof

/-- The flag index fits the 4-bit IDX field (R68, R70: bits [11:8], 0..15). Indexes 9..15 are legal encodings, whose
execution raises BAD_FLAG_INDEX. -/
def Instr.idxFits (idx : Nat) : Bool := decide (idx < 16)

/-- A command is well-formed when some command word encodes it. -/
def Instr.wellFormed : Instr → Bool
  | .cksum | .pcksum | .ipdec | .ipenc | .tcpdec | .tcpenc | .aton | .ntoa => true
  | .fset idx | .fclr idx | .ftest idx => Instr.idxFits idx

end Sys2Proof
end

