-- ==== Sys2Proof/Decode.lean ====
section
/-! DEFINITION. The command word (30_encoding.md R68–R74): its fields, the opcode table, the decoder, and the encoder
written from the same table. -/

namespace Sys2Proof

/-- OPC, bits [7:0] of a command word (R68). -/
def opcField (w : Word) : Nat := (w.extractLsb' 0 8).toNat

/-- IDX, bits [11:8] of a command word (R68, R70). -/
def idxField (w : Word) : Nat := (w.extractLsb' 8 4).toNat

/-- RSV, bits [31:12] of a command word (R68). -/
def rsvField (w : Word) : Nat := (w.extractLsb' 12 20).toNat

/-- Why a command word is illegal (R71). -/
inductive DecodeError where
  /-- RSV ≠ 0. -/
  | reservedBitsSet
  /-- OPC is none of the eleven values of R69. -/
  | unknownOpcode
  /-- OPC is no flag command and IDX ≠ 0. -/
  | strayFlagIndex
deriving DecidableEq, Repr

/-- A command without an index operand: IDX must be 0 (R68, R71). -/
def decodePlain (idx : Nat) (i : Instr) : Except DecodeError Instr :=
  if idx = 0 then .ok i else .error .strayFlagIndex

/-- The command OPC and IDX name (R69). -/
def decodeFields (opc idx : Nat) : Except DecodeError Instr :=
  match opc with
  | 0x01 => decodePlain idx .cksum
  | 0x02 => decodePlain idx .pcksum
  | 0x10 => decodePlain idx .ipdec
  | 0x11 => decodePlain idx .ipenc
  | 0x20 => decodePlain idx .tcpdec
  | 0x21 => decodePlain idx .tcpenc
  | 0x28 => .ok (.fset idx)
  | 0x29 => .ok (.fclr idx)
  | 0x2A => .ok (.ftest idx)
  | 0x30 => decodePlain idx .aton
  | 0x31 => decodePlain idx .ntoa
  | _ => .error .unknownOpcode

/-- The decoder: total on command words, refusing every illegal word of R71 by name. -/
def decode (w : Word) : Except DecodeError Instr :=
  if rsvField w = 0 then decodeFields (opcField w) (idxField w) else .error .reservedBitsSet

/-- The OPC value of a command (R69). -/
def opcodeOf : Instr → Nat
  | .cksum => 0x01
  | .pcksum => 0x02
  | .ipdec => 0x10
  | .ipenc => 0x11
  | .tcpdec => 0x20
  | .tcpenc => 0x21
  | .fset _ => 0x28
  | .fclr _ => 0x29
  | .ftest _ => 0x2A
  | .aton => 0x30
  | .ntoa => 0x31

/-- The IDX value of a command; 0 outside the flag commands (R68, R70). -/
def indexOf : Instr → Nat
  | .cksum | .pcksum | .ipdec | .ipenc | .tcpdec | .tcpenc | .aton | .ntoa => 0
  | .fset idx | .fclr idx | .ftest idx => idx

/-- The encoder: OPC in bits [7:0], IDX in bits [11:8], RSV = 0 (R68). -/
def encode (i : Instr) : Word :=
  BitVec.ofNat 32 (opcodeOf i) ||| (BitVec.ofNat 32 (indexOf i) <<< 8)

/-- A row of R74's pattern table. -/
structure TableRow where
  mnemonic : String
  pattern : Word
  mask : Word
deriving DecidableEq, Repr

/-- R74's pattern table, in its order. -/
def opcodeTable : List TableRow :=
  [ ⟨"CKSUM", 0x00000001, 0xFFFFFFFF⟩,
    ⟨"PCKSUM", 0x00000002, 0xFFFFFFFF⟩,
    ⟨"IPDEC", 0x00000010, 0xFFFFFFFF⟩,
    ⟨"IPENC", 0x00000011, 0xFFFFFFFF⟩,
    ⟨"TCPDEC", 0x00000020, 0xFFFFFFFF⟩,
    ⟨"TCPENC", 0x00000021, 0xFFFFFFFF⟩,
    ⟨"FSET", 0x00000028, 0xFFFFF0FF⟩,
    ⟨"FCLR", 0x00000029, 0xFFFFF0FF⟩,
    ⟨"FTEST", 0x0000002A, 0xFFFFF0FF⟩,
    ⟨"ATON", 0x00000030, 0xFFFFFFFF⟩,
    ⟨"NTOA", 0x00000031, 0xFFFFFFFF⟩ ]

/-- A word selects a row when `(w AND mask) = match` (R74). -/
def TableRow.selects (r : TableRow) (w : Word) : Bool := w &&& r.mask == r.pattern

/-- The table's mnemonic of a command (R69). -/
def mnemonicOf : Instr → String
  | .cksum => "CKSUM"
  | .pcksum => "PCKSUM"
  | .ipdec => "IPDEC"
  | .ipenc => "IPENC"
  | .tcpdec => "TCPDEC"
  | .tcpenc => "TCPENC"
  | .fset _ => "FSET"
  | .fclr _ => "FCLR"
  | .ftest _ => "FTEST"
  | .aton => "ATON"
  | .ntoa => "NTOA"

/-- The command this decoder reads from a table row's word. A command is one 32-bit word written to CMD (R68): bits
from `nbits` up are 0, and there is no byte layout (log entry 5). -/
def decodeTableWord (nbits w : Nat) : Option Instr :=
  (decode (BitVec.ofNat 32 (w % 2 ^ nbits))).toOption

end Sys2Proof
end

