-- ==== Sys2Proof/Config.lean ====
section
/-! DEFINITION. What an implementation fixes (00_scope.md R8), the identification constants (R20, R21), and the free
values the spec leaves open (93_implementation_defined.md B1, B2, B3). -/

namespace Sys2Proof

/-- The parameters of one build of the block that are numbers (R8). They stand in `Machine.State.cfg`, which no step
changes, so a statement about every state is a statement about every build (log entry 1). -/
structure Config where
  /-- `PRAM_SIZE`: bytes of packet RAM. -/
  pramSize : Nat
  /-- `TPC_BASE`: where the block's aperture sits in the host's address map. -/
  tpcBase : Nat
deriving DecidableEq, Repr

namespace Config

/-- Bytes of the host aperture (R8, R50). -/
def apertureBytes : Nat := 0x40000

/-- Where the PRAM window starts in the aperture (R50, R53). -/
def windowBase : Nat := 0x20000

/-- The largest legal `PRAM_SIZE` (R8). -/
def maxPramSize : Nat := 131072

/-- The legal values of the parameters (R8): `PRAM_SIZE` is a multiple of 4 with 64 ≤ PRAM_SIZE ≤ 131072, and
`TPC_BASE` is a multiple of 0x40000. -/
def legal (c : Config) : Bool :=
  c.pramSize % 4 == 0 && decide (64 ≤ c.pramSize) && decide (c.pramSize ≤ maxPramSize)
    && c.tpcBase % apertureBytes == 0

/-- The default build: `PRAM_SIZE` = 131072 as R8 gives it.
DESIGN CHOICE (log entry 1): `TPC_BASE` has no default in the spec; the model's default build has 0. -/
def default : Config := { pramSize := maxPramSize, tpcBase := 0 }

/-- ID's constant, ASCII "TEAC" (R2, R20). -/
def idValue : Word := 0x54454143

/-- VERSION's constant: MAJOR 0x0001, MINOR 0x0000 (R2, R21). -/
def versionValue : Word := 0x00010000

/-- FREE VALUE (R67, B1; log entry 2): what the PRAM byte at an address holds when nothing has written it since
power-on. Fixed once drawn, hence a function of the address; no body, hence any of the 256 values. -/
opaque pramDraw : Nat → Byte

/-- FREE VALUE (R122, B2; log entry 3): the fresh draws a soft reset leaves in the destination region of an abandoned
command, numbered by `Machine.State.drawCount`. -/
opaque freshDraw : Nat → Byte

/-- FREE VALUE (R8, R129, B3, B6; log entry 4): `CMD_LATENCY` of the `n`-th accepted command, counted in the host
accesses that take effect between its acceptance and its completion. A `Nat`, hence always finite. -/
opaque cmdLatency : Nat → Nat

end Config

end Sys2Proof
end

