-- ==== Sys2Proof/Machine/State.lean ====
section
/-! DEFINITION. The machine's state as plain data (10_state.md), its outcomes, and its power-on state
(70_reset_and_hazards.md R121). -/

namespace Sys2Proof.Machine

/-- A command's completion code by name (60_exceptions.md R108); `errorNumber` gives the numbers. -/
inductive ErrCode where
  | ok
  | illegalCmd
  | range
  | overlap
  | malformedHeader
  | badHdrLen
  | optShort
  | totlenMismatch
  | segTooLong
  | badAddress
  | badFlagIndex
deriving DecidableEq, Repr

/-- The fields of STATUS (R24). Bits 7:5 and 31:10 are reserved and read as zero, so they hold no state (R16). -/
structure Status where
  /-- Bit 0, BUSY: a command is in flight. -/
  busy : Bool
  /-- Bit 1, DONE: a command has completed. -/
  done : Bool
  /-- Bit 2, ERR: the last completion had a non-zero code. -/
  err : Bool
  /-- Bit 3, TEST: the flag FTEST read. -/
  test : Bool
  /-- Bit 4, PLD: the last decode found a payload. -/
  pld : Bool
  /-- Bit 8, ACC_BUSY: a host access was dropped by the busy lockout. -/
  accBusy : Bool
  /-- Bit 9, BUS_ERR: a host access was malformed. -/
  busErr : Bool
deriving DecidableEq, Repr

/-- Five header registers: word `k` is the big-endian word at header offset 4k (R31–R40, R76, R78). -/
structure HeaderRegs where
  w0 : Word
  w1 : Word
  w2 : Word
  w3 : Word
  w4 : Word
deriving DecidableEq, Repr

/-- The registers of R17, in the order of their offsets. -/
inductive Reg where
  | id | version | ctrl | cmd | status | errcode
  | srcAddr | srcLen | dstAddr | resultLen | cksum
  | ipW0 | ipW1 | ipW2 | ipW3 | ipW4
  | tcpW0 | tcpW1 | tcpW2 | tcpW3 | tcpW4
  | addrVal | optOff | optLen | pldOff | pldLen
deriving DecidableEq, Repr

/-- What a host access does on the bus. -/
inductive BusOp where
  | read
  | write (v : Word)
deriving DecidableEq, Repr

/-- One host access: its address in the host's map, its width in bits, and what it does (20_memory.md R50–R52). -/
structure HostAccess where
  addr : Nat
  bits : Nat
  op : BusOp
deriving DecidableEq, Repr

/-- One line of a host program (R79, R80): an access, or `wait`, which repeats a read of STATUS until BUSY is 0. -/
inductive HostOp where
  | access (a : HostAccess)
  | wait
deriving DecidableEq, Repr

/-- PRAM as the bytes that have been written, keyed by address in strictly rising order. An address that is not listed
holds its power-on draw (R67; log entry 2). -/
abbrev Memory := List Host.Cell

/-- The state of the block and of the two agents that step it (R14). -/
structure State where
  /-- The build's parameters (R8); no step changes them. MODEL'S OWN place for them (log entry 1). -/
  cfg : Config
  /-- CTRL.IRQ_EN (R22). CTRL.SRST reads as 0 and holds no state. -/
  irqEn : Bool
  /-- CMD (R23). -/
  cmd : Word
  /-- STATUS (R24). -/
  status : Status
  /-- ERRCODE.CODE (R25). -/
  errcode : BitVec 8
  /-- SRC_ADDR.ADDR (R26). -/
  srcAddr : Addr
  /-- SRC_LEN.LEN (R27). -/
  srcLen : Addr
  /-- DST_ADDR.ADDR (R28). -/
  dstAddr : Addr
  /-- RESULT_LEN.LEN (R29). -/
  resultLen : Addr
  /-- CKSUM.VALUE (R30). -/
  cksum : Half
  /-- IP_W0..IP_W4 (R31–R35). -/
  ip : HeaderRegs
  /-- TCP_W0..TCP_W4 (R36–R40). -/
  tcp : HeaderRegs
  /-- ADDR_VAL.ADDR (R41). -/
  addrVal : Word
  /-- OPT_OFF.ADDR (R42). -/
  optOff : Addr
  /-- OPT_LEN.LEN (R43). -/
  optLen : Addr
  /-- PLD_OFF.ADDR (R44). -/
  pldOff : Addr
  /-- PLD_LEN.LEN (R45). -/
  pldLen : Addr
  /-- PRAM (R46). -/
  pram : Memory
  /-- MODEL'S OWN (log entry 5): what the host has still to do, first access first (R15, R79). -/
  host : List HostOp
  /-- MODEL'S OWN (log entry 6): the data the last host access returned; `none` where it returned none. -/
  response : Option Word
  /-- MODEL'S OWN (log entry 4): host accesses still to take effect before the command in flight completes. -/
  engineWait : Nat
  /-- MODEL'S OWN (log entry 4): commands accepted so far, the index of the next latency draw. -/
  accepted : Nat
  /-- MODEL'S OWN (log entry 3): fresh draws taken so far by soft resets. -/
  drawCount : Nat
deriving DecidableEq, Repr

/-- Why the machine stops with a fault: never. Every command ends in a completion (R107), a malformed host access sets
a sticky bit (R52), and the block never stops or hangs, so this type has no constructor (log entry 10). -/
inductive Fault : Type
deriving DecidableEq, Repr

/-- Why the model gives an instruction no meaning. -/
inductive Refusal where
  /-- Raised by `exec` for a command that has no meaning yet; safe, since the machine goes on there and the model stops.
  Every command has its meaning, so nothing raises it. -/
  | notModelled (mnemonic : String)
deriving DecidableEq, Repr

/-- All STATUS bits at 0 (R24, R121). -/
def Status.zero : Status :=
  { busy := false, done := false, err := false, test := false, pld := false, accBusy := false, busErr := false }

/-- Five header registers at 0 (R31–R40, R121). -/
def HeaderRegs.zero : HeaderRegs := { w0 := 0, w1 := 0, w2 := 0, w3 := 0, w4 := 0 }

/-- The power-on state of a build (R121, R123): every register at the reset value of R17, no command in flight, no PRAM
byte written. DESIGN CHOICE (log entry 7): the model's own fields start at zero, with no host program. -/
def State.powerOn (c : Config) : State :=
  { cfg := c
    irqEn := false
    cmd := 0
    status := Status.zero
    errcode := 0
    srcAddr := 0
    srcLen := 0
    dstAddr := 0
    resultLen := 0
    cksum := 0
    ip := HeaderRegs.zero
    tcp := HeaderRegs.zero
    addrVal := 0
    optOff := 0
    optLen := 0
    pldOff := 0
    pldLen := 0
    pram := []
    host := []
    response := none
    engineWait := 0
    accepted := 0
    drawCount := 0 }

/-- The machine right after power-on reset, in the default build (R8, R121). -/
def State.reset : State := State.powerOn Config.default

end Sys2Proof.Machine
end

