-- ==== Sys2Proof/Machine/Operands.lean ====
section
/-! DEFINITION. Operand forms: byte order (00_scope.md R11, 20_memory.md R54), the fields of the header registers
(10_state.md R31–R40), header words as bytes (30_encoding.md R75–R78), and the register map (R17). -/

namespace Sys2Proof.Machine

/-! ### Byte order (R10, R11, R54) -/

/-- `be16(v)` (R11). -/
def be16 (v : Half) : List Byte := [v.extractLsb' 8 8, v.extractLsb' 0 8]

/-- `be32(v)` (R11). -/
def be32 (v : Word) : List Byte :=
  [v.extractLsb' 24 8, v.extractLsb' 16 8, v.extractLsb' 8 8, v.extractLsb' 0 8]

/-- Four bytes as a big-endian word: `b0<<24 | b1<<16 | b2<<8 | b3` (R11). -/
def wordOfBytes (b0 b1 b2 b3 : Byte) : Word :=
  (b0.setWidth 32 <<< 24) ||| (b1.setWidth 32 <<< 16) ||| (b2.setWidth 32 <<< 8) ||| b3.setWidth 32

/-- `s[i]`. Every command's checks keep its indexes inside the sequence, so the default is never read. -/
def byteAt (s : List Byte) (i : Nat) : Byte := s.getD i 0

/-- `rd32(s, i)` (R11). -/
def rd32 (s : List Byte) (i : Nat) : Word :=
  wordOfBytes (byteAt s i) (byteAt s (i + 1)) (byteAt s (i + 2)) (byteAt s (i + 3))

/-- `f[i] <- c[15:8] ; f[i+1] <- c[7:0]` (R89, R95). -/
def patch16 (f : List Byte) (i : Nat) (c : Half) : List Byte :=
  (f.set i (c.extractLsb' 8 8)).set (i + 1) (c.extractLsb' 0 8)

/-! ### Header registers and header bytes (R76, R78) -/

/-- The 20 bytes of a fixed header: `be32` of its five words (R75–R78). -/
def headerBytes (h : HeaderRegs) : List Byte :=
  be32 h.w0 ++ be32 h.w1 ++ be32 h.w2 ++ be32 h.w3 ++ be32 h.w4

/-- Word `k` is `rd32(b, 4k)` for k = 0..4 (R76, R78). -/
def headerOfBytes (b : List Byte) : HeaderRegs :=
  { w0 := rd32 b 0, w1 := rd32 b 4, w2 := rd32 b 8, w3 := rd32 b 12, w4 := rd32 b 16 }

/-! ### Fields of IP_W0..IP_W4 (R31–R35) -/

/-- IP_W0.VER. -/
def ipVer (h : HeaderRegs) : BitVec 4 := h.w0.extractLsb' 28 4
/-- IP_W0.IHL. -/
def ipIhl (h : HeaderRegs) : BitVec 4 := h.w0.extractLsb' 24 4
/-- IP_W0.DSCP. -/
def ipDscp (h : HeaderRegs) : BitVec 6 := h.w0.extractLsb' 18 6
/-- IP_W0.ECN. -/
def ipEcn (h : HeaderRegs) : BitVec 2 := h.w0.extractLsb' 16 2
/-- IP_W0.TOTLEN. -/
def ipTotlen (h : HeaderRegs) : Half := h.w0.extractLsb' 0 16
/-- IP_W1.IDENT. -/
def ipIdent (h : HeaderRegs) : Half := h.w1.extractLsb' 16 16
/-- IP_W1.FLAGS. -/
def ipFlags (h : HeaderRegs) : BitVec 3 := h.w1.extractLsb' 13 3
/-- IP_W1.FRAGOFF. -/
def ipFragoff (h : HeaderRegs) : BitVec 13 := h.w1.extractLsb' 0 13
/-- IP_W2.TTL. -/
def ipTtl (h : HeaderRegs) : Byte := h.w2.extractLsb' 24 8
/-- IP_W2.PROTO. -/
def ipProto (h : HeaderRegs) : Byte := h.w2.extractLsb' 16 8
/-- IP_W2.HCSUM. -/
def ipHcsum (h : HeaderRegs) : Half := h.w2.extractLsb' 0 16
/-- IP_W3.SADDR. -/
def ipSaddr (h : HeaderRegs) : Word := h.w3
/-- IP_W4.DADDR. -/
def ipDaddr (h : HeaderRegs) : Word := h.w4

/-- The IPv4 header registers with the checksum field at zero: `IP_W2 AND 0xFFFF0000` (R89). -/
def ipZeroChecksum (h : HeaderRegs) : HeaderRegs := { h with w2 := h.w2 &&& 0xFFFF0000 }

/-- The IPv4 header registers with HCSUM replaced (R91). -/
def ipWithHcsum (h : HeaderRegs) (c : Half) : HeaderRegs :=
  { h with w2 := (h.w2 &&& 0xFFFF0000) ||| c.setWidth 32 }

/-! ### Fields of TCP_W0..TCP_W4 (R36–R40) -/

/-- TCP_W0.SPORT. -/
def tcpSport (h : HeaderRegs) : Half := h.w0.extractLsb' 16 16
/-- TCP_W0.DPORT. -/
def tcpDport (h : HeaderRegs) : Half := h.w0.extractLsb' 0 16
/-- TCP_W1.SEQ. -/
def tcpSeq (h : HeaderRegs) : Word := h.w1
/-- TCP_W2.ACKNUM. -/
def tcpAcknum (h : HeaderRegs) : Word := h.w2
/-- TCP_W3.DOFF. -/
def tcpDoff (h : HeaderRegs) : BitVec 4 := h.w3.extractLsb' 28 4
/-- TCP_W3.FLAGS, the 12-bit flags field. -/
def tcpFlags (h : HeaderRegs) : BitVec 12 := h.w3.extractLsb' 16 12
/-- TCP_W3.FRSV, flags bits 9..11. -/
def tcpFrsv (h : HeaderRegs) : BitVec 3 := h.w3.extractLsb' 25 3
/-- TCP_W3.WINDOW. -/
def tcpWindow (h : HeaderRegs) : Half := h.w3.extractLsb' 0 16
/-- TCP_W4.TCSUM. -/
def tcpTcsum (h : HeaderRegs) : Half := h.w4.extractLsb' 16 16
/-- TCP_W4.URGPTR. -/
def tcpUrgptr (h : HeaderRegs) : Half := h.w4.extractLsb' 0 16

/-- The TCP header registers with the checksum field at zero: `TCP_W4 AND 0x0000FFFF` (R95). -/
def tcpZeroChecksum (h : HeaderRegs) : HeaderRegs := { h with w4 := h.w4 &&& 0x0000FFFF }

/-- The TCP header registers with TCSUM replaced (R100). -/
def tcpWithTcsum (h : HeaderRegs) (c : Half) : HeaderRegs :=
  { h with w4 := (c.setWidth 32 <<< 16) ||| (h.w4 &&& 0x0000FFFF) }

/-! ### The register map (R17) -/

/-- A register's aperture offset (R17). -/
def regOffset : Reg → Nat
  | .id => 0x000
  | .version => 0x004
  | .ctrl => 0x008
  | .cmd => 0x00C
  | .status => 0x010
  | .errcode => 0x014
  | .srcAddr => 0x018
  | .srcLen => 0x01C
  | .dstAddr => 0x020
  | .resultLen => 0x024
  | .cksum => 0x028
  | .ipW0 => 0x02C
  | .ipW1 => 0x030
  | .ipW2 => 0x034
  | .ipW3 => 0x038
  | .ipW4 => 0x03C
  | .tcpW0 => 0x040
  | .tcpW1 => 0x044
  | .tcpW2 => 0x048
  | .tcpW3 => 0x04C
  | .tcpW4 => 0x050
  | .addrVal => 0x054
  | .optOff => 0x058
  | .optLen => 0x05C
  | .pldOff => 0x060
  | .pldLen => 0x064

/-- Every register, in the order of R17. -/
def allRegs : List Reg :=
  [ .id, .version, .ctrl, .cmd, .status, .errcode, .srcAddr, .srcLen, .dstAddr, .resultLen, .cksum,
    .ipW0, .ipW1, .ipW2, .ipW3, .ipW4, .tcpW0, .tcpW1, .tcpW2, .tcpW3, .tcpW4,
    .addrVal, .optOff, .optLen, .pldOff, .pldLen ]

/-- The register at an aperture offset, where there is one (R17). -/
def regAt (off : Nat) : Option Reg := allRegs.find? fun r => regOffset r == off

end Sys2Proof.Machine
end

