-- ==== Sys2Proof/Machine/Flags.lean ====
section
/-! DEFINITION. Single-bit outcomes: STATUS (10_state.md R24, R49), the interrupt output (R48, 60_exceptions.md R113),
and the TCP flag bits (30_encoding.md R78, 42_tcp_codec.md R96–R98). -/

namespace Sys2Proof.Machine

/-! ### STATUS -/

/-- A flag at bit position `i` of a register word. -/
def bitWord (b : Bool) (i : Nat) : Word := if b then 1#32 <<< i else 0

/-- STATUS as the host reads it; reserved bits read as zero (R16, R24). -/
def statusWord (t : Status) : Word :=
  bitWord t.busy 0 ||| bitWord t.done 1 ||| bitWord t.err 2 ||| bitWord t.test 3 ||| bitWord t.pld 4
    ||| bitWord t.accBusy 8 ||| bitWord t.busErr 9

/-- A host write of STATUS: the W1C bits DONE, ACC_BUSY and BUS_ERR clear where a 1 is written; RO and reserved bits
ignore the write (R16, R24). -/
def statusAfterWrite (t : Status) (v : Word) : Status :=
  { t with
    done := t.done && !v.getLsbD 1
    accBusy := t.accBusy && !v.getLsbD 8
    busErr := t.busErr && !v.getLsbD 9 }

/-- `reg.STATUS.TEST <- b` (R98). -/
def setTest (s : State) (b : Bool) : State := { s with status := { s.status with test := b } }

/-- `reg.STATUS.PLD <- b` (R87, R93). -/
def setPld (s : State) (b : Bool) : State := { s with status := { s.status with pld := b } }

/-- `reg.STATUS.ACC_BUSY <- 1` (R125). -/
def setAccBusy (s : State) : State := { s with status := { s.status with accBusy := true } }

/-- `reg.STATUS.BUS_ERR <- 1` (R52). -/
def setBusErr (s : State) : State := { s with status := { s.status with busErr := true } }

/-! ### The interrupt output -/

/-- `IRQ = reg.CTRL.IRQ_EN AND reg.STATUS.DONE` (R48, R113): a function of the state, not state. -/
def irq (s : State) : Bool := s.irqEn && s.status.done

/-! ### TCP flag bits: flag index `i` is TCP_W3 bit 16 + i (R39, R78) -/

/-- The largest flag index, NS (R96: "index 0(FIN)…8(NS)"). -/
def maxFlagIndex : Nat := 8

/-- `reg.TCP_W3[16 + i] <- 1` (R96). -/
def setFlagBit (w3 : Word) (i : Nat) : Word := w3 ||| (1#32 <<< (16 + i))

/-- `reg.TCP_W3[16 + i] <- 0` (R97). -/
def clearFlagBit (w3 : Word) (i : Nat) : Word := w3 &&& ~~~(1#32 <<< (16 + i))

/-- `reg.TCP_W3[16 + i]` (R98). -/
def flagBit (w3 : Word) (i : Nat) : Bool := w3.getLsbD (16 + i)

end Sys2Proof.Machine
end

