-- ==== Sys2Proof/Machine/Ops.lean ====
section
/-! DEFINITION. The named operations over PRAM and regions (00_scope.md R11, R12), and the completion of a command,
with or without an error (60_exceptions.md R107–R110): this block's counterpart of taking an exception. -/

namespace Sys2Proof.Machine

/-! ### PRAM as a canonical list of written bytes (R46, R67) -/

/-- What the list holds at an address: the byte last written there, or none. -/
def Memory.lookup : Memory → Nat → Option Byte
  | [], _ => none
  | (k, v) :: rest, a => if k = a then some v else Memory.lookup rest a

/-- Store one byte, keeping the addresses strictly rising. -/
def Memory.insert : Memory → Nat → Byte → Memory
  | [], a, v => [(a, v)]
  | (k, w) :: rest, a, v =>
    if a < k then (a, v) :: (k, w) :: rest
    else if a = k then (a, v) :: rest
    else (k, w) :: Memory.insert rest a v

/-- The canonical form: addresses strictly rising. An unlisted address reads as no value at this level, so no entry can
equal it (log entry 2). -/
def Memory.wf : Memory → Bool
  | [] => true
  | [_] => true
  | (k, _) :: (k', v') :: rest => decide (k < k') && Memory.wf ((k', v') :: rest)

/-- `PRAM[a]`: the byte last written there, else the power-on draw of that address (R46, R66, R67). -/
def readByte (s : State) (a : Nat) : Byte := (s.pram.lookup a).getD (Config.pramDraw a)

/-- `PRAM[a] <- v` (R11). -/
def writeByte (s : State) (a : Nat) (v : Byte) : State := { s with pram := s.pram.insert a v }

/-- `MemRead(a, n)` (R11). -/
def memRead (s : State) (a : Nat) : Nat → List Byte
  | 0 => []
  | n + 1 => readByte s a :: memRead s (a + 1) n

/-- `MemWrite(a, n, bs)` for the `n` bytes of `bs` (R11). -/
def memWrite (s : State) (a : Nat) : List Byte → State
  | [] => s
  | b :: bs => memWrite (writeByte s a b) (a + 1) bs

/-! ### Regions (R12) -/

/-- The region `[a, a+n)` is in range: `a + n ≤ PRAM_SIZE`, exactly, without wrap. -/
def inRange (s : State) (a n : Nat) : Bool := decide (a + n ≤ s.cfg.pramSize)

/-- The regions `[a, a+n)` and `[b, b+m)` overlap. -/
def overlap (a n b m : Nat) : Bool :=
  decide (n > 0) && decide (m > 0) && decide (a < b + m) && decide (b < a + n)

/-- `reg.SRC_ADDR` as a number. -/
def srcA (s : State) : Nat := s.srcAddr.toNat

/-- `reg.SRC_LEN` as a number. -/
def srcN (s : State) : Nat := s.srcLen.toNat

/-- `reg.DST_ADDR` as a number. -/
def dstA (s : State) : Nat := s.dstAddr.toNat

/-- `MemRead(a, n)` over the source region. -/
def srcBytes (s : State) : List Byte := memRead s (srcA s) (srcN s)

/-- The source region is in range: the first check of every command that reads it (R109). -/
def srcInRange (s : State) : Bool := inRange s (srcA s) (srcN s)

/-! ### Completion (R107–R110) -/

/-- The error numbers of R108. -/
def errorNumber : ErrCode → BitVec 8
  | .ok => 0x00
  | .illegalCmd => 0x01
  | .range => 0x02
  | .overlap => 0x03
  | .malformedHeader => 0x04
  | .badHdrLen => 0x05
  | .optShort => 0x06
  | .totlenMismatch => 0x07
  | .segTooLong => 0x08
  | .badAddress => 0x09
  | .badFlagIndex => 0x0A

/-- The completion state of R110 with code `e`: BUSY 0, DONE 1, ERR and ERRCODE from the code. The command in flight is
gone, so the model's `engineWait` is 0. -/
def complete (e : ErrCode) (s : State) : State :=
  { s with
    status := { s.status with busy := false, done := true, err := decide (errorNumber e ≠ 0) }
    errcode := errorNumber e
    engineWait := 0 }

/-- How a command ends: `finish()` with its writes, or `raise Error(e)` with none of them (R11, R107). Either way the
completion state is written in the same step (R110). -/
def conclude (s : State) (r : Except ErrCode State) : Host.Outcome State Fault Refusal :=
  match r with
  | .ok t => .next (complete .ok t)
  | .error e => .next (complete e s)

/-- `if bad: raise Error(e)`, then the rest of the command (R109: checks in the order written). -/
def raiseIf (bad : Bool) (e : ErrCode) (rest : Except ErrCode State) : Except ErrCode State :=
  if bad then .error e else rest

end Sys2Proof.Machine
end

