-- ==== Sys2Proof/Machine/Address.lean ====
section
/-! DEFINITION. The address converter: dotted-quad text, ATON and NTOA (43_address.md). -/

namespace Sys2Proof.Machine

/-- ASCII "." (R102). -/
def dot : Byte := 0x2E

/-! ### Reading dotted-quad text (R102) -/

/-- The value of an ASCII digit 0x30..0x39 (R102: `digit`). -/
def digitValue (b : Byte) : Option Nat :=
  if 0x30 ≤ b.toNat ∧ b.toNat ≤ 0x39 then some (b.toNat - 0x30) else none

/-- A component of 1 to 3 digits and its decimal value, leading zeros allowed (R102: `component`). -/
def componentValue : List Byte → Option Nat
  | [a] => digitValue a
  | [a, b] =>
    match digitValue a, digitValue b with
    | some x, some y => some (10 * x + y)
    | _, _ => none
  | [a, b, c] =>
    match digitValue a, digitValue b, digitValue c with
    | some x, some y, some z => some (100 * x + 10 * y + z)
    | _, _, _ => none
  | _ => none

/-- The pieces of a text between its dots. -/
def splitDots : List Byte → List (List Byte)
  | [] => [[]]
  | b :: rest =>
    if b = dot then [] :: splitDots rest
    else
      match splitDots rest with
      | [] => [[b]]
      | piece :: pieces => (b :: piece) :: pieces

/-- The four component values of a text of the form `quad` of R102, before the 0..255 check. -/
def quadValues (s : List Byte) : Option (Nat × Nat × Nat × Nat) :=
  match splitDots s with
  | [p0, p1, p2, p3] =>
    match componentValue p0, componentValue p1, componentValue p2, componentValue p3 with
    | some c0, some c1, some c2, some c3 => some (c0, c1, c2, c3)
    | _, _, _, _ => none
  | _ => none

/-- `c0 << 24 | c1 << 16 | c2 << 8 | c3` (R104). -/
def quadWord (c0 c1 c2 c3 : Nat) : Word :=
  (BitVec.ofNat 32 c0 <<< 24) ||| (BitVec.ofNat 32 c1 <<< 16) ||| (BitVec.ofNat 32 c2 <<< 8) ||| BitVec.ofNat 32 c3

/-! ### Writing dotted-quad text (R103) -/

/-- The ASCII digit of `d` (0..9). -/
def digitByte (d : Nat) : Byte := BitVec.ofNat 8 (0x30 + d)

/-- `dec(x)` for x in 0..255: the shortest decimal spelling (R103). -/
def decimal (x : Nat) : List Byte :=
  if x < 10 then [digitByte x]
  else if x < 100 then [digitByte (x / 10), digitByte (x % 10)]
  else [digitByte (x / 100), digitByte (x / 10 % 10), digitByte (x % 10)]

/-- The text of a 32-bit address, without a terminator (R103). -/
def quadText (v : Word) : List Byte :=
  decimal (v.extractLsb' 24 8).toNat ++ [dot] ++ decimal (v.extractLsb' 16 8).toNat ++ [dot]
    ++ decimal (v.extractLsb' 8 8).toNat ++ [dot] ++ decimal (v.extractLsb' 0 8).toNat

/-! ### ATON -/

/-- R104 after the range check: the form, then the component values, then the write. -/
def atonText (s : State) (text : List Byte) : Except ErrCode State :=
  match quadValues text with
  | none => .error .badAddress
  | some (c0, c1, c2, c3) =>
    raiseIf (decide (c0 > 255) || decide (c1 > 255) || decide (c2 > 255) || decide (c3 > 255)) .badAddress <|
    .ok { s with addrVal := quadWord c0 c1 c2 c3 }

/-- R104's checks and writes. -/
def atonResult (s : State) : Except ErrCode State :=
  raiseIf (!srcInRange s) .range (atonText s (srcBytes s))

/-- ATON (R104). -/
def execAton (s : State) : Host.Outcome State Fault Refusal := conclude s (atonResult s)

/-! ### NTOA -/

/-- `MemWrite(d, len(s), s) ; reg.RESULT_LEN <- len(s)` (R105). -/
def ntoaWrites (s : State) (text : List Byte) : State :=
  { memWrite s (dstA s) text with resultLen := BitVec.ofNat 18 text.length }

/-- R105's check and writes. -/
def ntoaResult (s : State) : Except ErrCode State :=
  raiseIf (!inRange s (dstA s) (quadText s.addrVal).length) .range <|
  .ok (ntoaWrites s (quadText s.addrVal))

/-- NTOA (R105). -/
def execNtoa (s : State) : Host.Outcome State Fault Refusal := conclude s (ntoaResult s)

end Sys2Proof.Machine
end

