-- ==== Sys2Proof/Machine/Checksum.lean ====
section
/-! DEFINITION. The internet checksum, the TCP pseudo-header, and the commands CKSUM and PCKSUM
(40_checksum.md). -/

namespace Sys2Proof.Machine

/-! ### IC and PH -/

/-- The exact sum of the big-endian 16-bit words of a byte sequence, an odd trailing byte being the high byte of a word
whose low byte is 0 (R81). DEDUCED (log entry 12): `hi << 8 | lo` is written as the equal sum. -/
def wordSum : List Byte → Nat
  | [] => 0
  | [b] => b.toNat * 0x100
  | h :: l :: rest => (h.toNat * 0x100 + l.toNat) + wordSum rest

/-- The loop `while S > 0xFFFF: S <- S[15:0] + (S >> 16)`, run at most `fuel` times (R81). -/
def foldCarries : Nat → Nat → Nat
  | 0, sum => sum
  | fuel + 1, sum => if sum > 0xFFFF then foldCarries fuel (sum % 0x10000 + sum / 0x10000) else sum

/-- `IC(s)` (R81). Every turn of the loop lowers the sum, so the sum itself is fuel enough (log entry 12). -/
def internetChecksum (s : List Byte) : Half :=
  ~~~ BitVec.ofNat 16 (foldCarries (wordSum s) (wordSum s))

/-- `PH(sa, da, L)`, the 12-byte TCP pseudo-header; its protocol byte is the constant 6 (R83). -/
def pseudoHeader (sa da : Word) (len : Nat) : List Byte :=
  be32 sa ++ be32 da ++ [0x00] ++ [0x06] ++ be16 (BitVec.ofNat 16 len)

/-- The largest TCP segment length the pseudo-header can state (R83, R86, R95). -/
def maxSegment : Nat := 65535

/-- The pseudo-header checksum of a segment, from IP_W3 and IP_W4 (R83, R86, R93, R95). -/
def segmentChecksum (s : State) (seg : List Byte) (len : Nat) : Half :=
  internetChecksum (pseudoHeader s.ip.w3 s.ip.w4 len ++ seg)

/-! ### CKSUM -/

/-- R85's checks and writes. -/
def cksumResult (s : State) : Except ErrCode State :=
  raiseIf (!srcInRange s) .range <|
  .ok { s with cksum := internetChecksum (srcBytes s) }

/-- CKSUM (R85). -/
def execCksum (s : State) : Host.Outcome State Fault Refusal := conclude s (cksumResult s)

/-! ### PCKSUM -/

/-- R86's checks and writes. -/
def pcksumResult (s : State) : Except ErrCode State :=
  raiseIf (!srcInRange s) .range <|
  raiseIf (decide (srcN s > maxSegment)) .segTooLong <|
  .ok { s with cksum := segmentChecksum s (srcBytes s) (srcN s) }

/-- PCKSUM (R86). -/
def execPcksum (s : State) : Host.Outcome State Fault Refusal := conclude s (pcksumResult s)

end Sys2Proof.Machine
end

