-- ==== Sys2Proof/Machine/FlagCommands.lean ====
section
/-! DEFINITION. The TCP flag helpers: FSET, FCLR and FTEST (42_tcp_codec.md R96–R98). -/

namespace Sys2Proof.Machine

/-- The check the three flag commands share, `if i > 8: raise Error(BAD_FLAG_INDEX)`, then the command's write. -/
def withFlagIndex (i : Nat) (t : State) : Except ErrCode State :=
  raiseIf (decide (i > maxFlagIndex)) .badFlagIndex (.ok t)

/-- FSET (R96). -/
def execFset (i : Nat) (s : State) : Host.Outcome State Fault Refusal :=
  conclude s (withFlagIndex i { s with tcp := { s.tcp with w3 := setFlagBit s.tcp.w3 i } })

/-- FCLR (R97). -/
def execFclr (i : Nat) (s : State) : Host.Outcome State Fault Refusal :=
  conclude s (withFlagIndex i { s with tcp := { s.tcp with w3 := clearFlagBit s.tcp.w3 i } })

/-- FTEST (R98). -/
def execFtest (i : Nat) (s : State) : Host.Outcome State Fault Refusal :=
  conclude s (withFlagIndex i (setTest s (flagBit s.tcp.w3 i)))

end Sys2Proof.Machine
end

