-- ==== Sys2Proof/Machine/Codec.lean ====
section
/-! DEFINITION. What the two decoders share and what the two encoders share (10_state.md R29, R42–R45; 41_ipv4_codec.md
R87, R89; 42_tcp_codec.md R93, R95). -/

namespace Sys2Proof.Machine

/-- Bytes of a fixed header (R75, R77). -/
def fixedHeader : Nat := 20

/-- Least header length in words (R87, R89, R93, R95). -/
def minHeaderWords : Nat := 5

/-- The source region cannot hold a header of `words` words: shorter than 20 bytes, fewer than 5 words, or a header
longer than the region, in that order; all three raise MALFORMED_HEADER (R87, R93). -/
def headerMalformed (n words : Nat) : Bool :=
  decide (n < fixedHeader) || decide (words < minHeaderWords) || decide (4 * words > n)

/-- The decode result registers and STATUS.PLD for a header of `words` words in the source region (R42–R45, R87, R93). -/
def locate (s : State) (words : Nat) : State :=
  setPld
    { s with
      optOff := BitVec.ofNat 18 (srcA s + fixedHeader)
      optLen := BitVec.ofNat 18 (4 * words - fixedHeader)
      pldOff := BitVec.ofNat 18 (srcA s + 4 * words)
      pldLen := BitVec.ofNat 18 (srcN s - 4 * words) }
    (decide (srcN s - 4 * words ≠ 0))

/-- Bytes an encoder writes: the fixed header and the source region (R89, R95). -/
def encodedLen (s : State) : Nat := fixedHeader + srcN s

/-- The destination region of an encoder reaches past PRAM (R89, R95). -/
def dstOutOfRange (s : State) : Bool := !inRange s (dstA s) (encodedLen s)

/-- An encoder's source and destination regions overlap (R89, R95). -/
def regionsOverlap (s : State) : Bool := overlap (srcA s) (srcN s) (dstA s) (encodedLen s)

/-- The source region is shorter than the options a header of `words` words announces (R89, R95). -/
def optionsShort (s : State) (words : Nat) : Bool := decide (srcN s < 4 * words - fixedHeader)

/-- `MemWrite(d, len, f) ; reg.RESULT_LEN <- len ; reg.CKSUM <- zext_32(c)` (R89, R95). -/
def emit (s : State) (f : List Byte) (c : Half) : State :=
  { memWrite s (dstA s) f with resultLen := BitVec.ofNat 18 f.length, cksum := c }

end Sys2Proof.Machine
end

