-- ==== Sys2Proof/Machine/Ipv4.lean ====
section
/-! DEFINITION. The IPv4 frame codec: IPDEC and IPENC (41_ipv4_codec.md). -/

namespace Sys2Proof.Machine

/-! ### IPDEC -/

/-- `b[0][3:0]`, the header length a frame announces (R76, R87). -/
def frameIhl (b : List Byte) : Nat := ((byteAt b 0).extractLsb' 0 4).toNat

/-- R87's writes. -/
def ipdecWrites (s : State) (b : List Byte) : State :=
  { locate s (frameIhl b) with
    ip := headerOfBytes b
    cksum := internetChecksum (b.take (4 * frameIhl b)) }

/-- R87's checks and writes. -/
def ipdecResult (s : State) : Except ErrCode State :=
  raiseIf (!srcInRange s) .range <|
  raiseIf (headerMalformed (srcN s) (frameIhl (srcBytes s))) .malformedHeader <|
  .ok (ipdecWrites s (srcBytes s))

/-- IPDEC (R87, R88). -/
def execIpdec (s : State) : Host.Outcome State Fault Refusal := conclude s (ipdecResult s)

/-! ### IPENC -/

/-- `f` before its checksum is patched: the header with the checksum field at zero, then the source region (R89). -/
def ipFrameUnpatched (s : State) : List Byte := headerBytes (ipZeroChecksum s.ip) ++ srcBytes s

/-- `c`, the checksum over the header and its options (R89). -/
def ipFrameChecksum (s : State) : Half :=
  internetChecksum ((ipFrameUnpatched s).take (4 * (ipIhl s.ip).toNat))

/-- The frame IPENC writes: the checksum bytes patched at offset 10 (R89). -/
def ipFrame (s : State) : List Byte := patch16 (ipFrameUnpatched s) 10 (ipFrameChecksum s)

/-- R89's checks and writes. -/
def ipencResult (s : State) : Except ErrCode State :=
  raiseIf (!srcInRange s) .range <|
  raiseIf (dstOutOfRange s) .range <|
  raiseIf (regionsOverlap s) .overlap <|
  raiseIf (decide ((ipIhl s.ip).toNat < minHeaderWords)) .badHdrLen <|
  raiseIf (optionsShort s (ipIhl s.ip).toNat) .optShort <|
  raiseIf (decide ((ipTotlen s.ip).toNat ≠ encodedLen s)) .totlenMismatch <|
  .ok (emit s (ipFrame s) (ipFrameChecksum s))

/-- IPENC (R89, R90). -/
def execIpenc (s : State) : Host.Outcome State Fault Refusal := conclude s (ipencResult s)

end Sys2Proof.Machine
end

