-- ==== Sys2Proof/Machine/Tcp.lean ====
section
/-! DEFINITION. The TCP segment codec: TCPDEC and TCPENC (42_tcp_codec.md R93–R95). -/

namespace Sys2Proof.Machine

/-! ### TCPDEC -/

/-- `b[12][7:4]`, the data offset a segment announces (R78, R93). -/
def segmentDoff (b : List Byte) : Nat := ((byteAt b 12).extractLsb' 4 4).toNat

/-- R93's writes. -/
def tcpdecWrites (s : State) (b : List Byte) : State :=
  { locate s (segmentDoff b) with
    tcp := headerOfBytes b
    cksum := segmentChecksum s b (srcN s) }

/-- R93's checks and writes. -/
def tcpdecResult (s : State) : Except ErrCode State :=
  raiseIf (!srcInRange s) .range <|
  raiseIf (headerMalformed (srcN s) (segmentDoff (srcBytes s))) .malformedHeader <|
  raiseIf (decide (srcN s > maxSegment)) .segTooLong <|
  .ok (tcpdecWrites s (srcBytes s))

/-- TCPDEC (R93, R94). -/
def execTcpdec (s : State) : Host.Outcome State Fault Refusal := conclude s (tcpdecResult s)

/-! ### TCPENC -/

/-- `g` before its checksum is patched: the header with the checksum field at zero, then the source region (R95). -/
def tcpSegmentUnpatched (s : State) : List Byte := headerBytes (tcpZeroChecksum s.tcp) ++ srcBytes s

/-- `c`, the checksum over the pseudo-header and the full segment (R95). -/
def tcpSegmentChecksum (s : State) : Half :=
  segmentChecksum s (tcpSegmentUnpatched s) (encodedLen s)

/-- The segment TCPENC writes: the checksum bytes patched at offset 16 (R95). -/
def tcpSegment (s : State) : List Byte := patch16 (tcpSegmentUnpatched s) 16 (tcpSegmentChecksum s)

/-- R95's checks and writes. -/
def tcpencResult (s : State) : Except ErrCode State :=
  raiseIf (!srcInRange s) .range <|
  raiseIf (dstOutOfRange s) .range <|
  raiseIf (regionsOverlap s) .overlap <|
  raiseIf (decide ((tcpDoff s.tcp).toNat < minHeaderWords)) .badHdrLen <|
  raiseIf (optionsShort s (tcpDoff s.tcp).toNat) .optShort <|
  raiseIf (decide (encodedLen s > maxSegment)) .segTooLong <|
  .ok (emit s (tcpSegment s) (tcpSegmentChecksum s))

/-- TCPENC (R95). -/
def execTcpenc (s : State) : Host.Outcome State Fault Refusal := conclude s (tcpencResult s)

end Sys2Proof.Machine
end

