-- ==== Sys2Proof/Machine/Dispatch.lean ====
section
/-! DEFINITION. The engine's completion step of a command: one arm per row of spec/opcode_table.json. -/

namespace Sys2Proof.Machine

def exec (i : Instr) (s : State) : Host.Outcome State Fault Refusal :=
  match i with
  | .cksum => Sys2Proof.Machine.execCksum s
  | .pcksum => Sys2Proof.Machine.execPcksum s
  | .ipdec => Sys2Proof.Machine.execIpdec s
  | .ipenc => Sys2Proof.Machine.execIpenc s
  | .tcpdec => Sys2Proof.Machine.execTcpdec s
  | .tcpenc => Sys2Proof.Machine.execTcpenc s
  | .fset idx => Sys2Proof.Machine.execFset idx s
  | .fclr idx => Sys2Proof.Machine.execFclr idx s
  | .ftest idx => Sys2Proof.Machine.execFtest idx s
  | .aton => Sys2Proof.Machine.execAton s
  | .ntoa => Sys2Proof.Machine.execNtoa s

end Sys2Proof.Machine
end

