-- ==== Sys2Proof/Machine/HostPort.lean ====
section
/-! DEFINITION. The host's side of the block: the aperture (20_memory.md R50–R53, R58), register reads and writes
(10_state.md R16–R45), acceptance of a command (R23), the busy lockout (70_reset_and_hazards.md R125), soft reset
(R122), and one line of a host program (30_encoding.md R79, R80). -/

namespace Sys2Proof.Machine

/-! ### Soft reset (R22, R122) -/

/-- The destination region of a command in flight, which an abandoned IPENC, TCPENC or NTOA may have written in part
(R122); empty for every other command word. -/
def destinationOf (s : State) : Nat :=
  match decode s.cmd with
  | .ok .ipenc => encodedLen s
  | .ok .tcpenc => encodedLen s
  | .ok .ntoa => (quadText s.addrVal).length
  | _ => 0

/-- Bytes of PRAM a soft reset leaves undetermined: the destination region of the abandoned command, clipped to PRAM;
none when no command is in flight (R122). DEDUCED (log entry 3): the region counts whether or not the command would have
ended in an error. -/
def abandonedLen (s : State) : Nat :=
  if s.status.busy then min (destinationOf s) (s.cfg.pramSize - dstA s) else 0

/-- `n` fresh draws, from number `k` on (R122, B2). -/
def freshBytes (k : Nat) : Nat → List Byte
  | 0 => []
  | n + 1 => Config.freshDraw k :: freshBytes (k + 1) n

/-- Soft reset: every register at its power-on value, a command in flight abandoned, its destination bytes fresh draws,
every other PRAM byte kept (R122). The model's own fields that are not the engine's survive (log entry 7). -/
def softReset (s : State) : State :=
  { State.powerOn s.cfg with
    pram := (memWrite s (dstA s) (freshBytes s.drawCount (abandonedLen s))).pram
    host := s.host
    response := s.response
    accepted := s.accepted
    drawCount := s.drawCount + abandonedLen s }

/-! ### Reading and writing registers (R16–R45) -/

/-- A host read of a register; reserved bits read as zero (R16). -/
def readReg (s : State) : Reg → Word
  | .id => Config.idValue
  | .version => Config.versionValue
  | .ctrl => bitWord s.irqEn 0
  | .cmd => s.cmd
  | .status => statusWord s.status
  | .errcode => s.errcode.setWidth 32
  | .srcAddr => s.srcAddr.setWidth 32
  | .srcLen => s.srcLen.setWidth 32
  | .dstAddr => s.dstAddr.setWidth 32
  | .resultLen => s.resultLen.setWidth 32
  | .cksum => s.cksum.setWidth 32
  | .ipW0 => s.ip.w0
  | .ipW1 => s.ip.w1
  | .ipW2 => s.ip.w2
  | .ipW3 => s.ip.w3
  | .ipW4 => s.ip.w4
  | .tcpW0 => s.tcp.w0
  | .tcpW1 => s.tcp.w1
  | .tcpW2 => s.tcp.w2
  | .tcpW3 => s.tcp.w3
  | .tcpW4 => s.tcp.w4
  | .addrVal => s.addrVal
  | .optOff => s.optOff.setWidth 32
  | .optLen => s.optLen.setWidth 32
  | .pldOff => s.pldOff.setWidth 32
  | .pldLen => s.pldLen.setWidth 32

/-- Acceptance of command word `v` (R23): `reg.CMD <- v; reg.STATUS.BUSY <- 1; reg.STATUS.DONE <- 0`. The model draws
the command's latency (R129; log entry 4). -/
def accept (v : Word) (s : State) : State :=
  { s with
    cmd := v
    status := { s.status with busy := true, done := false }
    engineWait := Config.cmdLatency s.accepted
    accepted := s.accepted + 1 }

/-- The busy lockout (R125): while a command is in flight the access is dropped and ACC_BUSY set; else it takes effect. -/
def lockout (s t : State) : State := if s.status.busy then setAccBusy s else t

/-- A host write of CTRL, never locked out: SRST performs the soft reset and leaves IRQ_EN = 0, else IRQ_EN is stored
(R22). -/
def writeCtrl (v : Word) (s : State) : State :=
  if v.getLsbD 1 then softReset s else { s with irqEn := v.getLsbD 0 }

/-- A host write of `v` to a register (R16–R45, R125): RO registers ignore it, CTRL and STATUS are never locked out, CMD
and the operand registers are, and reserved bits are not stored. -/
def writeReg (v : Word) (s : State) : Reg → State
  | .id | .version | .errcode | .resultLen | .cksum | .optOff | .optLen | .pldOff | .pldLen => s
  | .ctrl => writeCtrl v s
  | .status => { s with status := statusAfterWrite s.status v }
  | .cmd => lockout s (accept v s)
  | .srcAddr => lockout s { s with srcAddr := v.setWidth 18 }
  | .srcLen => lockout s { s with srcLen := v.setWidth 18 }
  | .dstAddr => lockout s { s with dstAddr := v.setWidth 18 }
  | .ipW0 => lockout s { s with ip := { s.ip with w0 := v } }
  | .ipW1 => lockout s { s with ip := { s.ip with w1 := v } }
  | .ipW2 => lockout s { s with ip := { s.ip with w2 := v } }
  | .ipW3 => lockout s { s with ip := { s.ip with w3 := v } }
  | .ipW4 => lockout s { s with ip := { s.ip with w4 := v } }
  | .tcpW0 => lockout s { s with tcp := { s.tcp with w0 := v } }
  | .tcpW1 => lockout s { s with tcp := { s.tcp with w1 := v } }
  | .tcpW2 => lockout s { s with tcp := { s.tcp with w2 := v } }
  | .tcpW3 => lockout s { s with tcp := { s.tcp with w3 := v } }
  | .tcpW4 => lockout s { s with tcp := { s.tcp with w4 := v } }
  | .addrVal => lockout s { s with addrVal := v }

/-! ### Accesses (R50–R53) -/

/-- What a host access reaches. -/
inductive Target where
  | register (r : Reg)
  | window (a : Nat)
  | malformed
deriving DecidableEq, Repr

/-- Which register or PRAM word an access of `bits` bits at aperture offset `off` reaches; an access that is not
well-formed reaches none (R51, R52). -/
def target (s : State) (off : Addr) (bits : Nat) : Target :=
  if bits ≠ 32 ∨ off.toNat % 4 ≠ 0 then .malformed
  else if Config.windowBase ≤ off.toNat ∧ off.toNat + 4 ≤ Config.windowBase + s.cfg.pramSize then
    .window (off.toNat - Config.windowBase)
  else
    match regAt off.toNat with
    | some r => .register r
    | none => .malformed

/-- A host read: the state after it and the word it returns (R16, R52, R53, R58, R125). -/
def hostRead (t : Target) (s : State) : State × Word :=
  match t with
  | .malformed => (setBusErr s, 0)
  | .register r => (s, readReg s r)
  | .window a => if s.status.busy then (setAccBusy s, 0) else (s, rd32 (memRead s a 4) 0)

/-- A host write of `v` (R16, R52, R53, R125). -/
def hostWrite (t : Target) (v : Word) (s : State) : State :=
  match t with
  | .malformed => setBusErr s
  | .register r => writeReg v s r
  | .window a => lockout s (memWrite s a (be32 v))

/-- One access at an aperture offset, its returned data left in `response` (log entry 6). -/
def apertureAccess (off : Addr) (bits : Nat) (op : BusOp) (s : State) : State :=
  match op with
  | .read => { (hostRead (target s off bits) s).1 with response := some (hostRead (target s off bits) s).2 }
  | .write v => { hostWrite (target s off bits) v s with response := none }

/-- The aperture offset of an address in the host's map, for the addresses of the block's aperture (R8, R50). -/
def apertureOffset (c : Config) (addr : Nat) : Option Addr :=
  if c.tpcBase ≤ addr ∧ addr < c.tpcBase + Config.apertureBytes then some (BitVec.ofNat 18 (addr - c.tpcBase))
  else none

/-- One access by the host. DEDUCED (log entry 11): an access outside the aperture does not reach the block. -/
def busAccess (a : HostAccess) (s : State) : State :=
  match apertureOffset s.cfg a.addr with
  | some off => apertureAccess off a.bits a.op s
  | none => { s with response := none }

/-! ### One line of a host program (R79, R80) -/

/-- The host's next line is taken, and one host access fewer remains before the command in flight completes
(log entry 4). -/
def takeLine (rest : List HostOp) (s : State) : State :=
  { s with host := rest, engineWait := s.engineWait - 1 }

/-- `rd STATUS`, the access `wait` repeats (R80). -/
def readStatusAccess (s : State) : HostAccess :=
  { addr := s.cfg.tpcBase + regOffset .status, bits := 32, op := .read }

/-- BUSY in the value a STATUS read returned (R24, R80). -/
def sawBusy (s : State) : Bool := (s.response.getD 0).getLsbD 0

/-- `wait` stays on its line while BUSY was 1 in the value read (R80). -/
def stayWhileBusy (s : State) : State := if sawBusy s then { s with host := .wait :: s.host } else s

/-- One turn of `wait`: read STATUS, and stay on the line while BUSY was 1 (R80). -/
def waitTurn (s : State) : State := stayWhileBusy (busAccess (readStatusAccess s) s)

/-- The host's turn: its next access takes effect (R61). With nothing left to do the host is idle. -/
def hostTurn (s : State) : State :=
  match s.host with
  | [] => s
  | .access a :: rest => busAccess a (takeLine rest s)
  | .wait :: rest => waitTurn (takeLine rest s)

/-! ### Host program forms (R79, R80) -/

/-- `wr NAME, v` (R79). -/
def lineWr (c : Config) (r : Reg) (v : Word) : HostOp := .access ⟨c.tpcBase + regOffset r, 32, .write v⟩

/-- `rd NAME` (R79). -/
def lineRd (c : Config) (r : Reg) : HostOp := .access ⟨c.tpcBase + regOffset r, 32, .read⟩

/-- `wrm a, v` (R79). -/
def lineWrm (c : Config) (a : Nat) (v : Word) : HostOp :=
  .access ⟨c.tpcBase + Config.windowBase + a, 32, .write v⟩

/-- `rdm a` (R79). -/
def lineRdm (c : Config) (a : Nat) : HostOp := .access ⟨c.tpcBase + Config.windowBase + a, 32, .read⟩

/-- `cmd M` and `cmd M, i` (R80). -/
def lineCmd (c : Config) (i : Instr) : HostOp := lineWr c .cmd (encode i)

/-- `run M` and `run M, i` (R80): `cmd`, then `wait`. -/
def linesRun (c : Config) (i : Instr) : List HostOp := [lineCmd c i, .wait]

end Sys2Proof.Machine
end

