-- ==== Sys2Proof/Machine/Engine.lean ====
section
/-! DEFINITION. The engine's side of a step: when it moves and how it completes the command in flight
(10_state.md R23, R47; 20_memory.md R61; 30_encoding.md R71). -/

namespace Sys2Proof.Machine

/-- The engine moves next: a command is in flight and its latency has run out, or the host has nothing left to do
(R61, R129; log entry 4). -/
def engineMoves (s : State) : Bool := s.status.busy && (s.engineWait == 0 || s.host.isEmpty)

/-- The engine's turn: it executes the command CMD decodes to (R23), or completes an illegal word with ILLEGAL_CMD,
writing nothing else (R71). -/
def engineTurn (s : State) : Host.Outcome State Fault Refusal :=
  match decode s.cmd with
  | .ok i => exec i s
  | .error _ => .next (complete .illegalCmd s)

/-- `s` with command word `w` just accepted (R23) and no host access left before it completes. -/
def issued (w : Word) (s : State) : State :=
  { s with cmd := w, status := { s.status with busy := true, done := false }, engineWait := 0 }

end Sys2Proof.Machine
end

