-- ==== Sys2Proof/Machine/Step.lean ====
section
/-! DEFINITION. One step of the machine: one engine completion or one host access (20_memory.md R61). -/

namespace Sys2Proof.Machine

/-- One step (R61). A machine with no command in flight and nothing left for the host to do stays as it is
(R15; log entry 8). -/
def step (s : State) : Host.Outcome State Fault Refusal :=
  if engineMoves s then engineTurn s else .next (hostTurn s)

/-- The block fetches nothing (R19, R65): its next instruction is the command word in CMD. So `s` with the word accepted
and the engine to move, which makes the very next step that command's completion (log entry 5). -/
def State.withFetchWord (s : State) (nbits w : Nat) : State := issued (BitVec.ofNat 32 (w % 2 ^ nbits)) s

end Sys2Proof.Machine
end

