-- ==== Sys2Proof/Safety.lean ====
section
/-! DEFINITION. What claims are stated in: a completion written out, the end of a run, the invariant of every state a
run can be in, the interleavings the spec allows, and the operand table of 30_encoding.md R72. -/

namespace Sys2Proof.Machine

/-- `s` after a completion with error number `code` and no other write: BUSY 0, DONE 1, ERR and ERRCODE from the number
(R110). The model's latency countdown is spent. -/
def completedWith (code : BitVec 8) (s : State) : State :=
  { s with
    status := { s.status with busy := false, done := true, err := decide (code ≠ 0) }
    errcode := code
    engineWait := 0 }

/-- The end of a run: the host has performed its last access and BUSY = 0 (R15). -/
def Final (s : State) : Prop := s.host = [] ∧ s.status.busy = false

/-- What holds in every state a run can be in. -/
structure Inv (s : State) : Prop where
  /-- The build's parameters are legal (R8). -/
  cfg_legal : s.cfg.legal = true
  /-- PRAM keeps its canonical form (log entry 2). -/
  pram_wf : s.pram.wf = true
  /-- PRAM holds no byte outside 0..PRAM_SIZE−1 (R46). -/
  pram_inside : ∀ c ∈ s.pram, c.1 < s.cfg.pramSize
  /-- DONE is 0 while a command is in flight (R23, R114, R115). -/
  busy_not_done : s.status.busy = true → s.status.done = false
  /-- No completion is pending when no command is in flight. -/
  wait_only_busy : s.status.busy = false → s.engineWait = 0
  /-- ERR reports a non-zero code (R24, R110). -/
  err_iff_code : s.status.err = decide (s.errcode ≠ 0)
  /-- ERRCODE never holds 0x0B..0xFF (R108; 93_implementation_defined.md X4). -/
  code_defined : s.errcode.toNat ≤ 0x0A
  /-- STATUS.PLD = 1 exactly when PLD_LEN > 0 (R24; 92_eei_decisions.md D13). -/
  pld_iff_len : s.status.pld = decide (s.pldLen ≠ 0)
  /-- OPT_LEN holds a value in 0, 4, ..., 40 (R43). -/
  opt_words : s.optLen.toNat % 4 = 0 ∧ s.optLen.toNat ≤ 40
  /-- No command writes more than 65535 bytes (R129; 90_conflicts.md C10). -/
  result_bound : s.resultLen.toNat ≤ 65535

/-- The steps the spec allows from `s` (R61): the completion of a command in flight, at any time, or the host's next
access. -/
def MayStep (s t : State) : Prop :=
  (s.status.busy = true ∧ engineTurn s = .next t) ∨ (s.host ≠ [] ∧ t = hostTurn s)

/-- `s` and `t` are the same but for the model's latency countdown. -/
def SameButLatency (s t : State) : Prop := { s with engineWait := 0 } = { t with engineWait := 0 }

/-- The host's next access is a 32-bit write of `v` at aperture offset `off` (R50, R51). -/
def HostWrites (s : State) (off : Nat) (v : Word) : Prop :=
  ∃ rest, s.host = .access ⟨s.cfg.tpcBase + off, 32, .write v⟩ :: rest

/-- The host's next access is a write of CTRL with SRST = 1: the event that performs a soft reset (R22, R122). -/
def HostResets (s : State) : Prop := ∃ v : Word, HostWrites s 0x008 v ∧ v.getLsbD 1 = true

/-- The step from `s` to `t` is the completion of the command in flight (R110). -/
def Completes (s t : State) : Prop :=
  s.status.busy = true ∧ engineTurn s = .next t ∧ t.status.busy = false ∧ t.status.done = true

/-! ### Illegal command words (R71) -/

/-- `OPC is not one of the eleven values of R69, or RSV ≠ 0, or OPC is not FSET, FCLR or FTEST and IDX ≠ 0` (R71). -/
def IllegalWord (w : Word) : Prop :=
  w.extractLsb' 0 8 ∉ ([0x01, 0x02, 0x10, 0x11, 0x20, 0x21, 0x28, 0x29, 0x2A, 0x30, 0x31] : List Byte)
    ∨ w.extractLsb' 12 20 ≠ 0
    ∨ (w.extractLsb' 0 8 ∉ ([0x28, 0x29, 0x2A] : List Byte) ∧ w.extractLsb' 8 4 ≠ 0)

/-! ### Dotted-quad text as a grammar (R102) -/

/-- An ASCII decimal digit. -/
def IsDigit (b : Byte) : Prop := 0x30 ≤ b.toNat ∧ b.toNat ≤ 0x39

/-- The decimal value of a digit sequence, leading zeros read as decimal. -/
def decimalValue (ds : List Byte) : Nat := ds.foldl (fun x b => 10 * x + (b.toNat - 0x30)) 0

/-- `component`: 1 to 3 digits, with its decimal value. -/
def IsComponent (ds : List Byte) (x : Nat) : Prop :=
  1 ≤ ds.length ∧ ds.length ≤ 3 ∧ (∀ b ∈ ds, IsDigit b) ∧ decimalValue ds = x

/-- `quad`: four components with "." between them, and the values of the components in text order. -/
def IsQuad (text : List Byte) (c0 c1 c2 c3 : Nat) : Prop :=
  ∃ p0 p1 p2 p3 : List Byte,
    text = p0 ++ [0x2E] ++ p1 ++ [0x2E] ++ p2 ++ [0x2E] ++ p3
      ∧ IsComponent p0 c0 ∧ IsComponent p1 c1 ∧ IsComponent p2 c2 ∧ IsComponent p3 c3

/-- A component has a leading zero: more than one digit, the first "0". -/
def LeadingZero (ds : List Byte) : Prop := 2 ≤ ds.length ∧ ds.head? = some 0x30

/-! ### The operand table (R72) -/

/-- The column "reads registers". CMD.IDX is part of the command. -/
def commandReads : Instr → List Reg
  | .cksum => [.srcAddr, .srcLen]
  | .pcksum => [.srcAddr, .srcLen, .ipW3, .ipW4]
  | .ipdec => [.srcAddr, .srcLen]
  | .ipenc => [.srcAddr, .srcLen, .dstAddr, .ipW0, .ipW1, .ipW2, .ipW3, .ipW4]
  | .tcpdec => [.srcAddr, .srcLen, .ipW3, .ipW4]
  | .tcpenc => [.srcAddr, .srcLen, .dstAddr, .tcpW0, .tcpW1, .tcpW2, .tcpW3, .tcpW4, .ipW3, .ipW4]
  | .fset _ | .fclr _ | .ftest _ => [.tcpW3]
  | .aton => [.srcAddr, .srcLen]
  | .ntoa => [.addrVal, .dstAddr]

/-- The column "reads PRAM": whether the command reads the source region. -/
def readsSource : Instr → Bool
  | .cksum | .pcksum | .ipdec | .ipenc | .tcpdec | .tcpenc | .aton => true
  | .fset _ | .fclr _ | .ftest _ | .ntoa => false

/-- The column "writes registers", STATUS.PLD and STATUS.TEST apart (`writesPld`, `writesTest`). -/
def commandWrites : Instr → List Reg
  | .cksum | .pcksum => [.cksum]
  | .ipdec => [.ipW0, .ipW1, .ipW2, .ipW3, .ipW4, .optOff, .optLen, .pldOff, .pldLen, .cksum]
  | .ipenc | .tcpenc => [.resultLen, .cksum]
  | .tcpdec => [.tcpW0, .tcpW1, .tcpW2, .tcpW3, .tcpW4, .optOff, .optLen, .pldOff, .pldLen, .cksum]
  | .fset _ | .fclr _ => [.tcpW3]
  | .ftest _ => []
  | .aton => [.addrVal]
  | .ntoa => [.resultLen]

/-- The commands whose row writes STATUS.PLD. -/
def writesPld : Instr → Bool
  | .ipdec | .tcpdec => true
  | .cksum | .pcksum | .ipenc | .tcpenc | .fset _ | .fclr _ | .ftest _ | .aton | .ntoa => false

/-- The commands whose row writes STATUS.TEST. -/
def writesTest : Instr → Bool
  | .ftest _ => true
  | .cksum | .pcksum | .ipdec | .ipenc | .tcpdec | .tcpenc | .fset _ | .fclr _ | .aton | .ntoa => false

/-- The column "writes PRAM": how many bytes from DST_ADDR on a command stores, by R72. -/
def storedLen (i : Instr) (s : State) : Nat :=
  match i with
  | .ipenc | .tcpenc => 20 + s.srcLen.toNat
  | .ntoa => (quadText s.addrVal).length
  | .cksum | .pcksum | .ipdec | .tcpdec | .fset _ | .fclr _ | .ftest _ | .aton => 0

end Sys2Proof.Machine
end

