-- ==== Sys2Proof/Certificates/Slice0/Obligations.lean ====
section
/-! DEFINITION. The statements about the model, one per numbered rule of the spec or group of them. A statement speaks of
every state, hence of every build (log entry 1), of every PRAM content and of every value of the free values. -/

open Sys2Proof Sys2Proof.Machine

/-! ## Command words (30_encoding.md) -/

/-- R68–R71, R73, R74: a word decodes to a command exactly when the command is well-formed and the word is its encoding. -/
def Obligations.DecodeInvertsEncode : Prop :=
  ∀ (w : Word) (i : Instr), decode w = .ok i ↔ (i.wellFormed = true ∧ encode i = w)

/-- R74: at most one row of the pattern table matches a word, and the row that matches is the decoded command's. -/
def Obligations.WordSelectsOneTableRow : Prop :=
  ∀ w : Word,
    (∀ r ∈ opcodeTable, ∀ r' ∈ opcodeTable, w &&& r.mask = r.pattern → w &&& r'.mask = r'.pattern → r = r') ∧
    (∀ r ∈ opcodeTable, w &&& r.mask = r.pattern ↔ ∃ i, decode w = .ok i ∧ mnemonicOf i = r.mnemonic)

/-- R71: which words are illegal; such a word is accepted like any other, and completes with ILLEGAL_CMD having written
nothing else; the word 0 is one. -/
def Obligations.IllegalWordCompletesWithIllegalCmd : Prop :=
  ∀ (w : Word) (s : State),
    ((∃ e, decode w = .error e) ↔ IllegalWord w) ∧
    (s.status.busy = false →
      (writeReg w s .cmd).cmd = w ∧ (writeReg w s .cmd).status.busy = true) ∧
    (IllegalWord w → s.cmd = w → s.status.busy = true → (s.engineWait = 0 ∨ s.host = []) →
      step s = .next (completedWith 0x01 s)) ∧
    IllegalWord 0

/-- R68–R70: command words written out bit by bit from the spec's encodings decode to the commands they stand for. -/
def Obligations.SpecWordsDecode : Prop :=
  decode 0b00000000000000000000000000000001#32 = .ok .cksum ∧
  decode 0b00000000000000000000000000000010#32 = .ok .pcksum ∧
  decode 0b00000000000000000000000000010001#32 = .ok .ipenc ∧
  decode 0b00000000000000000000000000100000#32 = .ok .tcpdec ∧
  decode 0b00000000000000000000000100101000#32 = .ok (.fset 1) ∧
  decode 0b00000000000000000000010000101001#32 = .ok (.fclr 4) ∧
  decode 0b00000000000000000000001000101010#32 = .ok (.ftest 2) ∧
  decode 0b00000000000000000000000000110001#32 = .ok .ntoa

/-! ## Steps (20_memory.md R61, 10_state.md R23) -/

/-- R23: when the engine moves, a step is the execution of the command CMD decodes to. -/
def Obligations.EngineStepRunsDecodedCommand : Prop :=
  ∀ (s : State) (i : Instr), s.status.busy = true → (s.engineWait = 0 ∨ s.host = []) → decode s.cmd = .ok i →
    step s = exec i s

/-- R61, R15: when the engine does not move, a step is the host's next access; with none left the run is over. That the
latency counts down once per host access is the model's choice (log entry 4). -/
def Obligations.HostStepPerformsNextAccess : Prop :=
  ∀ (s : State) (a : HostAccess) (rest : List HostOp),
    (s.host = .access a :: rest → (s.status.busy = false ∨ s.engineWait ≠ 0) →
      step s = .next (busAccess a { s with host := rest, engineWait := s.engineWait - 1 })) ∧
    (Final s → step s = .next s)

/-- R80: `wait` reads STATUS, and stays until the BUSY bit it read is 0. -/
def Obligations.WaitRepeatsStatusReads : Prop :=
  ∀ (s : State) (rest : List HostOp), s.host = .wait :: rest →
    (s.status.busy = true → s.engineWait ≠ 0 →
      step s = .next { s with engineWait := s.engineWait - 1, response := some (readReg s .status) }) ∧
    (s.status.busy = false →
      step s = .next { s with
        host := rest, engineWait := s.engineWait - 1, response := some (readReg s .status) })

/-- R61, R129: every step is one the spec allows, and every step the spec allows is the model's for some value of the
latency left, which is the model's own field (log entry 4). A finished run repeats its state (log entry 8). -/
def Obligations.StepsAreTheAllowedInterleavings : Prop :=
  ∀ s t : State,
    (step s = .next t → MayStep s t ∨ (Final s ∧ t = s)) ∧
    (MayStep s t → ∃ k t', step { s with engineWait := k } = .next t' ∧ SameButLatency t' t)

/-- R15, R129, R130: whatever the latencies and the host program, the run comes to its end. -/
def Obligations.EveryRunEnds : Prop :=
  ∀ s : State, ∃ (n : Nat) (t : State), Sys2Proof.core.run n s = .next t ∧ Final t

/-! ## Acceptance, lockout and host accesses (10_state.md, 20_memory.md, 70_reset_and_hazards.md) -/

/-- R23: a host's write at CMD's offset is the CMD write; while idle it is accepted, changing CMD, BUSY and DONE and nothing else (the model's own latency fields
apart); the engine then executes the command it decodes to; a CMD write while busy is dropped with ACC_BUSY; a read
returns the accepted word. -/
def Obligations.CommandWriteAccepted : Prop :=
  ∀ (v : Word) (s : State),
    apertureAccess 0x0000C 32 (.write v) s = { writeReg v s .cmd with response := none } ∧
    (s.status.busy = false →
      writeReg v s .cmd =
        { s with
          cmd := v
          status := { s.status with busy := true, done := false }
          engineWait := (writeReg v s .cmd).engineWait
          accepted := (writeReg v s .cmd).accepted } ∧
      readReg (writeReg v s .cmd) .cmd = v ∧
      (∀ i, decode v = .ok i → (writeReg v s .cmd).engineWait = 0 ∨ s.host = [] →
        step (writeReg v s .cmd) = exec i (writeReg v s .cmd))) ∧
    (s.status.busy = true → writeReg v s .cmd = { s with status := { s.status with accBusy := true } })

/-- R125: the accesses the busy lockout drops, and those it does not. -/
def Obligations.BusyLockout : Prop :=
  ∀ (s : State) (off : Addr) (v : Word), s.status.busy = true → off.toNat % 4 = 0 →
    ((off.toNat = 0x00C ∨ (0x018 ≤ off.toNat ∧ off.toNat ≤ 0x020) ∨ (0x02C ≤ off.toNat ∧ off.toNat ≤ 0x054)
        ∨ (0x20000 ≤ off.toNat ∧ off.toNat + 4 ≤ 0x20000 + s.cfg.pramSize)) →
      apertureAccess off 32 (.write v) s =
        { s with status := { s.status with accBusy := true }, response := none }) ∧
    (0x20000 ≤ off.toNat → off.toNat + 4 ≤ 0x20000 + s.cfg.pramSize →
      apertureAccess off 32 .read s = { s with status := { s.status with accBusy := true }, response := some 0 }) ∧
    (∀ r, regOffset r = off.toNat →
      apertureAccess off 32 .read s = { s with response := some (readReg s r) }) ∧
    ((off.toNat = 0x000 ∨ off.toNat = 0x004 ∨ off.toNat = 0x014 ∨ off.toNat = 0x024 ∨ off.toNat = 0x028
        ∨ (0x058 ≤ off.toNat ∧ off.toNat ≤ 0x064)) →
      apertureAccess off 32 (.write v) s = { s with response := none }) ∧
    (off.toNat = 0x010 →
      apertureAccess off 32 (.write v) s = { s with status := statusAfterWrite s.status v, response := none }) ∧
    (off.toNat = 0x008 → v.getLsbD 1 = false →
      apertureAccess off 32 (.write v) s = { s with irqEn := v.getLsbD 0, response := none }) ∧
    (off.toNat = 0x008 → v.getLsbD 1 = true →
      apertureAccess off 32 (.write v) s = { softReset s with response := none })

/-- R51, R52: an access that is not well-formed changes nothing but BUS_ERR, and a read of that kind returns 0; so also
while a command is in flight. -/
def Obligations.MalformedAccessSetsBusErrOnly : Prop :=
  ∀ (s : State) (off : Addr) (bits : Nat) (v : Word),
    ¬ (bits = 32 ∧ off.toNat % 4 = 0 ∧
        (off.toNat ≤ 0x064 ∨ (0x20000 ≤ off.toNat ∧ off.toNat + 4 ≤ 0x20000 + s.cfg.pramSize))) →
      apertureAccess off bits .read s = { s with status := { s.status with busErr := true }, response := some 0 } ∧
      apertureAccess off bits (.write v) s = { s with status := { s.status with busErr := true }, response := none }

/-- R53: the PRAM window reads and writes four bytes, most significant first, and both are subject to the busy lockout. -/
def Obligations.PramWindow : Prop :=
  ∀ (s : State) (off : Addr) (a : Nat) (v : Word),
    off.toNat = 0x20000 + a → a % 4 = 0 → a + 4 ≤ s.cfg.pramSize →
    (s.status.busy = false →
      (∃ x : Word, apertureAccess off 32 .read s = { s with response := some x } ∧
        x.toNat = (readByte s a).toNat * 2 ^ 24 + (readByte s (a + 1)).toNat * 2 ^ 16
          + (readByte s (a + 2)).toNat * 2 ^ 8 + (readByte s (a + 3)).toNat) ∧
      (∃ t : State, apertureAccess off 32 (.write v) s = t ∧ t = { s with pram := t.pram, response := none } ∧
        readByte t a = v.extractLsb' 24 8 ∧ readByte t (a + 1) = v.extractLsb' 16 8 ∧
        readByte t (a + 2) = v.extractLsb' 8 8 ∧ readByte t (a + 3) = v.extractLsb' 0 8 ∧
        ∀ b, b < a ∨ a + 4 ≤ b → readByte t b = readByte s b)) ∧
    (s.status.busy = true →
      apertureAccess off 32 .read s = { s with status := { s.status with accBusy := true }, response := some 0 } ∧
      apertureAccess off 32 (.write v) s = { s with status := { s.status with accBusy := true }, response := none })

/-- R17, R16, R20, R21, R23, R25–R45, R51, R58: the register map; that a well-formed read at a register's offset returns
that register and has no side effect; that a well-formed write there, idle or busy, is the write of that register, whose
effect `CommandWriteAccepted`, `OperandRegisterWrites`, `StatusLayoutAndWrite` and `ControlWrite` say; and what each
register reads as: its field zero-extended, reserved bits 0 (STATUS and CTRL are in the last two of those). -/
def Obligations.RegisterMapReads : Prop :=
  allRegs.map regOffset =
    [0x000, 0x004, 0x008, 0x00C, 0x010, 0x014, 0x018, 0x01C, 0x020, 0x024, 0x028, 0x02C, 0x030,
      0x034, 0x038, 0x03C, 0x040, 0x044, 0x048, 0x04C, 0x050, 0x054, 0x058, 0x05C, 0x060, 0x064] ∧
  ∀ s : State,
    (∀ r : Reg, r ∈ allRegs ∧
      apertureAccess (BitVec.ofNat 18 (regOffset r)) 32 .read s = { s with response := some (readReg s r) } ∧
      ∀ v : Word, apertureAccess (BitVec.ofNat 18 (regOffset r)) 32 (.write v) s =
        { writeReg v s r with response := none }) ∧
    (∀ p ∈ [(Reg.id, (0x54454143 : Word)), (.version, 0x00010000), (.cmd, s.cmd), (.ipW0, s.ip.w0), (.ipW1, s.ip.w1),
        (.ipW2, s.ip.w2), (.ipW3, s.ip.w3), (.ipW4, s.ip.w4), (.tcpW0, s.tcp.w0), (.tcpW1, s.tcp.w1),
        (.tcpW2, s.tcp.w2), (.tcpW3, s.tcp.w3), (.tcpW4, s.tcp.w4), (.addrVal, s.addrVal)],
      readReg s p.1 = p.2) ∧
    (∀ p ∈ [(Reg.srcAddr, s.srcAddr), (.srcLen, s.srcLen), (.dstAddr, s.dstAddr), (.resultLen, s.resultLen),
        (.optOff, s.optOff), (.optLen, s.optLen), (.pldOff, s.pldOff), (.pldLen, s.pldLen)],
      readReg s p.1 = p.2.setWidth 32) ∧
    readReg s .errcode = s.errcode.setWidth 32 ∧ readReg s .cksum = s.cksum.setWidth 32

/-- R16, R26–R28, R31–R41: a host write while idle. An RO register ignores it; an RW operand register then reads the
written bits, reserved bits reading as zero; every other register and every PRAM byte is unchanged. -/
def Obligations.OperandRegisterWrites : Prop :=
  ∀ (s : State) (v : Word), s.status.busy = false →
    (∀ r ∈ [Reg.id, .version, .errcode, .resultLen, .cksum, .optOff, .optLen, .pldOff, .pldLen], writeReg v s r = s) ∧
    (∀ r ∈ [Reg.srcAddr, .srcLen, .dstAddr], readReg (writeReg v s r) r = v &&& 0x3FFFF) ∧
    (∀ r ∈ [Reg.ipW0, .ipW1, .ipW2, .ipW3, .ipW4, .tcpW0, .tcpW1, .tcpW2, .tcpW3, .tcpW4, .addrVal],
      readReg (writeReg v s r) r = v) ∧
    (∀ r ∈ [Reg.srcAddr, .srcLen, .dstAddr, .ipW0, .ipW1, .ipW2, .ipW3, .ipW4, .tcpW0, .tcpW1, .tcpW2, .tcpW3,
        .tcpW4, .addrVal],
      (∀ r', r' ≠ r → readReg (writeReg v s r) r' = readReg s r') ∧
      ∀ a, readByte (writeReg v s r) a = readByte s a)

/-- R16, R24: STATUS's layout, and a host write of it: the W1C bits 1, 8 and 9 clear where a 1 is written, every other bit
keeps its value, and nothing else changes; a host's write at STATUS's offset is that write. -/
def Obligations.StatusLayoutAndWrite : Prop :=
  ∀ (s : State) (v : Word),
    (∀ i, (readReg s .status).getLsbD i =
      ((i == 0 && s.status.busy) || (i == 1 && s.status.done) || (i == 2 && s.status.err) || (i == 3 && s.status.test)
        || (i == 4 && s.status.pld) || (i == 8 && s.status.accBusy) || (i == 9 && s.status.busErr))) ∧
    (∀ i, (readReg (writeReg v s .status) .status).getLsbD i =
      ((readReg s .status).getLsbD i && !((i == 1 || i == 8 || i == 9) && v.getLsbD i))) ∧
    (∃ t : Status, writeReg v s .status = { s with status := t }) ∧
    apertureAccess 0x00010 32 (.write v) s = { writeReg v s .status with response := none }

/-- R22: CTRL reads IRQ_EN alone; a write stores IRQ_EN, never locked out; a write of SRST = 1 performs the soft reset and
leaves IRQ_EN = 0, whatever it writes to IRQ_EN; a host's write at CTRL's offset is that write. -/
def Obligations.ControlWrite : Prop :=
  ∀ (s : State) (v : Word),
    readReg s .ctrl = (if s.irqEn then 1 else 0) ∧
    (v.getLsbD 1 = false → writeReg v s .ctrl = { s with irqEn := v.getLsbD 0 }) ∧
    (v.getLsbD 1 = true → writeReg v s .ctrl = softReset s ∧ (writeReg v s .ctrl).irqEn = false) ∧
    apertureAccess 0x00008 32 (.write v) s = { writeReg v s .ctrl with response := none }

/-- R122: soft reset in any state, by a host's write at CTRL's offset. Every register takes its power-on value and a command in flight is gone; the
destination bytes an abandoned IPENC, TCPENC or NTOA would have written, clipped to PRAM, take fresh draws; every other
PRAM byte keeps its value, and none changes when no command was in flight. That the region counts also for a command
that would have ended in an error is DEDUCED (log entry 3). -/
def Obligations.SoftReset : Prop :=
  ∀ (s : State) (v : Word) (n : Nat), v.getLsbD 1 = true →
    (s.status.busy = false → n = 0) →
    (s.status.busy = true → ∀ i, decode s.cmd = .ok i →
      n = min (storedLen i s) (s.cfg.pramSize - s.dstAddr.toNat)) →
    (s.status.busy = true → (∃ e, decode s.cmd = .error e) → n = 0) →
    apertureAccess 0x00008 32 (.write v) s = { writeReg v s .ctrl with response := none } ∧
    (∀ r, readReg (writeReg v s .ctrl) r = readReg (State.powerOn s.cfg) r) ∧
    (writeReg v s .ctrl).status.busy = false ∧
    (writeReg v s .ctrl).host = s.host ∧
    (∀ a, a < s.dstAddr.toNat ∨ s.dstAddr.toNat + n ≤ a → readByte (writeReg v s .ctrl) a = readByte s a) ∧
    (∀ k, k < n → readByte (writeReg v s .ctrl) (s.dstAddr.toNat + k) = Config.freshDraw (s.drawCount + k)) ∧
    (writeReg v s .ctrl).drawCount = s.drawCount + n

/-- R121: the power-on state of every build. -/
def Obligations.PowerOnReset : Prop :=
  ∀ c : Config,
    readReg (State.powerOn c) .id = 0x54454143 ∧ readReg (State.powerOn c) .version = 0x00010000 ∧
    (∀ r, r ≠ .id → r ≠ .version → readReg (State.powerOn c) r = 0) ∧
    irq (State.powerOn c) = false ∧ (State.powerOn c).status.busy = false ∧
    ∀ a, readByte (State.powerOn c) a = Config.pramDraw a

/-- R48, R112, R113: the interrupt output, what raises it and what clears it. -/
def Obligations.InterruptOutput : Prop :=
  ∀ (s : State) (v : Word),
    irq s = ((readReg s .ctrl).getLsbD 0 && (readReg s .status).getLsbD 1) ∧
    (∀ i t, exec i s = .next t → irq t = s.irqEn) ∧
    (v.getLsbD 1 = true → irq (writeReg v s .status) = false) ∧
    (s.status.busy = false → irq (writeReg v s .cmd) = false) ∧
    (v.getLsbD 0 = false → irq (writeReg v s .ctrl) = false) ∧
    (v.getLsbD 1 = true → irq (writeReg v s .ctrl) = false) ∧
    (∀ off bits, target s off bits = .malformed → irq (hostRead (target s off bits) s).1 = irq s)

/-- R50: the aperture's 0x40000 offsets, placed at TPC_BASE; a bus access there is the aperture access at its offset. That
an access outside reaches nothing is the model's reading (log entry 11). -/
def Obligations.ApertureAtBase : Prop :=
  (∀ (c : Config) (addr : Nat) (off : Addr), apertureOffset c addr = some off ↔ addr = c.tpcBase + off.toNat) ∧
  ∀ (s : State) (a : HostAccess),
    (∀ off : Addr, a.addr = s.cfg.tpcBase + off.toNat → busAccess a s = apertureAccess off a.bits a.op s) ∧
    ((a.addr < s.cfg.tpcBase ∨ s.cfg.tpcBase + 0x40000 ≤ a.addr) → busAccess a s = { s with response := none })

/-- R47, R125: whatever the host does short of a soft reset, the operands of the command in flight and PRAM keep their
values, and so does everything the command would write. -/
def Obligations.OperandsHeldWhileInFlight : Prop :=
  ∀ (s : State) (a : HostAccess), s.status.busy = true → (busAccess a s).status.busy = true →
    busAccess a s =
      { s with
        irqEn := (busAccess a s).irqEn
        response := (busAccess a s).response
        status := { s.status with
          done := (busAccess a s).status.done
          accBusy := (busAccess a s).status.accBusy
          busErr := (busAccess a s).status.busErr } }

/-- R24, R23, R22, R110, R122: the events that change BUSY, DONE, ERR, TEST, PLD and ERRCODE, each both ways. BUSY rises
at a CMD write, and falls at a completion or a soft reset. DONE rises at a completion, and falls at the acceptance of a
command, at a write of 1 to it in STATUS, or at a soft reset. ERR and ERRCODE change at a completion, TEST at one of
FTEST, PLD at one of IPDEC or TCPDEC; otherwise only at a soft reset. -/
def Obligations.StatusChangesOnlyByItsEvents : Prop :=
  ∀ s t : State, step s = .next t →
    (s.status.busy = false → t.status.busy = true →
      ∃ v, HostWrites s 0x00C v ∧ t.cmd = v ∧ t.status.done = false) ∧
    (s.status.busy = true → t.status.busy = false → Completes s t ∨ HostResets s) ∧
    (s.status.done = false → t.status.done = true → Completes s t) ∧
    (s.status.done = true → t.status.done = false →
      (s.status.busy = false ∧ t.status.busy = true ∧ ∃ v, HostWrites s 0x00C v) ∨
      (∃ v, HostWrites s 0x010 v ∧ v.getLsbD 1 = true) ∨ HostResets s) ∧
    (t.status.err ≠ s.status.err ∨ t.errcode ≠ s.errcode →
      Completes s t ∨ (HostResets s ∧ readReg t .status = 0 ∧ t.errcode = 0)) ∧
    (t.status.test ≠ s.status.test → (Completes s t ∧ ∃ i, decode s.cmd = .ok (.ftest i)) ∨ HostResets s) ∧
    (t.status.pld ≠ s.status.pld →
      (Completes s t ∧ (decode s.cmd = .ok .ipdec ∨ decode s.cmd = .ok .tcpdec)) ∨ HostResets s)

/-! ## Completion and errors (60_exceptions.md) -/

/-- R110: every completion, of a command or of an illegal word, is one step with R110's completion state; an error
completion writes nothing else. -/
def Obligations.CompletionState : Prop :=
  ∀ s : State,
    (∀ i : Instr, ∃ t : State, exec i s = .next t ∧
      t.status.busy = false ∧ t.status.done = true ∧ t.status.err = decide (t.errcode ≠ 0) ∧
      (t.errcode ≠ 0 → t = completedWith t.errcode s)) ∧
    ∃ t : State, engineTurn s = .next t ∧
      t.status.busy = false ∧ t.status.done = true ∧ t.status.err = decide (t.errcode ≠ 0) ∧
      (t.errcode ≠ 0 → t = completedWith t.errcode s)

/-- R108: the codes each command raises. -/
def Obligations.CodesEachCommandRaises : Prop :=
  ∀ (s t : State) (idx : Nat),
    (exec .cksum s = .next t → t.errcode ∈ ([0x00, 0x02] : List Byte)) ∧
    (exec .pcksum s = .next t → t.errcode ∈ ([0x00, 0x02, 0x08] : List Byte)) ∧
    (exec .ipdec s = .next t → t.errcode ∈ ([0x00, 0x02, 0x04] : List Byte)) ∧
    (exec .ipenc s = .next t → t.errcode ∈ ([0x00, 0x02, 0x03, 0x05, 0x06, 0x07] : List Byte)) ∧
    (exec .tcpdec s = .next t → t.errcode ∈ ([0x00, 0x02, 0x04, 0x08] : List Byte)) ∧
    (exec .tcpenc s = .next t → t.errcode ∈ ([0x00, 0x02, 0x03, 0x05, 0x06, 0x08] : List Byte)) ∧
    (exec (.fset idx) s = .next t ∨ exec (.fclr idx) s = .next t ∨ exec (.ftest idx) s = .next t →
      t.errcode ∈ ([0x00, 0x0A] : List Byte)) ∧
    (exec .aton s = .next t → t.errcode ∈ ([0x00, 0x02, 0x09] : List Byte)) ∧
    (exec .ntoa s = .next t → t.errcode ∈ ([0x00, 0x02] : List Byte))

/-! ## What each command does (40_checksum.md to 43_address.md) -/

/-- R85: CKSUM, its encoding, its result and its error. -/
def Obligations.CksumResult : Prop :=
  decode 0x00000001 = .ok .cksum ∧
  ∀ s : State,
    (s.srcAddr.toNat + s.srcLen.toNat ≤ s.cfg.pramSize →
      exec .cksum s = .next (completedWith 0x00
        { s with cksum := internetChecksum (memRead s s.srcAddr.toNat s.srcLen.toNat) })) ∧
    (s.cfg.pramSize < s.srcAddr.toNat + s.srcLen.toNat → exec .cksum s = .next (completedWith 0x02 s))

/-- R86: PCKSUM, its encoding, its result and its errors in order. -/
def Obligations.PcksumResult : Prop :=
  decode 0x00000002 = .ok .pcksum ∧
  ∀ s : State,
    (s.cfg.pramSize < s.srcAddr.toNat + s.srcLen.toNat → exec .pcksum s = .next (completedWith 0x02 s)) ∧
    (s.srcAddr.toNat + s.srcLen.toNat ≤ s.cfg.pramSize → 65535 < s.srcLen.toNat →
      exec .pcksum s = .next (completedWith 0x08 s)) ∧
    (s.srcAddr.toNat + s.srcLen.toNat ≤ s.cfg.pramSize → s.srcLen.toNat ≤ 65535 →
      exec .pcksum s = .next (completedWith 0x00
        { s with
          cksum := internetChecksum
            (be32 s.ip.w3 ++ be32 s.ip.w4 ++ [0x00, 0x06] ++ be16 (s.srcLen.setWidth 16)
              ++ memRead s s.srcAddr.toNat s.srcLen.toNat) }))

/-- R87: IPDEC, its encoding, its result and its errors in order. -/
def Obligations.IpdecResult : Prop :=
  decode 0x00000010 = .ok .ipdec ∧
  ∀ (s : State) (a n ihl : Nat) (b : List Byte),
    a = s.srcAddr.toNat → n = s.srcLen.toNat → b = memRead s a n → ihl = (readByte s a).toNat % 16 →
    (s.cfg.pramSize < a + n → exec .ipdec s = .next (completedWith 0x02 s)) ∧
    (a + n ≤ s.cfg.pramSize → (n < 20 ∨ ihl < 5 ∨ n < 4 * ihl) → exec .ipdec s = .next (completedWith 0x04 s)) ∧
    (a + n ≤ s.cfg.pramSize → 20 ≤ n → 5 ≤ ihl → 4 * ihl ≤ n →
      exec .ipdec s = .next (completedWith 0x00
        { s with
          ip := { w0 := rd32 b 0, w1 := rd32 b 4, w2 := rd32 b 8, w3 := rd32 b 12, w4 := rd32 b 16 }
          optOff := BitVec.ofNat 18 (a + 20)
          optLen := BitVec.ofNat 18 (4 * ihl - 20)
          pldOff := BitVec.ofNat 18 (a + 4 * ihl)
          pldLen := BitVec.ofNat 18 (n - 4 * ihl)
          status := { s.status with pld := decide (n - 4 * ihl ≠ 0) }
          cksum := internetChecksum (b.take (4 * ihl)) }))

/-- R89: IPENC, its encoding, its result and its errors in order. -/
def Obligations.IpencResult : Prop :=
  decode 0x00000011 = .ok .ipenc ∧
  ∀ (s : State) (a n d ihl : Nat) (f : List Byte) (c : Half),
    a = s.srcAddr.toNat → n = s.srcLen.toNat → d = s.dstAddr.toNat → ihl = (ipIhl s.ip).toNat →
    f = be32 s.ip.w0 ++ be32 s.ip.w1 ++ be32 (s.ip.w2 &&& 0xFFFF0000) ++ be32 s.ip.w3 ++ be32 s.ip.w4 ++ memRead s a n →
    c = internetChecksum (f.take (4 * ihl)) →
    ((s.cfg.pramSize < a + n ∨ s.cfg.pramSize < d + 20 + n) → exec .ipenc s = .next (completedWith 0x02 s)) ∧
    (a + n ≤ s.cfg.pramSize → d + 20 + n ≤ s.cfg.pramSize →
      ((0 < n ∧ a < d + 20 + n ∧ d < a + n) → exec .ipenc s = .next (completedWith 0x03 s)) ∧
      (¬ (0 < n ∧ a < d + 20 + n ∧ d < a + n) →
        (ihl < 5 → exec .ipenc s = .next (completedWith 0x05 s)) ∧
        (5 ≤ ihl → n < 4 * ihl - 20 → exec .ipenc s = .next (completedWith 0x06 s)) ∧
        (5 ≤ ihl → 4 * ihl - 20 ≤ n → (ipTotlen s.ip).toNat ≠ 20 + n →
          exec .ipenc s = .next (completedWith 0x07 s)) ∧
        (5 ≤ ihl → 4 * ihl - 20 ≤ n → (ipTotlen s.ip).toNat = 20 + n →
          exec .ipenc s = .next (completedWith 0x00
            { memWrite s d (f.take 10 ++ be16 c ++ f.drop 12) with
              resultLen := BitVec.ofNat 18 (20 + n)
              cksum := c }))))

/-- R93: TCPDEC, its encoding, its result and its errors in order. -/
def Obligations.TcpdecResult : Prop :=
  decode 0x00000020 = .ok .tcpdec ∧
  ∀ (s : State) (a n doff : Nat) (b : List Byte),
    a = s.srcAddr.toNat → n = s.srcLen.toNat → b = memRead s a n → doff = (readByte s (a + 12)).toNat / 16 →
    (s.cfg.pramSize < a + n → exec .tcpdec s = .next (completedWith 0x02 s)) ∧
    (a + n ≤ s.cfg.pramSize → (n < 20 ∨ doff < 5 ∨ n < 4 * doff) → exec .tcpdec s = .next (completedWith 0x04 s)) ∧
    (a + n ≤ s.cfg.pramSize → 20 ≤ n → 5 ≤ doff → 4 * doff ≤ n → 65535 < n →
      exec .tcpdec s = .next (completedWith 0x08 s)) ∧
    (a + n ≤ s.cfg.pramSize → 20 ≤ n → 5 ≤ doff → 4 * doff ≤ n → n ≤ 65535 →
      exec .tcpdec s = .next (completedWith 0x00
        { s with
          tcp := { w0 := rd32 b 0, w1 := rd32 b 4, w2 := rd32 b 8, w3 := rd32 b 12, w4 := rd32 b 16 }
          optOff := BitVec.ofNat 18 (a + 20)
          optLen := BitVec.ofNat 18 (4 * doff - 20)
          pldOff := BitVec.ofNat 18 (a + 4 * doff)
          pldLen := BitVec.ofNat 18 (n - 4 * doff)
          status := { s.status with pld := decide (n - 4 * doff ≠ 0) }
          cksum := internetChecksum
            (be32 s.ip.w3 ++ be32 s.ip.w4 ++ [0x00, 0x06] ++ be16 (BitVec.ofNat 16 n) ++ b) }))

/-- R95: TCPENC, its encoding, its result and its errors in order. -/
def Obligations.TcpencResult : Prop :=
  decode 0x00000021 = .ok .tcpenc ∧
  ∀ (s : State) (a n d doff : Nat) (g : List Byte) (c : Half),
    a = s.srcAddr.toNat → n = s.srcLen.toNat → d = s.dstAddr.toNat → doff = (tcpDoff s.tcp).toNat →
    g = be32 s.tcp.w0 ++ be32 s.tcp.w1 ++ be32 s.tcp.w2 ++ be32 s.tcp.w3 ++ be32 (s.tcp.w4 &&& 0x0000FFFF)
      ++ memRead s a n →
    c = internetChecksum
      (be32 s.ip.w3 ++ be32 s.ip.w4 ++ [0x00, 0x06] ++ be16 (BitVec.ofNat 16 (20 + n)) ++ g) →
    ((s.cfg.pramSize < a + n ∨ s.cfg.pramSize < d + 20 + n) → exec .tcpenc s = .next (completedWith 0x02 s)) ∧
    (a + n ≤ s.cfg.pramSize → d + 20 + n ≤ s.cfg.pramSize →
      ((0 < n ∧ a < d + 20 + n ∧ d < a + n) → exec .tcpenc s = .next (completedWith 0x03 s)) ∧
      (¬ (0 < n ∧ a < d + 20 + n ∧ d < a + n) →
        (doff < 5 → exec .tcpenc s = .next (completedWith 0x05 s)) ∧
        (5 ≤ doff → n < 4 * doff - 20 → exec .tcpenc s = .next (completedWith 0x06 s)) ∧
        (5 ≤ doff → 4 * doff - 20 ≤ n → 65535 < 20 + n → exec .tcpenc s = .next (completedWith 0x08 s)) ∧
        (5 ≤ doff → 4 * doff - 20 ≤ n → 20 + n ≤ 65535 →
          exec .tcpenc s = .next (completedWith 0x00
            { memWrite s d (g.take 16 ++ be16 c ++ g.drop 18) with
              resultLen := BitVec.ofNat 18 (20 + n)
              cksum := c }))))

/-- R96, R97: FSET and FCLR, their encodings and results: they write exactly the bit 16 + i of TCP_W3; an index above 8
raises BAD_FLAG_INDEX. -/
def Obligations.FlagSetAndClearResults : Prop :=
  (∀ i : BitVec 4, decode (0x00000028 ||| (i.setWidth 32 <<< 8)) = .ok (.fset i.toNat) ∧
    decode (0x00000029 ||| (i.setWidth 32 <<< 8)) = .ok (.fclr i.toNat)) ∧
  ∀ (s : State) (i : Nat),
    (i ≤ 8 →
      (∃ w : Word, exec (.fset i) s = .next (completedWith 0x00 { s with tcp := { s.tcp with w3 := w } }) ∧
        ∀ j, w.getLsbD j = (j == 16 + i || s.tcp.w3.getLsbD j)) ∧
      (∃ w : Word, exec (.fclr i) s = .next (completedWith 0x00 { s with tcp := { s.tcp with w3 := w } }) ∧
        ∀ j, w.getLsbD j = (!(j == 16 + i) && s.tcp.w3.getLsbD j))) ∧
    (8 < i → exec (.fset i) s = .next (completedWith 0x0A s) ∧ exec (.fclr i) s = .next (completedWith 0x0A s))

/-- R98: FTEST, its encoding and result: it copies bit 16 + i of TCP_W3 to STATUS.TEST; an index above 8 raises
BAD_FLAG_INDEX. -/
def Obligations.FlagTestResult : Prop :=
  (∀ i : BitVec 4, decode (0x0000002A ||| (i.setWidth 32 <<< 8)) = .ok (.ftest i.toNat)) ∧
  ∀ (s : State) (i : Nat),
    (i ≤ 8 → exec (.ftest i) s =
      .next (completedWith 0x00 { s with status := { s.status with test := s.tcp.w3.getLsbD (16 + i) } })) ∧
    (8 < i → exec (.ftest i) s = .next (completedWith 0x0A s))

/-- R102, R104: ATON and its encoding. It accepts exactly the texts of R102's grammar with components up to 255, all of 7
to 15 bytes, and writes the address whose most significant component is the first. -/
def Obligations.AtonResult : Prop :=
  decode 0x00000030 = .ok .aton ∧
  (∀ text c0 c1 c2 c3, IsQuad text c0 c1 c2 c3 → 7 ≤ text.length ∧ text.length ≤ 15) ∧
  ∀ (s : State) (text : List Byte), text = memRead s s.srcAddr.toNat s.srcLen.toNat →
    (s.cfg.pramSize < s.srcAddr.toNat + s.srcLen.toNat → exec .aton s = .next (completedWith 0x02 s)) ∧
    (s.srcAddr.toNat + s.srcLen.toNat ≤ s.cfg.pramSize →
      (∀ c0 c1 c2 c3, IsQuad text c0 c1 c2 c3 → c0 ≤ 255 → c1 ≤ 255 → c2 ≤ 255 → c3 ≤ 255 →
        exec .aton s = .next (completedWith 0x00
          { s with addrVal := BitVec.ofNat 32 (c0 * 2 ^ 24 + c1 * 2 ^ 16 + c2 * 2 ^ 8 + c3) })) ∧
      ((¬ ∃ c0 c1 c2 c3, IsQuad text c0 c1 c2 c3 ∧ c0 ≤ 255 ∧ c1 ≤ 255 ∧ c2 ≤ 255 ∧ c3 ≤ 255) →
        exec .aton s = .next (completedWith 0x09 s)))

/-- R105: NTOA, its encoding and its result. It stores the text of ADDR_VAL at DST_ADDR and its length in RESULT_LEN, or raises RANGE when that text does
not fit. -/
def Obligations.NtoaResult : Prop :=
  decode 0x00000031 = .ok .ntoa ∧
  ∀ (s : State) (text : List Byte), text = quadText s.addrVal →
    (s.dstAddr.toNat + text.length ≤ s.cfg.pramSize →
      exec .ntoa s = .next (completedWith 0x00
        { memWrite s s.dstAddr.toNat text with resultLen := BitVec.ofNat 18 text.length })) ∧
    (s.cfg.pramSize < s.dstAddr.toNat + text.length → exec .ntoa s = .next (completedWith 0x02 s))

/-- R103: the text NTOA writes: four shortest decimal spellings with dots between, most significant byte first, of 7 to 15
bytes. -/
def Obligations.DottedQuadText : Prop :=
  ∀ v : Word, ∃ p0 p1 p2 p3 : List Byte,
    quadText v = p0 ++ [0x2E] ++ p1 ++ [0x2E] ++ p2 ++ [0x2E] ++ p3 ∧
    IsComponent p0 (v.toNat / 2 ^ 24) ∧ IsComponent p1 (v.toNat / 2 ^ 16 % 256) ∧
    IsComponent p2 (v.toNat / 2 ^ 8 % 256) ∧ IsComponent p3 (v.toNat % 256) ∧
    ¬ LeadingZero p0 ∧ ¬ LeadingZero p1 ∧ ¬ LeadingZero p2 ∧ ¬ LeadingZero p3 ∧
    7 ≤ (quadText v).length ∧ (quadText v).length ≤ 15

/-! ## Wire formats (30_encoding.md R75–R78) -/

/-- R75, R76: the fields IPDEC leaves in IP_W0..IP_W4 are the frame's bits, at the byte offsets of the wire format. -/
def Obligations.Ipv4WireFields : Prop :=
  ∀ (s t : State) (b : Nat → Byte), exec .ipdec s = .next t → t.errcode = 0 →
    (∀ k, b k = readByte s (s.srcAddr.toNat + k)) →
    ipVer t.ip = (b 0).extractLsb' 4 4 ∧ ipIhl t.ip = (b 0).extractLsb' 0 4 ∧
    ipDscp t.ip = (b 1).extractLsb' 2 6 ∧ ipEcn t.ip = (b 1).extractLsb' 0 2 ∧
    ipTotlen t.ip = b 2 ++ b 3 ∧ ipIdent t.ip = b 4 ++ b 5 ∧
    ipFlags t.ip = (b 6).extractLsb' 5 3 ∧ ipFragoff t.ip = (b 6).extractLsb' 0 5 ++ b 7 ∧
    ipTtl t.ip = b 8 ∧ ipProto t.ip = b 9 ∧ ipHcsum t.ip = b 10 ++ b 11 ∧
    ipSaddr t.ip = b 12 ++ b 13 ++ b 14 ++ b 15 ∧ ipDaddr t.ip = b 16 ++ b 17 ++ b 18 ++ b 19

/-- R77, R78: the fields TCPDEC leaves in TCP_W0..TCP_W4 are the segment's bits, and flag index i is bit i of the flags. -/
def Obligations.TcpWireFields : Prop :=
  ∀ (s t : State) (b : Nat → Byte), exec .tcpdec s = .next t → t.errcode = 0 →
    (∀ k, b k = readByte s (s.srcAddr.toNat + k)) →
    tcpSport t.tcp = b 0 ++ b 1 ∧ tcpDport t.tcp = b 2 ++ b 3 ∧
    tcpSeq t.tcp = b 4 ++ b 5 ++ b 6 ++ b 7 ∧ tcpAcknum t.tcp = b 8 ++ b 9 ++ b 10 ++ b 11 ∧
    tcpDoff t.tcp = (b 12).extractLsb' 4 4 ∧ tcpFlags t.tcp = (b 12).extractLsb' 0 4 ++ b 13 ∧
    tcpFrsv t.tcp = (b 12).extractLsb' 1 3 ∧
    (∀ i, i < 8 → flagBit t.tcp.w3 i = (b 13).getLsbD i) ∧ flagBit t.tcp.w3 8 = (b 12).getLsbD 0 ∧
    tcpWindow t.tcp = b 14 ++ b 15 ∧ tcpTcsum t.tcp = b 16 ++ b 17 ∧ tcpUrgptr t.tcp = b 18 ++ b 19

/-- R75, R76, R89: the bytes IPENC writes, field by field, then the source region unchanged. -/
def Obligations.Ipv4FrameBytes : Prop :=
  ∀ (s t : State) (b : Nat → Byte), exec .ipenc s = .next t → t.errcode = 0 →
    (∀ k, b k = readByte t (s.dstAddr.toNat + k)) →
    b 0 = ipVer s.ip ++ ipIhl s.ip ∧ b 1 = ipDscp s.ip ++ ipEcn s.ip ∧ b 2 ++ b 3 = ipTotlen s.ip ∧
    b 4 ++ b 5 = ipIdent s.ip ∧ b 6 ++ b 7 = ipFlags s.ip ++ ipFragoff s.ip ∧ b 8 = ipTtl s.ip ∧ b 9 = ipProto s.ip ∧
    b 10 ++ b 11 = t.cksum ∧ b 12 ++ b 13 ++ b 14 ++ b 15 = ipSaddr s.ip ∧
    b 16 ++ b 17 ++ b 18 ++ b 19 = ipDaddr s.ip ∧
    ∀ j, j < s.srcLen.toNat → b (20 + j) = readByte s (s.srcAddr.toNat + j)

/-- R77, R78, R95: the bytes TCPENC writes, field by field, then the source region unchanged. -/
def Obligations.TcpSegmentBytes : Prop :=
  ∀ (s t : State) (b : Nat → Byte), exec .tcpenc s = .next t → t.errcode = 0 →
    (∀ k, b k = readByte t (s.dstAddr.toNat + k)) →
    b 0 ++ b 1 = tcpSport s.tcp ∧ b 2 ++ b 3 = tcpDport s.tcp ∧
    b 4 ++ b 5 ++ b 6 ++ b 7 = tcpSeq s.tcp ∧ b 8 ++ b 9 ++ b 10 ++ b 11 = tcpAcknum s.tcp ∧
    b 12 ++ b 13 = tcpDoff s.tcp ++ tcpFlags s.tcp ∧ b 14 ++ b 15 = tcpWindow s.tcp ∧
    b 16 ++ b 17 = t.cksum ∧ b 18 ++ b 19 = tcpUrgptr s.tcp ∧
    ∀ j, j < s.srcLen.toNat → b (20 + j) = readByte s (s.srcAddr.toNat + j)

/-! ## Frames: what each command leaves unchanged (R72) -/

/-- R72: CKSUM and PCKSUM change CKSUM and the completion state alone. -/
def Obligations.ChecksumCommandsFrame : Prop :=
  ∀ (s t : State), exec .cksum s = .next t ∨ exec .pcksum s = .next t →
    (∀ r, r ∉ [Reg.cksum, .status, .errcode] → readReg t r = readReg s r) ∧
    t.status.test = s.status.test ∧ t.status.pld = s.status.pld ∧
    t.status.accBusy = s.status.accBusy ∧ t.status.busErr = s.status.busErr ∧
    (∀ a, readByte t a = readByte s a) ∧ t.cfg = s.cfg ∧ t.host = s.host

/-- R72: FSET and FCLR change TCP_W3, FTEST changes STATUS.TEST, ATON changes ADDR_VAL, each with the completion state and
nothing else. -/
def Obligations.FlagAndAddressCommandsFrame : Prop :=
  ∀ (s t : State) (i : Nat),
    (exec (.fset i) s = .next t ∨ exec (.fclr i) s = .next t →
      (∀ r, r ∉ [Reg.tcpW3, .status, .errcode] → readReg t r = readReg s r) ∧ t.status.test = s.status.test) ∧
    (exec (.ftest i) s = .next t → ∀ r, r ∉ [Reg.status, .errcode] → readReg t r = readReg s r) ∧
    (exec .aton s = .next t →
      (∀ r, r ∉ [Reg.addrVal, .status, .errcode] → readReg t r = readReg s r) ∧ t.status.test = s.status.test) ∧
    (exec (.fset i) s = .next t ∨ exec (.fclr i) s = .next t ∨ exec (.ftest i) s = .next t ∨ exec .aton s = .next t →
      t.status.pld = s.status.pld ∧ t.status.accBusy = s.status.accBusy ∧ t.status.busErr = s.status.busErr ∧
      (∀ a, readByte t a = readByte s a) ∧ t.cfg = s.cfg ∧ t.host = s.host)

/-- R72: the decoders change their header registers, the decode result registers, CKSUM, STATUS.PLD and the completion
state, and no byte of PRAM. -/
def Obligations.DecodersFrame : Prop :=
  ∀ (s t : State),
    (exec .ipdec s = .next t →
      ∀ r, r ∉ [Reg.ipW0, .ipW1, .ipW2, .ipW3, .ipW4, .optOff, .optLen, .pldOff, .pldLen, .cksum, .status, .errcode] →
        readReg t r = readReg s r) ∧
    (exec .tcpdec s = .next t →
      ∀ r, r ∉ [Reg.tcpW0, .tcpW1, .tcpW2, .tcpW3, .tcpW4, .optOff, .optLen, .pldOff, .pldLen, .cksum, .status,
          .errcode] →
        readReg t r = readReg s r) ∧
    (exec .ipdec s = .next t ∨ exec .tcpdec s = .next t →
      t.status.test = s.status.test ∧ t.status.accBusy = s.status.accBusy ∧ t.status.busErr = s.status.busErr ∧
      (∀ a, readByte t a = readByte s a) ∧ t.cfg = s.cfg ∧ t.host = s.host)

/-- R72: the encoders change RESULT_LEN, CKSUM and the completion state, and the PRAM bytes
DST_ADDR .. DST_ADDR+20+SRC_LEN−1 alone. -/
def Obligations.EncodersFrame : Prop :=
  ∀ (s t : State), exec .ipenc s = .next t ∨ exec .tcpenc s = .next t →
    (∀ r, r ∉ [Reg.resultLen, .cksum, .status, .errcode] → readReg t r = readReg s r) ∧
    t.status.test = s.status.test ∧ t.status.pld = s.status.pld ∧
    t.status.accBusy = s.status.accBusy ∧ t.status.busErr = s.status.busErr ∧
    (∀ a, a < s.dstAddr.toNat ∨ s.dstAddr.toNat + (20 + s.srcLen.toNat) ≤ a → readByte t a = readByte s a) ∧
    t.cfg = s.cfg ∧ t.host = s.host

/-- R72, R105: NTOA changes RESULT_LEN and the completion state, and the bytes of its text at DST_ADDR alone. -/
def Obligations.NtoaFrame : Prop :=
  ∀ (s t : State), exec .ntoa s = .next t →
    (∀ r, r ∉ [Reg.resultLen, .status, .errcode] → readReg t r = readReg s r) ∧
    t.status.test = s.status.test ∧ t.status.pld = s.status.pld ∧
    t.status.accBusy = s.status.accBusy ∧ t.status.busErr = s.status.busErr ∧
    (∀ a, a < s.dstAddr.toNat ∨ s.dstAddr.toNat + (quadText s.addrVal).length ≤ a → readByte t a = readByte s a) ∧
    t.cfg = s.cfg ∧ t.host = s.host

/-- R72: no command reads a register or PRAM byte that is not in its row. Two states that agree on the row's operands get
the same code, and on success the same results. -/
def Obligations.CommandsReadOnlyTheirOperands : Prop :=
  ∀ (i : Instr) (s s' t t' : State), s.cfg.pramSize = s'.cfg.pramSize →
    (∀ r ∈ commandReads i, readReg s r = readReg s' r) →
    (readsSource i = true → ∀ a, s.srcAddr.toNat ≤ a → a < s.srcAddr.toNat + s.srcLen.toNat →
      readByte s a = readByte s' a) →
    exec i s = .next t → exec i s' = .next t' →
    t.errcode = t'.errcode ∧
    (t.errcode = 0 →
      (∀ r ∈ commandWrites i, readReg t r = readReg t' r) ∧
      (writesPld i = true → t.status.pld = t'.status.pld) ∧
      (writesTest i = true → t.status.test = t'.status.test) ∧
      (∀ a, s.dstAddr.toNat ≤ a → a < s.dstAddr.toNat + storedLen i s → readByte t a = readByte t' a))

/-! ## Laws of the checksum (40_checksum.md R81–R84) -/

/-- R82 items 1, 2: the checksum is the complement of the one value in 1..0xFFFF congruent to the word sum modulo 0xFFFF;
it is 0xFFFF exactly when every byte is 0. -/
def Obligations.ChecksumValue : Prop :=
  ∀ s : List Byte,
    (internetChecksum s = 0xFFFF ↔ ∀ b ∈ s, b = 0) ∧
    ((∃ b ∈ s, b ≠ 0) → ∃ f : Nat, 1 ≤ f ∧ f ≤ 0xFFFF ∧ f % 0xFFFF = wordSum s % 0xFFFF ∧
      (internetChecksum s).toNat = 0xFFFF - f)

/-- R81: the word sum over whole words, an odd trailing byte being a high byte; and R82 item 5: a zero byte appended does
not change the checksum. -/
def Obligations.ChecksumPadding : Prop :=
  ∀ s : List Byte,
    wordSum s = ((List.range ((s.length + 1) / 2)).map fun k =>
      (s.getD (2 * k) 0).toNat * 256 + (s.getD (2 * k + 1) 0).toNat).sum ∧
    internetChecksum (s ++ [0]) = internetChecksum s

/-- R82 item 3: adding the words one at a time with end-around carry gives the same checksum. -/
def Obligations.ChecksumIncremental : Prop :=
  ∀ ws : List Half,
    internetChecksum (ws.flatMap be16) =
      ~~~ BitVec.ofNat 16 (ws.foldl
        (fun acc w => if acc + w.toNat > 0xFFFF then acc + w.toNat - 0xFFFF else acc + w.toNat) 0)

/-- R84: patching the checksum into two zero bytes at an even offset makes the checksum 0. -/
def Obligations.ChecksumVerification : Prop :=
  ∀ (t : List Byte) (p : Nat) (c : Half), p % 2 = 0 → p + 1 < t.length → t.getD p 0 = 0 → t.getD (p + 1) 0 = 0 →
    c = internetChecksum t →
    internetChecksum (t.take p ++ be16 c ++ t.drop (p + 2)) = 0

/-- R86: swapping IP_W3 and IP_W4 gives PCKSUM the same outcome. -/
def Obligations.PcksumAddressOrder : Prop :=
  ∀ s s' t t' : State, s' = { s with ip := { s.ip with w3 := s.ip.w4, w4 := s.ip.w3 } } →
    exec .pcksum s = .next t → exec .pcksum s' = .next t' → t'.cksum = t.cksum ∧ t'.errcode = t.errcode

/-! ## Laws that join commands -/

/-- R91: IPDEC of the frame IPENC wrote gives the header registers back, HCSUM replaced by the checksum computed, with the
options and payload equal to the source region and a checksum of 0. -/
def Obligations.Ipv4RoundTrip : Prop :=
  ∀ s t u : State, s.cfg.legal = true → exec .ipenc s = .next t → t.errcode = 0 →
    u.cfg = s.cfg → u.srcAddr.toNat = s.dstAddr.toNat → u.srcLen.toNat = 20 + s.srcLen.toNat →
    (∀ a, readByte u a = readByte t a) →
    ∃ v, exec .ipdec u = .next v ∧ v.errcode = 0 ∧
      v.ip.w0 = s.ip.w0 ∧ v.ip.w1 = s.ip.w1 ∧ v.ip.w3 = s.ip.w3 ∧ v.ip.w4 = s.ip.w4 ∧
      v.ip.w2.extractLsb' 16 16 = s.ip.w2.extractLsb' 16 16 ∧ v.ip.w2.extractLsb' 0 16 = t.cksum ∧
      v.optOff.toNat = s.dstAddr.toNat + 20 ∧ v.optLen.toNat = 4 * (ipIhl s.ip).toNat - 20 ∧
      v.pldOff.toNat = s.dstAddr.toNat + 4 * (ipIhl s.ip).toNat ∧
      v.pldLen.toNat = s.srcLen.toNat - (4 * (ipIhl s.ip).toNat - 20) ∧
      memRead v v.optOff.toNat v.optLen.toNat ++ memRead v v.pldOff.toNat v.pldLen.toNat
        = memRead s s.srcAddr.toNat s.srcLen.toNat ∧
      v.cksum = 0

/-- R92: after IPENC, CKSUM over the header and its options gives 0; the checksum bytes sit at offset 10. -/
def Obligations.Ipv4Verifies : Prop :=
  ∀ s t u : State, s.cfg.legal = true → exec .ipenc s = .next t → t.errcode = 0 →
    u.cfg = s.cfg → u.srcAddr.toNat = s.dstAddr.toNat → u.srcLen.toNat = 4 * (ipIhl s.ip).toNat →
    (∀ a, readByte u a = readByte t a) →
    (∃ v, exec .cksum u = .next v ∧ v.errcode = 0 ∧ v.cksum = 0) ∧
    readByte t (s.dstAddr.toNat + 10) ++ readByte t (s.dstAddr.toNat + 11) = t.cksum

/-- R100: TCPDEC of the segment TCPENC wrote, with the same IP_W3 and IP_W4, gives the header registers back, TCSUM
replaced by the checksum computed, with the options and payload equal to the source region and a checksum of 0. -/
def Obligations.TcpRoundTrip : Prop :=
  ∀ s t u : State, s.cfg.legal = true → exec .tcpenc s = .next t → t.errcode = 0 →
    u.cfg = s.cfg → u.srcAddr.toNat = s.dstAddr.toNat → u.srcLen.toNat = 20 + s.srcLen.toNat →
    u.ip.w3 = s.ip.w3 → u.ip.w4 = s.ip.w4 → (∀ a, readByte u a = readByte t a) →
    ∃ v, exec .tcpdec u = .next v ∧ v.errcode = 0 ∧
      v.tcp.w0 = s.tcp.w0 ∧ v.tcp.w1 = s.tcp.w1 ∧ v.tcp.w2 = s.tcp.w2 ∧ v.tcp.w3 = s.tcp.w3 ∧
      v.tcp.w4.extractLsb' 16 16 = t.cksum ∧ v.tcp.w4.extractLsb' 0 16 = s.tcp.w4.extractLsb' 0 16 ∧
      v.optLen.toNat = 4 * (tcpDoff s.tcp).toNat - 20 ∧
      v.pldLen.toNat = s.srcLen.toNat - (4 * (tcpDoff s.tcp).toNat - 20) ∧
      memRead v v.optOff.toNat v.optLen.toNat ++ memRead v v.pldOff.toNat v.pldLen.toNat
        = memRead s s.srcAddr.toNat s.srcLen.toNat ∧
      v.cksum = 0

/-- R101: after TCPENC, PCKSUM over the segment written, with the same IP_W3 and IP_W4, gives 0. -/
def Obligations.TcpVerifies : Prop :=
  ∀ s t u : State, s.cfg.legal = true → exec .tcpenc s = .next t → t.errcode = 0 →
    u.cfg = s.cfg → u.srcAddr.toNat = s.dstAddr.toNat → u.srcLen = t.resultLen →
    u.ip.w3 = s.ip.w3 → u.ip.w4 = s.ip.w4 → (∀ a, readByte u a = readByte t a) →
    ∃ v, exec .pcksum u = .next v ∧ v.errcode = 0 ∧ v.cksum = 0

/-- R99: set then test reports 1, clear then test reports 0, and every bit of TCP_W3 but the flag's keeps its value. -/
def Obligations.FlagLaws : Prop :=
  ∀ (i : Nat) (s t : State), i ≤ 8 →
    (exec (.fset i) s = .next t →
      (∃ u, exec (.ftest i) t = .next u ∧ u.status.test = true) ∧
      ∀ j, j ≠ 16 + i → t.tcp.w3.getLsbD j = s.tcp.w3.getLsbD j) ∧
    (exec (.fclr i) s = .next t →
      (∃ u, exec (.ftest i) t = .next u ∧ u.status.test = false) ∧
      ∀ j, j ≠ 16 + i → t.tcp.w3.getLsbD j = s.tcp.w3.getLsbD j)

/-- R106: ATON of the text NTOA wrote gives the address back; and NTOA of an accepted text's address writes that text
exactly when no component has a leading zero, else another spelling of the same four values, itself free of leading
zeros. -/
def Obligations.AddressRoundTrip : Prop :=
  (∀ s t u : State, s.cfg.legal = true → exec .ntoa s = .next t → t.errcode = 0 →
    u.cfg = s.cfg → u.srcAddr.toNat = s.dstAddr.toNat → u.srcLen = t.resultLen →
    (∀ a, readByte u a = readByte t a) →
    ∃ v, exec .aton u = .next v ∧ v.errcode = 0 ∧ v.addrVal = s.addrVal) ∧
  (∀ (p0 p1 p2 p3 : List Byte) (c0 c1 c2 c3 : Nat) (v : Word),
    IsComponent p0 c0 → IsComponent p1 c1 → IsComponent p2 c2 → IsComponent p3 c3 →
    c0 ≤ 255 → c1 ≤ 255 → c2 ≤ 255 → c3 ≤ 255 → v.toNat = c0 * 2 ^ 24 + c1 * 2 ^ 16 + c2 * 2 ^ 8 + c3 →
    (quadText v = p0 ++ [0x2E] ++ p1 ++ [0x2E] ++ p2 ++ [0x2E] ++ p3 ↔
      ¬ LeadingZero p0 ∧ ¬ LeadingZero p1 ∧ ¬ LeadingZero p2 ∧ ¬ LeadingZero p3) ∧
    IsQuad (quadText v) c0 c1 c2 c3)

/-! ## The invariant -/

/-- R8, R121: the power-on state of a legal build meets the invariant, and so does the model's reset state, which is the
power-on state of the build with R8's default PRAM_SIZE; that this build has TPC_BASE 0 is the model's choice (log
entry 1). -/
def Obligations.PowerOnMeetsInvariant : Prop :=
  (∀ c : Config, c.legal = true → Inv (State.powerOn c)) ∧
  Inv State.reset ∧ State.reset = State.powerOn { pramSize := 131072, tpcBase := 0 }

/-- R8, R24, R43, R46, R108, R110: every step keeps the invariant, from every state that meets it. -/
def Obligations.StepKeepsInvariant : Prop :=
  ∀ s t : State, Inv s → step s = .next t → Inv t
end

