-- ==== Sys2Proof/Laws/State.lean ====
section
/-! SUPPORT. One lemma per field per update of the state: what each named update leaves and what it writes. -/

namespace Sys2Proof.Machine

/-! ### complete -/

@[simp] theorem complete_cfg (e : ErrCode) (s : State) : (complete e s).cfg = s.cfg := rfl
@[simp] theorem complete_irqEn (e : ErrCode) (s : State) : (complete e s).irqEn = s.irqEn := rfl
@[simp] theorem complete_cmd (e : ErrCode) (s : State) : (complete e s).cmd = s.cmd := rfl
@[simp] theorem complete_busy (e : ErrCode) (s : State) : (complete e s).status.busy = false := rfl
@[simp] theorem complete_done (e : ErrCode) (s : State) : (complete e s).status.done = true := rfl
@[simp] theorem complete_err (e : ErrCode) (s : State) : (complete e s).status.err = decide (errorNumber e ≠ 0) := rfl
@[simp] theorem complete_test (e : ErrCode) (s : State) : (complete e s).status.test = s.status.test := rfl
@[simp] theorem complete_pld (e : ErrCode) (s : State) : (complete e s).status.pld = s.status.pld := rfl
@[simp] theorem complete_accBusy (e : ErrCode) (s : State) : (complete e s).status.accBusy = s.status.accBusy := rfl
@[simp] theorem complete_busErr (e : ErrCode) (s : State) : (complete e s).status.busErr = s.status.busErr := rfl
@[simp] theorem complete_errcode (e : ErrCode) (s : State) : (complete e s).errcode = errorNumber e := rfl
@[simp] theorem complete_srcAddr (e : ErrCode) (s : State) : (complete e s).srcAddr = s.srcAddr := rfl
@[simp] theorem complete_srcLen (e : ErrCode) (s : State) : (complete e s).srcLen = s.srcLen := rfl
@[simp] theorem complete_dstAddr (e : ErrCode) (s : State) : (complete e s).dstAddr = s.dstAddr := rfl
@[simp] theorem complete_resultLen (e : ErrCode) (s : State) : (complete e s).resultLen = s.resultLen := rfl
@[simp] theorem complete_cksum (e : ErrCode) (s : State) : (complete e s).cksum = s.cksum := rfl
@[simp] theorem complete_ip (e : ErrCode) (s : State) : (complete e s).ip = s.ip := rfl
@[simp] theorem complete_tcp (e : ErrCode) (s : State) : (complete e s).tcp = s.tcp := rfl
@[simp] theorem complete_addrVal (e : ErrCode) (s : State) : (complete e s).addrVal = s.addrVal := rfl
@[simp] theorem complete_optOff (e : ErrCode) (s : State) : (complete e s).optOff = s.optOff := rfl
@[simp] theorem complete_optLen (e : ErrCode) (s : State) : (complete e s).optLen = s.optLen := rfl
@[simp] theorem complete_pldOff (e : ErrCode) (s : State) : (complete e s).pldOff = s.pldOff := rfl
@[simp] theorem complete_pldLen (e : ErrCode) (s : State) : (complete e s).pldLen = s.pldLen := rfl
@[simp] theorem complete_pram (e : ErrCode) (s : State) : (complete e s).pram = s.pram := rfl
@[simp] theorem complete_host (e : ErrCode) (s : State) : (complete e s).host = s.host := rfl
@[simp] theorem complete_response (e : ErrCode) (s : State) : (complete e s).response = s.response := rfl
@[simp] theorem complete_engineWait (e : ErrCode) (s : State) : (complete e s).engineWait = 0 := rfl
@[simp] theorem complete_accepted (e : ErrCode) (s : State) : (complete e s).accepted = s.accepted := rfl
@[simp] theorem complete_drawCount (e : ErrCode) (s : State) : (complete e s).drawCount = s.drawCount := rfl

/-! ### setTest -/

@[simp] theorem setTest_cfg (s : State) (b : Bool) : (setTest s b).cfg = s.cfg := rfl
@[simp] theorem setTest_irqEn (s : State) (b : Bool) : (setTest s b).irqEn = s.irqEn := rfl
@[simp] theorem setTest_cmd (s : State) (b : Bool) : (setTest s b).cmd = s.cmd := rfl
@[simp] theorem setTest_busy (s : State) (b : Bool) : (setTest s b).status.busy = s.status.busy := rfl
@[simp] theorem setTest_done (s : State) (b : Bool) : (setTest s b).status.done = s.status.done := rfl
@[simp] theorem setTest_err (s : State) (b : Bool) : (setTest s b).status.err = s.status.err := rfl
@[simp] theorem setTest_test (s : State) (b : Bool) : (setTest s b).status.test = b := rfl
@[simp] theorem setTest_pld (s : State) (b : Bool) : (setTest s b).status.pld = s.status.pld := rfl
@[simp] theorem setTest_accBusy (s : State) (b : Bool) : (setTest s b).status.accBusy = s.status.accBusy := rfl
@[simp] theorem setTest_busErr (s : State) (b : Bool) : (setTest s b).status.busErr = s.status.busErr := rfl
@[simp] theorem setTest_errcode (s : State) (b : Bool) : (setTest s b).errcode = s.errcode := rfl
@[simp] theorem setTest_srcAddr (s : State) (b : Bool) : (setTest s b).srcAddr = s.srcAddr := rfl
@[simp] theorem setTest_srcLen (s : State) (b : Bool) : (setTest s b).srcLen = s.srcLen := rfl
@[simp] theorem setTest_dstAddr (s : State) (b : Bool) : (setTest s b).dstAddr = s.dstAddr := rfl
@[simp] theorem setTest_resultLen (s : State) (b : Bool) : (setTest s b).resultLen = s.resultLen := rfl
@[simp] theorem setTest_cksum (s : State) (b : Bool) : (setTest s b).cksum = s.cksum := rfl
@[simp] theorem setTest_ip (s : State) (b : Bool) : (setTest s b).ip = s.ip := rfl
@[simp] theorem setTest_tcp (s : State) (b : Bool) : (setTest s b).tcp = s.tcp := rfl
@[simp] theorem setTest_addrVal (s : State) (b : Bool) : (setTest s b).addrVal = s.addrVal := rfl
@[simp] theorem setTest_optOff (s : State) (b : Bool) : (setTest s b).optOff = s.optOff := rfl
@[simp] theorem setTest_optLen (s : State) (b : Bool) : (setTest s b).optLen = s.optLen := rfl
@[simp] theorem setTest_pldOff (s : State) (b : Bool) : (setTest s b).pldOff = s.pldOff := rfl
@[simp] theorem setTest_pldLen (s : State) (b : Bool) : (setTest s b).pldLen = s.pldLen := rfl
@[simp] theorem setTest_pram (s : State) (b : Bool) : (setTest s b).pram = s.pram := rfl
@[simp] theorem setTest_host (s : State) (b : Bool) : (setTest s b).host = s.host := rfl
@[simp] theorem setTest_response (s : State) (b : Bool) : (setTest s b).response = s.response := rfl
@[simp] theorem setTest_engineWait (s : State) (b : Bool) : (setTest s b).engineWait = s.engineWait := rfl
@[simp] theorem setTest_accepted (s : State) (b : Bool) : (setTest s b).accepted = s.accepted := rfl
@[simp] theorem setTest_drawCount (s : State) (b : Bool) : (setTest s b).drawCount = s.drawCount := rfl

/-! ### setPld -/

@[simp] theorem setPld_cfg (s : State) (b : Bool) : (setPld s b).cfg = s.cfg := rfl
@[simp] theorem setPld_irqEn (s : State) (b : Bool) : (setPld s b).irqEn = s.irqEn := rfl
@[simp] theorem setPld_cmd (s : State) (b : Bool) : (setPld s b).cmd = s.cmd := rfl
@[simp] theorem setPld_busy (s : State) (b : Bool) : (setPld s b).status.busy = s.status.busy := rfl
@[simp] theorem setPld_done (s : State) (b : Bool) : (setPld s b).status.done = s.status.done := rfl
@[simp] theorem setPld_err (s : State) (b : Bool) : (setPld s b).status.err = s.status.err := rfl
@[simp] theorem setPld_test (s : State) (b : Bool) : (setPld s b).status.test = s.status.test := rfl
@[simp] theorem setPld_pld (s : State) (b : Bool) : (setPld s b).status.pld = b := rfl
@[simp] theorem setPld_accBusy (s : State) (b : Bool) : (setPld s b).status.accBusy = s.status.accBusy := rfl
@[simp] theorem setPld_busErr (s : State) (b : Bool) : (setPld s b).status.busErr = s.status.busErr := rfl
@[simp] theorem setPld_errcode (s : State) (b : Bool) : (setPld s b).errcode = s.errcode := rfl
@[simp] theorem setPld_srcAddr (s : State) (b : Bool) : (setPld s b).srcAddr = s.srcAddr := rfl
@[simp] theorem setPld_srcLen (s : State) (b : Bool) : (setPld s b).srcLen = s.srcLen := rfl
@[simp] theorem setPld_dstAddr (s : State) (b : Bool) : (setPld s b).dstAddr = s.dstAddr := rfl
@[simp] theorem setPld_resultLen (s : State) (b : Bool) : (setPld s b).resultLen = s.resultLen := rfl
@[simp] theorem setPld_cksum (s : State) (b : Bool) : (setPld s b).cksum = s.cksum := rfl
@[simp] theorem setPld_ip (s : State) (b : Bool) : (setPld s b).ip = s.ip := rfl
@[simp] theorem setPld_tcp (s : State) (b : Bool) : (setPld s b).tcp = s.tcp := rfl
@[simp] theorem setPld_addrVal (s : State) (b : Bool) : (setPld s b).addrVal = s.addrVal := rfl
@[simp] theorem setPld_optOff (s : State) (b : Bool) : (setPld s b).optOff = s.optOff := rfl
@[simp] theorem setPld_optLen (s : State) (b : Bool) : (setPld s b).optLen = s.optLen := rfl
@[simp] theorem setPld_pldOff (s : State) (b : Bool) : (setPld s b).pldOff = s.pldOff := rfl
@[simp] theorem setPld_pldLen (s : State) (b : Bool) : (setPld s b).pldLen = s.pldLen := rfl
@[simp] theorem setPld_pram (s : State) (b : Bool) : (setPld s b).pram = s.pram := rfl
@[simp] theorem setPld_host (s : State) (b : Bool) : (setPld s b).host = s.host := rfl
@[simp] theorem setPld_response (s : State) (b : Bool) : (setPld s b).response = s.response := rfl
@[simp] theorem setPld_engineWait (s : State) (b : Bool) : (setPld s b).engineWait = s.engineWait := rfl
@[simp] theorem setPld_accepted (s : State) (b : Bool) : (setPld s b).accepted = s.accepted := rfl
@[simp] theorem setPld_drawCount (s : State) (b : Bool) : (setPld s b).drawCount = s.drawCount := rfl

/-! ### setAccBusy -/

@[simp] theorem setAccBusy_cfg (s : State) : (setAccBusy s).cfg = s.cfg := rfl
@[simp] theorem setAccBusy_irqEn (s : State) : (setAccBusy s).irqEn = s.irqEn := rfl
@[simp] theorem setAccBusy_cmd (s : State) : (setAccBusy s).cmd = s.cmd := rfl
@[simp] theorem setAccBusy_busy (s : State) : (setAccBusy s).status.busy = s.status.busy := rfl
@[simp] theorem setAccBusy_done (s : State) : (setAccBusy s).status.done = s.status.done := rfl
@[simp] theorem setAccBusy_err (s : State) : (setAccBusy s).status.err = s.status.err := rfl
@[simp] theorem setAccBusy_test (s : State) : (setAccBusy s).status.test = s.status.test := rfl
@[simp] theorem setAccBusy_pld (s : State) : (setAccBusy s).status.pld = s.status.pld := rfl
@[simp] theorem setAccBusy_accBusy (s : State) : (setAccBusy s).status.accBusy = true := rfl
@[simp] theorem setAccBusy_busErr (s : State) : (setAccBusy s).status.busErr = s.status.busErr := rfl
@[simp] theorem setAccBusy_errcode (s : State) : (setAccBusy s).errcode = s.errcode := rfl
@[simp] theorem setAccBusy_srcAddr (s : State) : (setAccBusy s).srcAddr = s.srcAddr := rfl
@[simp] theorem setAccBusy_srcLen (s : State) : (setAccBusy s).srcLen = s.srcLen := rfl
@[simp] theorem setAccBusy_dstAddr (s : State) : (setAccBusy s).dstAddr = s.dstAddr := rfl
@[simp] theorem setAccBusy_resultLen (s : State) : (setAccBusy s).resultLen = s.resultLen := rfl
@[simp] theorem setAccBusy_cksum (s : State) : (setAccBusy s).cksum = s.cksum := rfl
@[simp] theorem setAccBusy_ip (s : State) : (setAccBusy s).ip = s.ip := rfl
@[simp] theorem setAccBusy_tcp (s : State) : (setAccBusy s).tcp = s.tcp := rfl
@[simp] theorem setAccBusy_addrVal (s : State) : (setAccBusy s).addrVal = s.addrVal := rfl
@[simp] theorem setAccBusy_optOff (s : State) : (setAccBusy s).optOff = s.optOff := rfl
@[simp] theorem setAccBusy_optLen (s : State) : (setAccBusy s).optLen = s.optLen := rfl
@[simp] theorem setAccBusy_pldOff (s : State) : (setAccBusy s).pldOff = s.pldOff := rfl
@[simp] theorem setAccBusy_pldLen (s : State) : (setAccBusy s).pldLen = s.pldLen := rfl
@[simp] theorem setAccBusy_pram (s : State) : (setAccBusy s).pram = s.pram := rfl
@[simp] theorem setAccBusy_host (s : State) : (setAccBusy s).host = s.host := rfl
@[simp] theorem setAccBusy_response (s : State) : (setAccBusy s).response = s.response := rfl
@[simp] theorem setAccBusy_engineWait (s : State) : (setAccBusy s).engineWait = s.engineWait := rfl
@[simp] theorem setAccBusy_accepted (s : State) : (setAccBusy s).accepted = s.accepted := rfl
@[simp] theorem setAccBusy_drawCount (s : State) : (setAccBusy s).drawCount = s.drawCount := rfl

/-! ### setBusErr -/

@[simp] theorem setBusErr_cfg (s : State) : (setBusErr s).cfg = s.cfg := rfl
@[simp] theorem setBusErr_irqEn (s : State) : (setBusErr s).irqEn = s.irqEn := rfl
@[simp] theorem setBusErr_cmd (s : State) : (setBusErr s).cmd = s.cmd := rfl
@[simp] theorem setBusErr_busy (s : State) : (setBusErr s).status.busy = s.status.busy := rfl
@[simp] theorem setBusErr_done (s : State) : (setBusErr s).status.done = s.status.done := rfl
@[simp] theorem setBusErr_err (s : State) : (setBusErr s).status.err = s.status.err := rfl
@[simp] theorem setBusErr_test (s : State) : (setBusErr s).status.test = s.status.test := rfl
@[simp] theorem setBusErr_pld (s : State) : (setBusErr s).status.pld = s.status.pld := rfl
@[simp] theorem setBusErr_accBusy (s : State) : (setBusErr s).status.accBusy = s.status.accBusy := rfl
@[simp] theorem setBusErr_busErr (s : State) : (setBusErr s).status.busErr = true := rfl
@[simp] theorem setBusErr_errcode (s : State) : (setBusErr s).errcode = s.errcode := rfl
@[simp] theorem setBusErr_srcAddr (s : State) : (setBusErr s).srcAddr = s.srcAddr := rfl
@[simp] theorem setBusErr_srcLen (s : State) : (setBusErr s).srcLen = s.srcLen := rfl
@[simp] theorem setBusErr_dstAddr (s : State) : (setBusErr s).dstAddr = s.dstAddr := rfl
@[simp] theorem setBusErr_resultLen (s : State) : (setBusErr s).resultLen = s.resultLen := rfl
@[simp] theorem setBusErr_cksum (s : State) : (setBusErr s).cksum = s.cksum := rfl
@[simp] theorem setBusErr_ip (s : State) : (setBusErr s).ip = s.ip := rfl
@[simp] theorem setBusErr_tcp (s : State) : (setBusErr s).tcp = s.tcp := rfl
@[simp] theorem setBusErr_addrVal (s : State) : (setBusErr s).addrVal = s.addrVal := rfl
@[simp] theorem setBusErr_optOff (s : State) : (setBusErr s).optOff = s.optOff := rfl
@[simp] theorem setBusErr_optLen (s : State) : (setBusErr s).optLen = s.optLen := rfl
@[simp] theorem setBusErr_pldOff (s : State) : (setBusErr s).pldOff = s.pldOff := rfl
@[simp] theorem setBusErr_pldLen (s : State) : (setBusErr s).pldLen = s.pldLen := rfl
@[simp] theorem setBusErr_pram (s : State) : (setBusErr s).pram = s.pram := rfl
@[simp] theorem setBusErr_host (s : State) : (setBusErr s).host = s.host := rfl
@[simp] theorem setBusErr_response (s : State) : (setBusErr s).response = s.response := rfl
@[simp] theorem setBusErr_engineWait (s : State) : (setBusErr s).engineWait = s.engineWait := rfl
@[simp] theorem setBusErr_accepted (s : State) : (setBusErr s).accepted = s.accepted := rfl
@[simp] theorem setBusErr_drawCount (s : State) : (setBusErr s).drawCount = s.drawCount := rfl

/-! ### writeByte -/

@[simp] theorem writeByte_cfg (s : State) (a : Nat) (v : Byte) : (writeByte s a v).cfg = s.cfg := rfl
@[simp] theorem writeByte_irqEn (s : State) (a : Nat) (v : Byte) : (writeByte s a v).irqEn = s.irqEn := rfl
@[simp] theorem writeByte_cmd (s : State) (a : Nat) (v : Byte) : (writeByte s a v).cmd = s.cmd := rfl
@[simp] theorem writeByte_status (s : State) (a : Nat) (v : Byte) : (writeByte s a v).status = s.status := rfl
@[simp] theorem writeByte_errcode (s : State) (a : Nat) (v : Byte) : (writeByte s a v).errcode = s.errcode := rfl
@[simp] theorem writeByte_srcAddr (s : State) (a : Nat) (v : Byte) : (writeByte s a v).srcAddr = s.srcAddr := rfl
@[simp] theorem writeByte_srcLen (s : State) (a : Nat) (v : Byte) : (writeByte s a v).srcLen = s.srcLen := rfl
@[simp] theorem writeByte_dstAddr (s : State) (a : Nat) (v : Byte) : (writeByte s a v).dstAddr = s.dstAddr := rfl
@[simp] theorem writeByte_resultLen (s : State) (a : Nat) (v : Byte) : (writeByte s a v).resultLen = s.resultLen := rfl
@[simp] theorem writeByte_cksum (s : State) (a : Nat) (v : Byte) : (writeByte s a v).cksum = s.cksum := rfl
@[simp] theorem writeByte_ip (s : State) (a : Nat) (v : Byte) : (writeByte s a v).ip = s.ip := rfl
@[simp] theorem writeByte_tcp (s : State) (a : Nat) (v : Byte) : (writeByte s a v).tcp = s.tcp := rfl
@[simp] theorem writeByte_addrVal (s : State) (a : Nat) (v : Byte) : (writeByte s a v).addrVal = s.addrVal := rfl
@[simp] theorem writeByte_optOff (s : State) (a : Nat) (v : Byte) : (writeByte s a v).optOff = s.optOff := rfl
@[simp] theorem writeByte_optLen (s : State) (a : Nat) (v : Byte) : (writeByte s a v).optLen = s.optLen := rfl
@[simp] theorem writeByte_pldOff (s : State) (a : Nat) (v : Byte) : (writeByte s a v).pldOff = s.pldOff := rfl
@[simp] theorem writeByte_pldLen (s : State) (a : Nat) (v : Byte) : (writeByte s a v).pldLen = s.pldLen := rfl
@[simp] theorem writeByte_pram (s : State) (a : Nat) (v : Byte) : (writeByte s a v).pram = s.pram.insert a v := rfl
@[simp] theorem writeByte_host (s : State) (a : Nat) (v : Byte) : (writeByte s a v).host = s.host := rfl
@[simp] theorem writeByte_response (s : State) (a : Nat) (v : Byte) : (writeByte s a v).response = s.response := rfl
@[simp] theorem writeByte_engineWait (s : State) (a : Nat) (v : Byte) : (writeByte s a v).engineWait = s.engineWait := rfl
@[simp] theorem writeByte_accepted (s : State) (a : Nat) (v : Byte) : (writeByte s a v).accepted = s.accepted := rfl
@[simp] theorem writeByte_drawCount (s : State) (a : Nat) (v : Byte) : (writeByte s a v).drawCount = s.drawCount := rfl

/-! ### accept -/

@[simp] theorem accept_cfg (v : Word) (s : State) : (accept v s).cfg = s.cfg := rfl
@[simp] theorem accept_irqEn (v : Word) (s : State) : (accept v s).irqEn = s.irqEn := rfl
@[simp] theorem accept_cmd (v : Word) (s : State) : (accept v s).cmd = v := rfl
@[simp] theorem accept_busy (v : Word) (s : State) : (accept v s).status.busy = true := rfl
@[simp] theorem accept_done (v : Word) (s : State) : (accept v s).status.done = false := rfl
@[simp] theorem accept_err (v : Word) (s : State) : (accept v s).status.err = s.status.err := rfl
@[simp] theorem accept_test (v : Word) (s : State) : (accept v s).status.test = s.status.test := rfl
@[simp] theorem accept_pld (v : Word) (s : State) : (accept v s).status.pld = s.status.pld := rfl
@[simp] theorem accept_accBusy (v : Word) (s : State) : (accept v s).status.accBusy = s.status.accBusy := rfl
@[simp] theorem accept_busErr (v : Word) (s : State) : (accept v s).status.busErr = s.status.busErr := rfl
@[simp] theorem accept_errcode (v : Word) (s : State) : (accept v s).errcode = s.errcode := rfl
@[simp] theorem accept_srcAddr (v : Word) (s : State) : (accept v s).srcAddr = s.srcAddr := rfl
@[simp] theorem accept_srcLen (v : Word) (s : State) : (accept v s).srcLen = s.srcLen := rfl
@[simp] theorem accept_dstAddr (v : Word) (s : State) : (accept v s).dstAddr = s.dstAddr := rfl
@[simp] theorem accept_resultLen (v : Word) (s : State) : (accept v s).resultLen = s.resultLen := rfl
@[simp] theorem accept_cksum (v : Word) (s : State) : (accept v s).cksum = s.cksum := rfl
@[simp] theorem accept_ip (v : Word) (s : State) : (accept v s).ip = s.ip := rfl
@[simp] theorem accept_tcp (v : Word) (s : State) : (accept v s).tcp = s.tcp := rfl
@[simp] theorem accept_addrVal (v : Word) (s : State) : (accept v s).addrVal = s.addrVal := rfl
@[simp] theorem accept_optOff (v : Word) (s : State) : (accept v s).optOff = s.optOff := rfl
@[simp] theorem accept_optLen (v : Word) (s : State) : (accept v s).optLen = s.optLen := rfl
@[simp] theorem accept_pldOff (v : Word) (s : State) : (accept v s).pldOff = s.pldOff := rfl
@[simp] theorem accept_pldLen (v : Word) (s : State) : (accept v s).pldLen = s.pldLen := rfl
@[simp] theorem accept_pram (v : Word) (s : State) : (accept v s).pram = s.pram := rfl
@[simp] theorem accept_host (v : Word) (s : State) : (accept v s).host = s.host := rfl
@[simp] theorem accept_response (v : Word) (s : State) : (accept v s).response = s.response := rfl
@[simp] theorem accept_engineWait (v : Word) (s : State) : (accept v s).engineWait = Config.cmdLatency s.accepted := rfl
@[simp] theorem accept_accepted (v : Word) (s : State) : (accept v s).accepted = s.accepted + 1 := rfl
@[simp] theorem accept_drawCount (v : Word) (s : State) : (accept v s).drawCount = s.drawCount := rfl

/-! ### takeLine -/

@[simp] theorem takeLine_cfg (rest : List HostOp) (s : State) : (takeLine rest s).cfg = s.cfg := rfl
@[simp] theorem takeLine_irqEn (rest : List HostOp) (s : State) : (takeLine rest s).irqEn = s.irqEn := rfl
@[simp] theorem takeLine_cmd (rest : List HostOp) (s : State) : (takeLine rest s).cmd = s.cmd := rfl
@[simp] theorem takeLine_status (rest : List HostOp) (s : State) : (takeLine rest s).status = s.status := rfl
@[simp] theorem takeLine_errcode (rest : List HostOp) (s : State) : (takeLine rest s).errcode = s.errcode := rfl
@[simp] theorem takeLine_srcAddr (rest : List HostOp) (s : State) : (takeLine rest s).srcAddr = s.srcAddr := rfl
@[simp] theorem takeLine_srcLen (rest : List HostOp) (s : State) : (takeLine rest s).srcLen = s.srcLen := rfl
@[simp] theorem takeLine_dstAddr (rest : List HostOp) (s : State) : (takeLine rest s).dstAddr = s.dstAddr := rfl
@[simp] theorem takeLine_resultLen (rest : List HostOp) (s : State) : (takeLine rest s).resultLen = s.resultLen := rfl
@[simp] theorem takeLine_cksum (rest : List HostOp) (s : State) : (takeLine rest s).cksum = s.cksum := rfl
@[simp] theorem takeLine_ip (rest : List HostOp) (s : State) : (takeLine rest s).ip = s.ip := rfl
@[simp] theorem takeLine_tcp (rest : List HostOp) (s : State) : (takeLine rest s).tcp = s.tcp := rfl
@[simp] theorem takeLine_addrVal (rest : List HostOp) (s : State) : (takeLine rest s).addrVal = s.addrVal := rfl
@[simp] theorem takeLine_optOff (rest : List HostOp) (s : State) : (takeLine rest s).optOff = s.optOff := rfl
@[simp] theorem takeLine_optLen (rest : List HostOp) (s : State) : (takeLine rest s).optLen = s.optLen := rfl
@[simp] theorem takeLine_pldOff (rest : List HostOp) (s : State) : (takeLine rest s).pldOff = s.pldOff := rfl
@[simp] theorem takeLine_pldLen (rest : List HostOp) (s : State) : (takeLine rest s).pldLen = s.pldLen := rfl
@[simp] theorem takeLine_pram (rest : List HostOp) (s : State) : (takeLine rest s).pram = s.pram := rfl
@[simp] theorem takeLine_host (rest : List HostOp) (s : State) : (takeLine rest s).host = rest := rfl
@[simp] theorem takeLine_response (rest : List HostOp) (s : State) : (takeLine rest s).response = s.response := rfl
@[simp] theorem takeLine_engineWait (rest : List HostOp) (s : State) : (takeLine rest s).engineWait = s.engineWait - 1 := rfl
@[simp] theorem takeLine_accepted (rest : List HostOp) (s : State) : (takeLine rest s).accepted = s.accepted := rfl
@[simp] theorem takeLine_drawCount (rest : List HostOp) (s : State) : (takeLine rest s).drawCount = s.drawCount := rfl

/-! ### locate -/

@[simp] theorem locate_cfg (s : State) (w : Nat) : (locate s w).cfg = s.cfg := rfl
@[simp] theorem locate_irqEn (s : State) (w : Nat) : (locate s w).irqEn = s.irqEn := rfl
@[simp] theorem locate_cmd (s : State) (w : Nat) : (locate s w).cmd = s.cmd := rfl
@[simp] theorem locate_busy (s : State) (w : Nat) : (locate s w).status.busy = s.status.busy := rfl
@[simp] theorem locate_done (s : State) (w : Nat) : (locate s w).status.done = s.status.done := rfl
@[simp] theorem locate_err (s : State) (w : Nat) : (locate s w).status.err = s.status.err := rfl
@[simp] theorem locate_test (s : State) (w : Nat) : (locate s w).status.test = s.status.test := rfl
@[simp] theorem locate_pld (s : State) (w : Nat) : (locate s w).status.pld = decide (srcN s - 4 * w ≠ 0) := rfl
@[simp] theorem locate_accBusy (s : State) (w : Nat) : (locate s w).status.accBusy = s.status.accBusy := rfl
@[simp] theorem locate_busErr (s : State) (w : Nat) : (locate s w).status.busErr = s.status.busErr := rfl
@[simp] theorem locate_errcode (s : State) (w : Nat) : (locate s w).errcode = s.errcode := rfl
@[simp] theorem locate_srcAddr (s : State) (w : Nat) : (locate s w).srcAddr = s.srcAddr := rfl
@[simp] theorem locate_srcLen (s : State) (w : Nat) : (locate s w).srcLen = s.srcLen := rfl
@[simp] theorem locate_dstAddr (s : State) (w : Nat) : (locate s w).dstAddr = s.dstAddr := rfl
@[simp] theorem locate_resultLen (s : State) (w : Nat) : (locate s w).resultLen = s.resultLen := rfl
@[simp] theorem locate_cksum (s : State) (w : Nat) : (locate s w).cksum = s.cksum := rfl
@[simp] theorem locate_ip (s : State) (w : Nat) : (locate s w).ip = s.ip := rfl
@[simp] theorem locate_tcp (s : State) (w : Nat) : (locate s w).tcp = s.tcp := rfl
@[simp] theorem locate_addrVal (s : State) (w : Nat) : (locate s w).addrVal = s.addrVal := rfl
@[simp] theorem locate_optOff (s : State) (w : Nat) : (locate s w).optOff = BitVec.ofNat 18 (srcA s + fixedHeader) := rfl
@[simp] theorem locate_optLen (s : State) (w : Nat) : (locate s w).optLen = BitVec.ofNat 18 (4 * w - fixedHeader) := rfl
@[simp] theorem locate_pldOff (s : State) (w : Nat) : (locate s w).pldOff = BitVec.ofNat 18 (srcA s + 4 * w) := rfl
@[simp] theorem locate_pldLen (s : State) (w : Nat) : (locate s w).pldLen = BitVec.ofNat 18 (srcN s - 4 * w) := rfl
@[simp] theorem locate_pram (s : State) (w : Nat) : (locate s w).pram = s.pram := rfl
@[simp] theorem locate_host (s : State) (w : Nat) : (locate s w).host = s.host := rfl
@[simp] theorem locate_response (s : State) (w : Nat) : (locate s w).response = s.response := rfl
@[simp] theorem locate_engineWait (s : State) (w : Nat) : (locate s w).engineWait = s.engineWait := rfl
@[simp] theorem locate_accepted (s : State) (w : Nat) : (locate s w).accepted = s.accepted := rfl
@[simp] theorem locate_drawCount (s : State) (w : Nat) : (locate s w).drawCount = s.drawCount := rfl

/-! ### memWrite: PRAM alone changes -/

theorem memWrite_eq_with_pram (s : State) (a : Nat) (bs : List Byte) :
    memWrite s a bs = { s with pram := (memWrite s a bs).pram } := by
  induction bs generalizing s a with
  | nil => rfl
  | cons b bs ih =>
    rw [memWrite]
    conv => lhs; rw [ih]
    rfl

@[simp] theorem memWrite_cfg (s : State) (a : Nat) (bs : List Byte) : (memWrite s a bs).cfg = s.cfg := by
  rw [memWrite_eq_with_pram]
@[simp] theorem memWrite_irqEn (s : State) (a : Nat) (bs : List Byte) : (memWrite s a bs).irqEn = s.irqEn := by
  rw [memWrite_eq_with_pram]
@[simp] theorem memWrite_cmd (s : State) (a : Nat) (bs : List Byte) : (memWrite s a bs).cmd = s.cmd := by
  rw [memWrite_eq_with_pram]
@[simp] theorem memWrite_status (s : State) (a : Nat) (bs : List Byte) : (memWrite s a bs).status = s.status := by
  rw [memWrite_eq_with_pram]
@[simp] theorem memWrite_errcode (s : State) (a : Nat) (bs : List Byte) : (memWrite s a bs).errcode = s.errcode := by
  rw [memWrite_eq_with_pram]
@[simp] theorem memWrite_srcAddr (s : State) (a : Nat) (bs : List Byte) : (memWrite s a bs).srcAddr = s.srcAddr := by
  rw [memWrite_eq_with_pram]
@[simp] theorem memWrite_srcLen (s : State) (a : Nat) (bs : List Byte) : (memWrite s a bs).srcLen = s.srcLen := by
  rw [memWrite_eq_with_pram]
@[simp] theorem memWrite_dstAddr (s : State) (a : Nat) (bs : List Byte) : (memWrite s a bs).dstAddr = s.dstAddr := by
  rw [memWrite_eq_with_pram]
@[simp] theorem memWrite_resultLen (s : State) (a : Nat) (bs : List Byte) : (memWrite s a bs).resultLen = s.resultLen := by
  rw [memWrite_eq_with_pram]
@[simp] theorem memWrite_cksum (s : State) (a : Nat) (bs : List Byte) : (memWrite s a bs).cksum = s.cksum := by
  rw [memWrite_eq_with_pram]
@[simp] theorem memWrite_ip (s : State) (a : Nat) (bs : List Byte) : (memWrite s a bs).ip = s.ip := by
  rw [memWrite_eq_with_pram]
@[simp] theorem memWrite_tcp (s : State) (a : Nat) (bs : List Byte) : (memWrite s a bs).tcp = s.tcp := by
  rw [memWrite_eq_with_pram]
@[simp] theorem memWrite_addrVal (s : State) (a : Nat) (bs : List Byte) : (memWrite s a bs).addrVal = s.addrVal := by
  rw [memWrite_eq_with_pram]
@[simp] theorem memWrite_optOff (s : State) (a : Nat) (bs : List Byte) : (memWrite s a bs).optOff = s.optOff := by
  rw [memWrite_eq_with_pram]
@[simp] theorem memWrite_optLen (s : State) (a : Nat) (bs : List Byte) : (memWrite s a bs).optLen = s.optLen := by
  rw [memWrite_eq_with_pram]
@[simp] theorem memWrite_pldOff (s : State) (a : Nat) (bs : List Byte) : (memWrite s a bs).pldOff = s.pldOff := by
  rw [memWrite_eq_with_pram]
@[simp] theorem memWrite_pldLen (s : State) (a : Nat) (bs : List Byte) : (memWrite s a bs).pldLen = s.pldLen := by
  rw [memWrite_eq_with_pram]
@[simp] theorem memWrite_host (s : State) (a : Nat) (bs : List Byte) : (memWrite s a bs).host = s.host := by
  rw [memWrite_eq_with_pram]
@[simp] theorem memWrite_response (s : State) (a : Nat) (bs : List Byte) : (memWrite s a bs).response = s.response := by
  rw [memWrite_eq_with_pram]
@[simp] theorem memWrite_engineWait (s : State) (a : Nat) (bs : List Byte) : (memWrite s a bs).engineWait = s.engineWait := by
  rw [memWrite_eq_with_pram]
@[simp] theorem memWrite_accepted (s : State) (a : Nat) (bs : List Byte) : (memWrite s a bs).accepted = s.accepted := by
  rw [memWrite_eq_with_pram]
@[simp] theorem memWrite_drawCount (s : State) (a : Nat) (bs : List Byte) : (memWrite s a bs).drawCount = s.drawCount := by
  rw [memWrite_eq_with_pram]

end Sys2Proof.Machine
end

