-- ==== Sys2Proof/Laws/Bytes.lean ====
section
/-! SUPPORT. The laws of byte order and header words: `rd32` undoes `be32`, a header's bytes give its words back, and a
patched checksum is the header with its checksum field replaced. -/

namespace Sys2Proof.Machine

theorem wordOfBytes_extract (v : Word) :
    wordOfBytes (v.extractLsb' 24 8) (v.extractLsb' 16 8) (v.extractLsb' 8 8) (v.extractLsb' 0 8) = v := by
  apply BitVec.eq_of_getLsbD_eq
  intro i hi
  simp only [wordOfBytes, BitVec.getLsbD_or, BitVec.getLsbD_shiftLeft, BitVec.getLsbD_setWidth, BitVec.getLsbD_extractLsb']
  interval_cases i <;> simp

/-- `rd32(be32(v)) = v` (R11). -/
theorem rd32_be32_append (v : Word) (rest : List Byte) : rd32 (be32 v ++ rest) 0 = v := wordOfBytes_extract v

/-- The bytes of a word read big-endian, most significant first (R54). -/
theorem wordOfBytes_toNat (b0 b1 b2 b3 : Byte) :
    (wordOfBytes b0 b1 b2 b3).toNat = b0.toNat * 2 ^ 24 + b1.toNat * 2 ^ 16 + b2.toNat * 2 ^ 8 + b3.toNat := by
  have h : wordOfBytes b0 b1 b2 b3 = ((b0 ++ b1) ++ b2) ++ b3 := by
    apply BitVec.eq_of_getLsbD_eq
    intro i hi
    simp only [wordOfBytes, BitVec.getLsbD_or, BitVec.getLsbD_shiftLeft, BitVec.getLsbD_setWidth, BitVec.getLsbD_append]
    interval_cases i <;> simp
  rw [h]
  simp only [BitVec.toNat_append]
  have h3 := b3.isLt
  have h2 := b2.isLt
  have h1 := b1.isLt
  rw [← Nat.shiftLeft_add_eq_or_of_lt h3, ← Nat.shiftLeft_add_eq_or_of_lt h2, ← Nat.shiftLeft_add_eq_or_of_lt h1]
  simp only [Nat.shiftLeft_eq]
  omega

/-- The bytes of a word, put side by side. -/
theorem wordOfBytes_eq_append (b0 b1 b2 b3 : Byte) : wordOfBytes b0 b1 b2 b3 = b0 ++ b1 ++ b2 ++ b3 := by
  apply BitVec.eq_of_getLsbD_eq
  intro i hi
  simp only [wordOfBytes, BitVec.getLsbD_or, BitVec.getLsbD_shiftLeft, BitVec.getLsbD_setWidth, BitVec.getLsbD_append]
  interval_cases i <;> simp

theorem byteAt_append_left {f : List Byte} {k : Nat} (h : k < f.length) (g : List Byte) :
    byteAt (f ++ g) k = byteAt f k := by
  rw [byteAt, byteAt, List.getD_append _ _ _ _ h]

theorem byteAt_append_right (f g : List Byte) (k : Nat) : byteAt (f ++ g) (f.length + k) = byteAt g k := by
  rw [byteAt, byteAt, List.getD_append_right _ _ _ _ (by omega), Nat.add_sub_cancel_left]

@[simp] theorem be32_length (v : Word) : (be32 v).length = 4 := rfl

@[simp] theorem be16_length (v : Half) : (be16 v).length = 2 := rfl

@[simp] theorem headerBytes_length (h : HeaderRegs) : (headerBytes h).length = 20 := rfl

@[simp] theorem patch16_length (f : List Byte) (i : Nat) (c : Half) : (patch16 f i c).length = f.length := by
  simp [patch16]

/-- A patch replaces two bytes. -/
theorem patch16_eq {f : List Byte} {i : Nat} (h : i + 1 < f.length) (c : Half) :
    patch16 f i c = f.take i ++ be16 c ++ f.drop (i + 2) := by
  induction f generalizing i with
  | nil => simp at h
  | cons a f ih =>
    cases i with
    | zero =>
      cases f with
      | nil => simp at h
      | cons b f => rfl
    | succ i =>
      show a :: patch16 f i c = _
      rw [ih (by simpa using h)]
      rfl

/-- Decoding the bytes of a header gives its words back (R76, R78). -/
theorem headerOfBytes_headerBytes_append (h : HeaderRegs) (rest : List Byte) :
    headerOfBytes (headerBytes h ++ rest) = h := by
  show HeaderRegs.mk _ _ _ _ _ = h
  simp only [rd32, byteAt, headerBytes, be32, List.cons_append, List.nil_append, List.getD_cons_succ, List.getD_cons_zero,
    wordOfBytes_extract]

theorem extract_and_high (v : Word) :
    (v &&& 0xFFFF0000).extractLsb' 24 8 = v.extractLsb' 24 8 ∧ (v &&& 0xFFFF0000).extractLsb' 16 8 = v.extractLsb' 16 8
      ∧ (v &&& 0xFFFF0000).extractLsb' 8 8 = 0 ∧ (v &&& 0xFFFF0000).extractLsb' 0 8 = 0 := by
  refine ⟨?_, ?_, ?_, ?_⟩ <;> apply BitVec.eq_of_getLsbD_eq <;> intro i hi <;>
    simp only [BitVec.getLsbD_extractLsb', BitVec.getLsbD_and] <;> interval_cases i <;> simp

theorem extract_and_low (v : Word) :
    (v &&& 0x0000FFFF).extractLsb' 24 8 = 0 ∧ (v &&& 0x0000FFFF).extractLsb' 16 8 = 0
      ∧ (v &&& 0x0000FFFF).extractLsb' 8 8 = v.extractLsb' 8 8 ∧ (v &&& 0x0000FFFF).extractLsb' 0 8 = v.extractLsb' 0 8 := by
  refine ⟨?_, ?_, ?_, ?_⟩ <;> apply BitVec.eq_of_getLsbD_eq <;> intro i hi <;>
    simp only [BitVec.getLsbD_extractLsb', BitVec.getLsbD_and] <;> interval_cases i <;> simp

theorem extract_with_low (v : Word) (c : Half) :
    ((v &&& 0xFFFF0000) ||| c.setWidth 32).extractLsb' 24 8 = v.extractLsb' 24 8
      ∧ ((v &&& 0xFFFF0000) ||| c.setWidth 32).extractLsb' 16 8 = v.extractLsb' 16 8
      ∧ ((v &&& 0xFFFF0000) ||| c.setWidth 32).extractLsb' 8 8 = c.extractLsb' 8 8
      ∧ ((v &&& 0xFFFF0000) ||| c.setWidth 32).extractLsb' 0 8 = c.extractLsb' 0 8 := by
  refine ⟨?_, ?_, ?_, ?_⟩ <;> apply BitVec.eq_of_getLsbD_eq <;> intro i hi <;>
    simp only [BitVec.getLsbD_extractLsb', BitVec.getLsbD_and, BitVec.getLsbD_or, BitVec.getLsbD_setWidth] <;>
    interval_cases i <;> simp

theorem extract_with_high (v : Word) (c : Half) :
    ((c.setWidth 32 <<< 16) ||| (v &&& 0x0000FFFF)).extractLsb' 24 8 = c.extractLsb' 8 8
      ∧ ((c.setWidth 32 <<< 16) ||| (v &&& 0x0000FFFF)).extractLsb' 16 8 = c.extractLsb' 0 8
      ∧ ((c.setWidth 32 <<< 16) ||| (v &&& 0x0000FFFF)).extractLsb' 8 8 = v.extractLsb' 8 8
      ∧ ((c.setWidth 32 <<< 16) ||| (v &&& 0x0000FFFF)).extractLsb' 0 8 = v.extractLsb' 0 8 := by
  refine ⟨?_, ?_, ?_, ?_⟩ <;> apply BitVec.eq_of_getLsbD_eq <;> intro i hi <;>
    simp only [BitVec.getLsbD_extractLsb', BitVec.getLsbD_and, BitVec.getLsbD_or, BitVec.getLsbD_setWidth,
      BitVec.getLsbD_shiftLeft] <;>
    interval_cases i <;> simp

/-- Patching the IPv4 checksum bytes replaces HCSUM (R89, R91). -/
theorem patch_ip_header (h : HeaderRegs) (rest : List Byte) (c : Half) :
    patch16 (headerBytes (ipZeroChecksum h) ++ rest) 10 c = headerBytes (ipWithHcsum h c) ++ rest := by
  obtain ⟨h1, h2, h3, h4⟩ := extract_with_low h.w2 c
  obtain ⟨g1, g2, -, -⟩ := extract_and_high h.w2
  simp only [patch16, headerBytes, be32, ipZeroChecksum, ipWithHcsum, h1, h2, h3, h4, g1, g2, List.cons_append,
    List.nil_append, List.set_cons_succ, List.set_cons_zero, Nat.reduceAdd]

/-- Patching the TCP checksum bytes replaces TCSUM (R95, R100). -/
theorem patch_tcp_header (h : HeaderRegs) (rest : List Byte) (c : Half) :
    patch16 (headerBytes (tcpZeroChecksum h) ++ rest) 16 c = headerBytes (tcpWithTcsum h c) ++ rest := by
  obtain ⟨h1, h2, h3, h4⟩ := extract_with_high h.w4 c
  obtain ⟨-, -, g3, g4⟩ := extract_and_low h.w4
  simp only [patch16, headerBytes, be32, tcpZeroChecksum, tcpWithTcsum, h1, h2, h3, h4, g3, g4, List.cons_append,
    List.nil_append, List.set_cons_succ, List.set_cons_zero, Nat.reduceAdd]

/-- The checksum bytes of an unpatched IPv4 header are 0 (R89). -/
theorem ip_header_checksum_bytes_zero (h : HeaderRegs) (rest : List Byte) :
    byteAt (headerBytes (ipZeroChecksum h) ++ rest) 10 = 0 ∧ byteAt (headerBytes (ipZeroChecksum h) ++ rest) 11 = 0 := by
  obtain ⟨-, -, g3, g4⟩ := extract_and_high h.w2
  simp only [byteAt, headerBytes, be32, ipZeroChecksum, g3, g4, List.cons_append,
    List.nil_append, List.getD_cons_succ, List.getD_cons_zero, and_self]

/-- The checksum bytes of an unpatched TCP header are 0 (R95). -/
theorem tcp_header_checksum_bytes_zero (h : HeaderRegs) (rest : List Byte) :
    byteAt (headerBytes (tcpZeroChecksum h) ++ rest) 16 = 0 ∧ byteAt (headerBytes (tcpZeroChecksum h) ++ rest) 17 = 0 := by
  obtain ⟨g1, g2, -, -⟩ := extract_and_low h.w4
  simp only [byteAt, headerBytes, be32, tcpZeroChecksum, g1, g2, List.cons_append,
    List.nil_append, List.getD_cons_succ, List.getD_cons_zero, and_self]

/-- The header length a frame announces is IP_W0.IHL of its header (R76). -/
theorem byteAt_header_ihl (h : HeaderRegs) (rest : List Byte) :
    ((byteAt (headerBytes h ++ rest) 0).extractLsb' 0 4) = ipIhl h := by
  show (h.w0.extractLsb' 24 8).extractLsb' 0 4 = h.w0.extractLsb' 24 4
  apply BitVec.eq_of_getLsbD_eq
  intro i hi
  simp only [BitVec.getLsbD_extractLsb']
  interval_cases i <;> simp

/-- The data offset a segment announces is TCP_W3.DOFF of its header (R78). -/
theorem byteAt_header_doff (h : HeaderRegs) (rest : List Byte) :
    ((byteAt (headerBytes h ++ rest) 12).extractLsb' 4 4) = tcpDoff h := by
  show (h.w3.extractLsb' 24 8).extractLsb' 4 4 = h.w3.extractLsb' 28 4
  apply BitVec.eq_of_getLsbD_eq
  intro i hi
  simp only [BitVec.getLsbD_extractLsb']
  interval_cases i <;> simp

end Sys2Proof.Machine
end

