-- ==== Sys2Proof/Laws/Checksum.lean ====
section
/-! SUPPORT. The laws of the internet checksum (40_checksum.md R81–R84): what the fold loop computes, and how the word
sum behaves under appending. -/

namespace Sys2Proof.Machine

/-- One turn of the fold loop lowers the sum and keeps it modulo 0xFFFF, and keeps it non-zero. -/
theorem fold_turn {sum : Nat} (h : sum > 0xFFFF) :
    sum % 0x10000 + sum / 0x10000 < sum ∧ (sum % 0x10000 + sum / 0x10000) % 0xFFFF = sum % 0xFFFF
      ∧ 0 < sum % 0x10000 + sum / 0x10000 := by omega

/-- R82 item 1: with fuel enough the fold ends in 0..0xFFFF, congruent to the sum modulo 0xFFFF, and 0 only for 0. -/
theorem foldCarries_spec {fuel sum : Nat} (h : sum ≤ fuel) :
    foldCarries fuel sum ≤ 0xFFFF ∧ foldCarries fuel sum % 0xFFFF = sum % 0xFFFF
      ∧ (foldCarries fuel sum = 0 ↔ sum = 0) := by
  induction fuel generalizing sum with
  | zero => simp [foldCarries, show sum = 0 by omega]
  | succ fuel ih =>
    rw [foldCarries]
    split_ifs with hs
    · obtain ⟨h1, h2, h3⟩ := fold_turn hs
      obtain ⟨i1, i2, i3⟩ := ih (sum := sum % 0x10000 + sum / 0x10000) (by omega)
      exact ⟨i1, i2.trans h2, i3.trans (by omega)⟩
    · exact ⟨by omega, rfl, Iff.rfl⟩

/-- The folded word sum of a byte sequence. -/
def foldedSum (s : List Byte) : Nat := foldCarries (wordSum s) (wordSum s)

theorem foldedSum_spec (s : List Byte) :
    foldedSum s ≤ 0xFFFF ∧ foldedSum s % 0xFFFF = wordSum s % 0xFFFF ∧ (foldedSum s = 0 ↔ wordSum s = 0) :=
  foldCarries_spec le_rfl

/-- The checksum is the complement of the folded sum. -/
theorem internetChecksum_toNat (s : List Byte) : (internetChecksum s).toNat = 0xFFFF - foldedSum s := by
  have h := (foldedSum_spec s).1
  rw [internetChecksum, BitVec.toNat_not, BitVec.toNat_ofNat, ← foldedSum]
  omega

/-- The checksum depends on the word sum alone. -/
theorem internetChecksum_congr {s t : List Byte} (h : wordSum s = wordSum t) : internetChecksum s = internetChecksum t := by
  rw [internetChecksum, internetChecksum, h]

/-- The checksum is 0 exactly when the word sum is a non-zero multiple of 0xFFFF (R82 item 2). -/
theorem internetChecksum_eq_zero_iff (s : List Byte) :
    internetChecksum s = 0 ↔ wordSum s ≠ 0 ∧ wordSum s % 0xFFFF = 0 := by
  obtain ⟨h1, h2, h3⟩ := foldedSum_spec s
  have ht := internetChecksum_toNat s
  constructor
  · intro h
    rw [h] at ht
    simp only [BitVec.ofNat_eq_ofNat, BitVec.toNat_ofNat, Nat.zero_mod] at ht
    refine ⟨fun h0 => ?_, ?_⟩
    · have := h3.2 h0; omega
    · rw [← h2, show foldedSum s = 0xFFFF by omega]
  · rintro ⟨hn, hm⟩
    apply BitVec.eq_of_toNat_eq
    rw [ht]
    have : foldedSum s ≠ 0 := fun h0 => hn (h3.1 h0)
    simp only [BitVec.ofNat_eq_ofNat, BitVec.toNat_ofNat, Nat.zero_mod]
    omega

/-! ### The word sum -/

@[simp] theorem wordSum_pair (h l : Byte) (rest : List Byte) :
    wordSum (h :: l :: rest) = h.toNat * 0x100 + l.toNat + wordSum rest := rfl

/-- Word pairing is undisturbed by an even number of bytes in front (R81). -/
theorem wordSum_append {s : List Byte} (h : s.length % 2 = 0) (t : List Byte) :
    wordSum (s ++ t) = wordSum s + wordSum t := by
  induction s using wordSum.induct with
  | case1 => simp [wordSum]
  | case2 b => simp at h
  | case3 a b rest ih =>
    simp only [List.cons_append, wordSum_pair]
    rw [ih (by simp only [List.length_cons] at h; omega)]
    omega

/-- The word sum is 0 exactly when every byte is 0 (R82 item 1). -/
theorem wordSum_eq_zero_iff (s : List Byte) : wordSum s = 0 ↔ ∀ b ∈ s, b = 0 := by
  have hz : ∀ b : Byte, b.toNat = 0 ↔ b = 0 := fun b => ⟨fun h => BitVec.eq_of_toNat_eq (by simpa using h), fun h => by simp [h]⟩
  induction s using wordSum.induct with
  | case1 => simp [wordSum]
  | case2 b => simp only [wordSum, List.mem_singleton, forall_eq, ← hz]; omega
  | case3 a b rest ih =>
    simp only [wordSum_pair, List.mem_cons, forall_eq_or_imp]
    constructor
    · intro h
      exact ⟨(hz a).1 (by omega), (hz b).1 (by omega), ih.1 (by omega)⟩
    · rintro ⟨ha, hb, hr⟩
      have h1 := (hz a).2 ha
      have h2 := (hz b).2 hb
      have h3 := ih.2 hr
      omega

/-- R82 item 4: a sequence of `n` bytes sums to at most 0xFFFF for each of its words. -/
theorem wordSum_le (s : List Byte) : wordSum s ≤ (s.length + 1) / 2 * 0xFFFF := by
  induction s using wordSum.induct with
  | case1 => simp [wordSum]
  | case2 b => have := b.isLt; simp only [wordSum, List.length_singleton]; omega
  | case3 a b rest ih =>
    have := a.isLt
    have := b.isLt
    simp only [wordSum_pair, List.length_cons]
    omega

/-- R82 item 5: a zero byte at the end leaves the word sum. -/
theorem wordSum_append_zero (s : List Byte) : wordSum (s ++ [0]) = wordSum s := by
  induction s using wordSum.induct with
  | case1 => rfl
  | case2 b => simp [wordSum]
  | case3 a b rest ih => simp only [List.cons_append, wordSum_pair, ih]

/-- Replacing two zero bytes at an even offset by `be16(c)` adds `c` to the word sum (R84). -/
theorem wordSum_patch16 {s : List Byte} {p : Nat} (hp : p % 2 = 0) (hlen : p + 1 < s.length)
    (h0 : byteAt s p = 0) (h1 : byteAt s (p + 1) = 0) (c : Half) :
    wordSum (patch16 s p c) = wordSum s + c.toNat := by
  have hc : (c.extractLsb' 8 8).toNat * 0x100 + (c.extractLsb' 0 8).toNat = c.toNat := by
    have := c.isLt
    simp only [BitVec.extractLsb'_toNat, Nat.shiftRight_eq_div_pow]
    omega
  induction s using wordSum.induct generalizing p with
  | case1 => simp at hlen
  | case2 b => simp at hlen
  | case3 a b rest ih =>
    rcases Nat.eq_zero_or_pos p with rfl | hpos
    · simp only [byteAt, List.getD_cons_zero, Nat.zero_add, List.getD_cons_succ] at h0 h1
      subst h0 h1
      simp only [patch16, List.set_cons_zero, Nat.zero_add, List.set_cons_succ, wordSum_pair, hc]
      simp
      omega
    · obtain ⟨q, rfl⟩ : ∃ q, p = q + 2 := ⟨p - 2, by omega⟩
      have := ih (p := q) (by omega) (by simp only [List.length_cons] at hlen; omega)
        (by simpa [byteAt] using h0) (by simpa [byteAt] using h1)
      have he : patch16 (a :: b :: rest) (q + 2) c = a :: b :: patch16 rest q c := rfl
      rw [he, wordSum_pair a b (patch16 rest q c), wordSum_pair a b rest, this]
      exact (Nat.add_assoc _ _ _).symm

@[simp] theorem pseudoHeader_length (sa da : Word) (n : Nat) : (pseudoHeader sa da n).length = 12 := rfl

/-- Swapping the pseudo-header's addresses leaves its word sum (R86). -/
theorem wordSum_pseudoHeader_swap (sa da : Word) (n : Nat) :
    wordSum (pseudoHeader sa da n) = wordSum (pseudoHeader da sa n) := by
  simp only [pseudoHeader, be32, be16, List.cons_append, List.nil_append, wordSum_pair]
  omega

end Sys2Proof.Machine
end

