-- ==== Sys2Proof/Laws/Memory.lean ====
section
/-! SUPPORT. The laws of PRAM: reads after writes, frames of writes, and the canonical form every write keeps. -/

namespace Sys2Proof.Machine

/-! ### The list of written bytes -/

theorem Memory.lookup_insert (m : Memory) (a : Nat) (v : Byte) (b : Nat) :
    (m.insert a v).lookup b = if b = a then some v else m.lookup b := by
  induction m with
  | nil => simp only [Memory.insert, Memory.lookup]; split_ifs <;> first | rfl | omega
  | cons c rest ih =>
    obtain ⟨k, w⟩ := c
    simp only [Memory.insert]
    split_ifs <;> simp only [Memory.lookup, ih] <;> split_ifs <;> first | rfl | omega

theorem Memory.mem_insert {m : Memory} {a : Nat} {v : Byte} {c : Host.Cell} (h : c ∈ m.insert a v) :
    c = (a, v) ∨ c ∈ m := by
  induction m with
  | nil => simpa [Memory.insert] using h
  | cons d rest ih =>
    obtain ⟨k, w⟩ := d
    simp only [Memory.insert] at h
    split_ifs at h <;> simp only [List.mem_cons] at h ⊢ <;> tauto

/-- Canonical means: the first address is below every later one, and the rest is canonical. -/
theorem Memory.wf_cons (c : Host.Cell) (m : Memory) :
    Memory.wf (c :: m) = true ↔ (∀ d ∈ m, c.1 < d.1) ∧ m.wf = true := by
  induction m generalizing c with
  | nil => simp [Memory.wf]
  | cons d rest ih =>
    obtain ⟨k, w⟩ := c
    obtain ⟨k', w'⟩ := d
    simp only [Memory.wf, Bool.and_eq_true, decide_eq_true_eq, List.mem_cons, forall_eq_or_imp]
    constructor
    · rintro ⟨hlt, hw⟩
      exact ⟨⟨hlt, fun d hd => lt_trans hlt (((ih (k', w')).1 hw).1 d hd)⟩, hw⟩
    · rintro ⟨⟨hlt, -⟩, hw⟩
      exact ⟨hlt, hw⟩

theorem Memory.insert_wf {m : Memory} (h : m.wf = true) (a : Nat) (v : Byte) : (m.insert a v).wf = true := by
  induction m with
  | nil => rfl
  | cons c rest ih =>
    obtain ⟨k, w⟩ := c
    obtain ⟨hlt, hrest⟩ := (Memory.wf_cons _ _).1 h
    simp only [Memory.insert]
    split_ifs with h1 h2
    · refine (Memory.wf_cons _ _).2 ⟨?_, h⟩
      intro d hd
      rcases List.mem_cons.1 hd with rfl | hd
      · exact h1
      · exact lt_trans h1 (hlt d hd)
    · exact (Memory.wf_cons _ _).2 ⟨fun d hd => h2 ▸ hlt d hd, hrest⟩
    · refine (Memory.wf_cons _ _).2 ⟨?_, ih hrest⟩
      intro d hd
      rcases Memory.mem_insert hd with rfl | hd
      · exact lt_of_le_of_ne (not_lt.1 h1) (fun e => h2 e.symm)
      · exact hlt d hd

theorem Memory.lookup_none_of_below {m : Memory} {a : Nat} (h : ∀ d ∈ m, a < d.1) : m.lookup a = none := by
  induction m with
  | nil => rfl
  | cons c rest ih =>
    obtain ⟨k, w⟩ := c
    have hk : a < k := h (k, w) (by simp)
    rw [Memory.lookup, if_neg (by omega), ih fun d hd => h d (by simp [hd])]

/-- Equal memories are equal data. -/
theorem Memory.ext_of_wf {m m' : Memory} (h : m.wf = true) (h' : m'.wf = true)
    (heq : ∀ a, m.lookup a = m'.lookup a) : m = m' := by
  induction m generalizing m' with
  | nil =>
    cases m' with
    | nil => rfl
    | cons c rest => have := heq c.1; simp [Memory.lookup] at this
  | cons c rest ih =>
    cases m' with
    | nil => have := heq c.1; simp [Memory.lookup] at this
    | cons c' rest' =>
      obtain ⟨k, w⟩ := c
      obtain ⟨k', w'⟩ := c'
      obtain ⟨hb, hr⟩ := (Memory.wf_cons _ _).1 h
      obtain ⟨hb', hr'⟩ := (Memory.wf_cons _ _).1 h'
      have hk : k = k' := by
        rcases lt_trichotomy k k' with hlt | rfl | hlt
        · have := heq k
          rw [Memory.lookup_none_of_below (m := (k', w') :: rest')] at this
          · simp [Memory.lookup] at this
          · intro d hd
            rcases List.mem_cons.1 hd with rfl | hd
            · exact hlt
            · exact lt_trans hlt (hb' d hd)
        · rfl
        · have := heq k'
          rw [Memory.lookup_none_of_below (m := (k, w) :: rest)] at this
          · simp [Memory.lookup] at this
          · intro d hd
            rcases List.mem_cons.1 hd with rfl | hd
            · exact hlt
            · exact lt_trans hlt (hb d hd)
      subst hk
      have hw : w = w' := by have := heq k; simpa [Memory.lookup] using this
      subst hw
      rw [ih hr hr']
      intro a
      have := heq a
      simp only [Memory.lookup] at this
      split_ifs at this with hka
      · subst hka
        rw [Memory.lookup_none_of_below hb, Memory.lookup_none_of_below hb']
      · exact this

/-! ### One byte -/

theorem readByte_writeByte (s : State) (a : Nat) (v : Byte) (b : Nat) :
    readByte (writeByte s a v) b = if b = a then v else readByte s b := by
  simp only [readByte, writeByte_pram, Memory.lookup_insert]
  split_ifs <;> rfl

theorem readByte_congr {s t : State} (h : t.pram = s.pram) (a : Nat) : readByte t a = readByte s a := by
  rw [readByte, h, readByte]

/-! ### Byte sequences -/

@[simp] theorem memRead_length (s : State) (a n : Nat) : (memRead s a n).length = n := by
  induction n generalizing a with
  | zero => rfl
  | succ n ih => simp [memRead, ih]

theorem byteAt_memRead (s : State) (a n i : Nat) (h : i < n) : byteAt (memRead s a n) i = readByte s (a + i) := by
  induction n generalizing a i with
  | zero => omega
  | succ n ih =>
    cases i with
    | zero => rfl
    | succ i =>
      have := ih (a + 1) i (by omega)
      simp only [byteAt, memRead, List.getD_cons_succ] at this ⊢
      rw [this]
      congr 1
      omega

theorem memRead_congr {s t : State} {a b n : Nat} (h : ∀ i < n, readByte s (a + i) = readByte t (b + i)) :
    memRead s a n = memRead t b n := by
  induction n generalizing a b with
  | zero => rfl
  | succ n ih =>
    have h0 := h 0 (by omega)
    simp only [Nat.add_zero] at h0
    rw [memRead, memRead, h0, ih]
    intro i hi
    have := h (i + 1) (by omega)
    rwa [show a + (i + 1) = a + 1 + i by omega, show b + (i + 1) = b + 1 + i by omega] at this

theorem memRead_of_pram {s t : State} (h : t.pram = s.pram) (a n : Nat) : memRead t a n = memRead s a n :=
  memRead_congr fun _ _ => readByte_congr h _

theorem memRead_append (s : State) (a n m : Nat) : memRead s a (n + m) = memRead s a n ++ memRead s (a + n) m := by
  induction n generalizing a with
  | zero => simp [memRead]
  | succ n ih =>
    rw [show n + 1 + m = (n + m) + 1 by omega, memRead, memRead, ih]
    simp [show a + 1 + n = a + (n + 1) by omega]

theorem take_memRead (s : State) (a n k : Nat) (h : k ≤ n) : (memRead s a n).take k = memRead s a k := by
  obtain ⟨m, rfl⟩ := Nat.exists_eq_add_of_le h
  rw [memRead_append, List.take_append_of_le_length (by simp), List.take_of_length_le (by simp)]

/-- The frame of `memWrite`: every byte outside the written region. -/
theorem readByte_memWrite_outside (s : State) (a : Nat) (bs : List Byte) (b : Nat)
    (h : b < a ∨ a + bs.length ≤ b) : readByte (memWrite s a bs) b = readByte s b := by
  induction bs generalizing s a with
  | nil => rfl
  | cons v bs ih =>
    rw [List.length_cons] at h
    rw [memWrite, ih _ _ (by omega), readByte_writeByte, if_neg (by omega)]

/-- What `memWrite` stores. -/
theorem readByte_memWrite_inside (s : State) (a : Nat) (bs : List Byte) (i : Nat) (h : i < bs.length) :
    readByte (memWrite s a bs) (a + i) = byteAt bs i := by
  induction bs generalizing s a i with
  | nil => simp at h
  | cons v bs ih =>
    rw [memWrite]
    cases i with
    | zero =>
      rw [readByte_memWrite_outside _ _ _ _ (by omega), readByte_writeByte]
      simp [byteAt]
    | succ i =>
      have := ih (writeByte s a v) (a + 1) i (by simpa using h)
      rw [show a + (i + 1) = a + 1 + i by omega, this]
      simp [byteAt]

/-- Reading back the bytes just written. -/
theorem memRead_memWrite (s : State) (a : Nat) (bs : List Byte) : memRead (memWrite s a bs) a bs.length = bs := by
  apply List.ext_getElem
  · simp
  · intro i h1 h2
    have h := byteAt_memRead (memWrite s a bs) a bs.length i h2
    rw [readByte_memWrite_inside _ _ _ _ h2] at h
    simpa [byteAt, List.getD_eq_getElem?_getD, h1, h2] using h

theorem memRead_memWrite_outside (s : State) (a : Nat) (bs : List Byte) (b n : Nat)
    (h : b + n ≤ a ∨ a + bs.length ≤ b) : memRead (memWrite s a bs) b n = memRead s b n :=
  memRead_congr fun i hi => readByte_memWrite_outside _ _ _ _ (by omega)

/-! ### The canonical form -/

theorem memWrite_wf {s : State} (h : s.pram.wf = true) (a : Nat) (bs : List Byte) :
    (memWrite s a bs).pram.wf = true := by
  induction bs generalizing s a with
  | nil => exact h
  | cons b bs ih => exact ih (s := writeByte s a b) (Memory.insert_wf h a b) _

theorem memWrite_inside {s : State} {p : Nat} (h : ∀ c ∈ s.pram, c.1 < p) {a : Nat} {bs : List Byte}
    (ha : bs = [] ∨ a + bs.length ≤ p) : ∀ c ∈ (memWrite s a bs).pram, c.1 < p := by
  induction bs generalizing s a with
  | nil => exact h
  | cons b bs ih =>
    have hlen : a + (bs.length + 1) ≤ p := by simpa using ha
    refine ih (s := writeByte s a b) ?_ (Or.inr (by omega))
    intro c hc
    rcases Memory.mem_insert hc with rfl | hc
    · show a < p
      omega
    · exact h c hc

end Sys2Proof.Machine
end

