-- ==== Sys2Proof/Laws/Exec.lean ====
section
/-! SUPPORT. What a command can do, said once: `exec` concludes the command's result, a result is the first failing check
or the command's writes, and each command's checks and writes are listed in one lemma. -/

namespace Sys2Proof.Machine

/-! ### Checks and completions -/

theorem raiseIf_eq_ok {bad : Bool} {e : ErrCode} {r : Except ErrCode State} {t : State} :
    raiseIf bad e r = .ok t ↔ bad = false ∧ r = .ok t := by
  cases bad <;> simp [raiseIf]

theorem raiseIf_eq_error {bad : Bool} {e e' : ErrCode} {r : Except ErrCode State} :
    raiseIf bad e r = .error e' ↔ (bad = true ∧ e = e') ∨ (bad = false ∧ r = .error e') := by
  cases bad <;> simp [raiseIf]

@[simp] theorem raiseIf_true (e : ErrCode) (r : Except ErrCode State) : raiseIf true e r = .error e := rfl

@[simp] theorem raiseIf_false (e : ErrCode) (r : Except ErrCode State) : raiseIf false e r = r := rfl

theorem errorNumber_eq_zero_iff (e : ErrCode) : errorNumber e = 0 ↔ e = .ok := by cases e <;> decide

theorem errorNumber_le (e : ErrCode) : (errorNumber e).toNat ≤ 0x0A := by cases e <;> decide

/-- A completion is R110's, with the number of its code. -/
theorem complete_eq_completedWith (e : ErrCode) (s : State) : complete e s = completedWith (errorNumber e) s := by
  cases e <;> rfl

/-! ### Every command as checks, then writes -/

/-- The result of a command before its completion: an error code, or the state with the command's writes. -/
def commandResult (i : Instr) (s : State) : Except ErrCode State :=
  match i with
  | .cksum => cksumResult s
  | .pcksum => pcksumResult s
  | .ipdec => ipdecResult s
  | .ipenc => ipencResult s
  | .tcpdec => tcpdecResult s
  | .tcpenc => tcpencResult s
  | .fset idx => withFlagIndex idx { s with tcp := { s.tcp with w3 := setFlagBit s.tcp.w3 idx } }
  | .fclr idx => withFlagIndex idx { s with tcp := { s.tcp with w3 := clearFlagBit s.tcp.w3 idx } }
  | .ftest idx => withFlagIndex idx (setTest s (flagBit s.tcp.w3 idx))
  | .aton => atonResult s
  | .ntoa => ntoaResult s

theorem exec_eq_conclude (i : Instr) (s : State) : exec i s = conclude s (commandResult i s) := by cases i <;> rfl

/-- Every command ends in a next state: there is no fault and no refusal (R107). -/
theorem exec_next (i : Instr) (s : State) : ∃ t, exec i s = .next t := by
  rw [exec_eq_conclude]
  cases h : commandResult i s with
  | ok u => exact ⟨_, rfl⟩
  | error e => exact ⟨_, rfl⟩

/-- No check raises the code of success. -/
theorem commandResult_error_ne_ok {i : Instr} {s : State} {e : ErrCode} (h : commandResult i s = .error e) : e ≠ .ok := by
  cases i <;>
    simp only [commandResult, cksumResult, pcksumResult, ipdecResult, ipencResult, tcpdecResult, tcpencResult,
      withFlagIndex, atonResult, atonText, ntoaResult, raiseIf_eq_error] at h
  case aton =>
    rcases h with ⟨-, rfl⟩ | ⟨-, h⟩
    · decide
    · split at h
      · cases h; decide
      · rcases raiseIf_eq_error.1 h with ⟨-, rfl⟩ | ⟨-, h⟩
        · decide
        · cases h
  all_goals
    rintro rfl
    simp at h

/-- What `exec` can answer: success with the command's writes, or an error completion of the state it found. -/
theorem exec_cases {i : Instr} {s t : State} (h : exec i s = .next t) :
    (∃ u, commandResult i s = .ok u ∧ t = complete .ok u) ∨
    (∃ e, e ≠ .ok ∧ commandResult i s = .error e ∧ t = complete e s) := by
  rw [exec_eq_conclude] at h
  cases hr : commandResult i s with
  | ok u => rw [hr] at h; cases h; exact .inl ⟨u, rfl, rfl⟩
  | error e => rw [hr] at h; cases h; exact .inr ⟨e, commandResult_error_ne_ok hr, rfl, rfl⟩

/-- A completion with code 0 is a success. -/
theorem exec_success {i : Instr} {s t : State} (h : exec i s = .next t) (h0 : t.errcode = 0) :
    ∃ u, commandResult i s = .ok u ∧ t = complete .ok u := by
  rcases exec_cases h with hu | ⟨e, he, -, rfl⟩
  · exact hu
  · exact absurd ((errorNumber_eq_zero_iff e).1 h0) he

/-- A command that passes its checks answers the completion of its writes. -/
theorem exec_of_ok {i : Instr} {s u : State} (h : commandResult i s = .ok u) :
    exec i s = .next (completedWith 0x00 u) := by
  rw [exec_eq_conclude, h, conclude, complete_eq_completedWith]
  rfl

/-- A command that fails a check answers the error completion of the state it found. -/
theorem exec_of_error {i : Instr} {s : State} {e : ErrCode} (h : commandResult i s = .error e) :
    exec i s = .next (completedWith (errorNumber e) s) := by
  rw [exec_eq_conclude, h, conclude, complete_eq_completedWith]

/-! ### The checks and writes of each command -/

theorem ok_eq_ok {t u : State} : (Except.ok t : Except ErrCode State) = .ok u ↔ u = t := by
  rw [Except.ok.injEq, eq_comm]

theorem srcInRange_passes {s : State} : (!srcInRange s) = false ↔ srcA s + srcN s ≤ s.cfg.pramSize := by
  simp [srcInRange, inRange]

theorem dstInRange_passes {s : State} : dstOutOfRange s = false ↔ dstA s + (20 + srcN s) ≤ s.cfg.pramSize := by
  rw [dstOutOfRange, inRange, Bool.not_eq_false', decide_eq_true_iff, encodedLen, fixedHeader]

theorem headerMalformed_passes {n words : Nat} :
    headerMalformed n words = false ↔ 20 ≤ n ∧ 5 ≤ words ∧ 4 * words ≤ n := by
  simp only [headerMalformed, Bool.or_eq_false_iff, decide_eq_false_iff_not]
  simp only [fixedHeader, minHeaderWords]
  omega

theorem regionsOverlap_passes {s : State} : regionsOverlap s = false ↔
    ¬ (0 < srcN s ∧ srcA s < dstA s + (20 + srcN s) ∧ dstA s < srcA s + srcN s) := by
  simp only [regionsOverlap, overlap, Bool.and_eq_false_iff, decide_eq_false_iff_not]
  simp only [encodedLen, fixedHeader]
  omega

theorem optionsShort_passes {s : State} {words : Nat} : optionsShort s words = false ↔ 4 * words - 20 ≤ srcN s := by
  rw [optionsShort, decide_eq_false_iff_not, not_lt, fixedHeader]

theorem cksumResult_ok {s u : State} : cksumResult s = .ok u ↔
    srcA s + srcN s ≤ s.cfg.pramSize ∧ u = { s with cksum := internetChecksum (srcBytes s) } := by
  rw [cksumResult, raiseIf_eq_ok, srcInRange_passes, ok_eq_ok]

theorem pcksumResult_ok {s u : State} : pcksumResult s = .ok u ↔
    srcA s + srcN s ≤ s.cfg.pramSize ∧ srcN s ≤ 65535 ∧
      u = { s with cksum := segmentChecksum s (srcBytes s) (srcN s) } := by
  rw [pcksumResult, raiseIf_eq_ok, srcInRange_passes, raiseIf_eq_ok, ok_eq_ok, decide_eq_false_iff_not, not_lt, maxSegment]

theorem ipdecResult_ok {s u : State} : ipdecResult s = .ok u ↔
    srcA s + srcN s ≤ s.cfg.pramSize ∧
      (20 ≤ srcN s ∧ 5 ≤ frameIhl (srcBytes s) ∧ 4 * frameIhl (srcBytes s) ≤ srcN s) ∧
      u = ipdecWrites s (srcBytes s) := by
  rw [ipdecResult, raiseIf_eq_ok, srcInRange_passes, raiseIf_eq_ok, headerMalformed_passes, ok_eq_ok]

theorem tcpdecResult_ok {s u : State} : tcpdecResult s = .ok u ↔
    srcA s + srcN s ≤ s.cfg.pramSize ∧
      (20 ≤ srcN s ∧ 5 ≤ segmentDoff (srcBytes s) ∧ 4 * segmentDoff (srcBytes s) ≤ srcN s) ∧
      srcN s ≤ 65535 ∧ u = tcpdecWrites s (srcBytes s) := by
  rw [tcpdecResult, raiseIf_eq_ok, srcInRange_passes, raiseIf_eq_ok, headerMalformed_passes, raiseIf_eq_ok, ok_eq_ok,
    decide_eq_false_iff_not, not_lt, maxSegment]

theorem ipencResult_ok {s u : State} : ipencResult s = .ok u ↔
    srcA s + srcN s ≤ s.cfg.pramSize ∧ dstA s + (20 + srcN s) ≤ s.cfg.pramSize ∧
      ¬ (0 < srcN s ∧ srcA s < dstA s + (20 + srcN s) ∧ dstA s < srcA s + srcN s) ∧
      5 ≤ (ipIhl s.ip).toNat ∧ 4 * (ipIhl s.ip).toNat - 20 ≤ srcN s ∧ (ipTotlen s.ip).toNat = 20 + srcN s ∧
      u = emit s (ipFrame s) (ipFrameChecksum s) := by
  rw [ipencResult, raiseIf_eq_ok, srcInRange_passes, raiseIf_eq_ok, dstInRange_passes, raiseIf_eq_ok, regionsOverlap_passes,
    raiseIf_eq_ok, raiseIf_eq_ok, optionsShort_passes, raiseIf_eq_ok, ok_eq_ok, decide_eq_false_iff_not,
    decide_eq_false_iff_not, not_lt, not_ne_iff, minHeaderWords, encodedLen, fixedHeader]

theorem tcpencResult_ok {s u : State} : tcpencResult s = .ok u ↔
    srcA s + srcN s ≤ s.cfg.pramSize ∧ dstA s + (20 + srcN s) ≤ s.cfg.pramSize ∧
      ¬ (0 < srcN s ∧ srcA s < dstA s + (20 + srcN s) ∧ dstA s < srcA s + srcN s) ∧
      5 ≤ (tcpDoff s.tcp).toNat ∧ 4 * (tcpDoff s.tcp).toNat - 20 ≤ srcN s ∧ 20 + srcN s ≤ 65535 ∧
      u = emit s (tcpSegment s) (tcpSegmentChecksum s) := by
  rw [tcpencResult, raiseIf_eq_ok, srcInRange_passes, raiseIf_eq_ok, dstInRange_passes, raiseIf_eq_ok,
    regionsOverlap_passes, raiseIf_eq_ok, raiseIf_eq_ok, optionsShort_passes, raiseIf_eq_ok, ok_eq_ok,
    decide_eq_false_iff_not, decide_eq_false_iff_not, not_lt, not_lt, minHeaderWords, encodedLen, fixedHeader, maxSegment]

theorem withFlagIndex_ok {i : Nat} {t u : State} : withFlagIndex i t = .ok u ↔ i ≤ 8 ∧ u = t := by
  rw [withFlagIndex, raiseIf_eq_ok, ok_eq_ok, decide_eq_false_iff_not, not_lt, maxFlagIndex]

theorem atonResult_ok {s u : State} : atonResult s = .ok u ↔
    srcA s + srcN s ≤ s.cfg.pramSize ∧ ∃ c0 c1 c2 c3, quadValues (srcBytes s) = some (c0, c1, c2, c3) ∧
      c0 ≤ 255 ∧ c1 ≤ 255 ∧ c2 ≤ 255 ∧ c3 ≤ 255 ∧ u = { s with addrVal := quadWord c0 c1 c2 c3 } := by
  rw [atonResult, raiseIf_eq_ok, srcInRange_passes, atonText]
  cases hq : quadValues (srcBytes s) with
  | none => simp
  | some q =>
    obtain ⟨c0, c1, c2, c3⟩ := q
    simp only [raiseIf_eq_ok, ok_eq_ok, Bool.or_eq_false_iff, decide_eq_false_iff_not, not_lt, gt_iff_lt]
    constructor
    · rintro ⟨h, ⟨⟨⟨h0, h1⟩, h2⟩, h3⟩, rfl⟩
      exact ⟨h, c0, c1, c2, c3, rfl, h0, h1, h2, h3, rfl⟩
    · rintro ⟨h, d0, d1, d2, d3, hd, h0, h1, h2, h3, rfl⟩
      cases hd
      exact ⟨h, ⟨⟨⟨h0, h1⟩, h2⟩, h3⟩, rfl⟩

theorem ntoaResult_ok {s u : State} : ntoaResult s = .ok u ↔
    dstA s + (quadText s.addrVal).length ≤ s.cfg.pramSize ∧ u = ntoaWrites s (quadText s.addrVal) := by
  rw [ntoaResult, raiseIf_eq_ok, ok_eq_ok]
  simp [inRange]

/-! ### The bytes the encoders write -/

/-- IPENC's frame is the header with HCSUM replaced, then the source region. -/
theorem ipFrame_eq (s : State) :
    ipFrame s = headerBytes (ipWithHcsum s.ip (ipFrameChecksum s)) ++ srcBytes s := patch_ip_header _ _ _

/-- TCPENC's segment is the header with TCSUM replaced, then the source region. -/
theorem tcpSegment_eq (s : State) :
    tcpSegment s = headerBytes (tcpWithTcsum s.tcp (tcpSegmentChecksum s)) ++ srcBytes s := patch_tcp_header _ _ _

@[simp] theorem srcBytes_length (s : State) : (srcBytes s).length = srcN s := memRead_length _ _ _

@[simp] theorem ipFrame_length (s : State) : (ipFrame s).length = 20 + srcN s := by
  rw [ipFrame_eq, List.length_append, headerBytes_length, srcBytes_length]

@[simp] theorem tcpSegment_length (s : State) : (tcpSegment s).length = 20 + srcN s := by
  rw [tcpSegment_eq, List.length_append, headerBytes_length, srcBytes_length]

theorem readByte_complete_emit (e : ErrCode) (s : State) (f : List Byte) (c : Half) (a : Nat) :
    readByte (complete e (emit s f c)) a = readByte (memWrite s (dstA s) f) a := rfl

theorem readByte_complete_ntoaWrites (e : ErrCode) (s : State) (f : List Byte) (a : Nat) :
    readByte (complete e (ntoaWrites s f)) a = readByte (memWrite s (dstA s) f) a := rfl

/-! ### Commands and the latency that is left -/

theorem memWrite_withWait (s : State) (k a : Nat) (bs : List Byte) :
    memWrite { s with engineWait := k } a bs = { memWrite s a bs with engineWait := k } := by
  induction bs generalizing s a with
  | nil => rfl
  | cons b bs ih => exact ih (writeByte s a b) (a + 1)

theorem conclude_raiseIf (s : State) (bad : Bool) (e : ErrCode) (r : Except ErrCode State) :
    conclude s (raiseIf bad e r) = if bad then .next (complete e s) else conclude s r := by
  cases bad <;> rfl

/-- A command's completion does not depend on the latency that is left. -/
theorem exec_withWait (i : Instr) (s : State) (k : Nat) : exec i { s with engineWait := k } = exec i s := by
  have hb : srcBytes { s with engineWait := k } = srcBytes s := memRead_congr fun _ _ => rfl
  have hf : ipFrameUnpatched { s with engineWait := k } = ipFrameUnpatched s := by
    rw [ipFrameUnpatched, hb, ipFrameUnpatched]
  have hg : tcpSegmentUnpatched { s with engineWait := k } = tcpSegmentUnpatched s := by
    rw [tcpSegmentUnpatched, hb, tcpSegmentUnpatched]
  have hfc : ipFrameChecksum { s with engineWait := k } = ipFrameChecksum s := by
    rw [ipFrameChecksum, hf, ipFrameChecksum]
  have hgc : tcpSegmentChecksum { s with engineWait := k } = tcpSegmentChecksum s := by
    rw [tcpSegmentChecksum, hg, tcpSegmentChecksum]; rfl
  simp only [exec_eq_conclude]
  cases i <;>
    simp only [commandResult, cksumResult, pcksumResult, ipdecResult, ipencResult, tcpdecResult, tcpencResult,
      withFlagIndex, atonResult, ntoaResult, conclude_raiseIf, hb, ipFrame, tcpSegment, hf, hg, hfc, hgc, emit, ntoaWrites,
      memWrite_withWait]
  case aton =>
    congr 1
    unfold atonText
    cases quadValues (srcBytes s) with
    | none => rfl
    | some q => simp only [conclude_raiseIf]; rfl
  all_goals rfl

end Sys2Proof.Machine
end

