-- ==== Sys2Proof/Laws/Address.lean ====
section
/-! SUPPORT. The laws of dotted-quad text (43_address.md R102, R103): the reader accepts exactly the grammar, and the
shortest decimal spelling is a component with its value and no leading zero. -/

namespace Sys2Proof.Machine

/-! ### Components -/

theorem digitValue_eq_some {b : Byte} {x : Nat} : digitValue b = some x ↔ IsDigit b ∧ b.toNat - 0x30 = x := by
  unfold digitValue IsDigit
  split_ifs with h <;> simp [h]

theorem digitValue_of_isDigit {b : Byte} (h : IsDigit b) : digitValue b = some (b.toNat - 0x30) :=
  digitValue_eq_some.2 ⟨h, rfl⟩

theorem digitValue_eq_none {b : Byte} (h : ¬ IsDigit b) : digitValue b = none := by
  unfold IsDigit at h
  rw [digitValue, if_neg h]

theorem componentValue_eq_some {ds : List Byte} {x : Nat} : componentValue ds = some x ↔ IsComponent ds x := by
  unfold IsComponent
  match ds with
  | [] => simp [componentValue]
  | [a] =>
    simp [componentValue, digitValue_eq_some, decimalValue]
  | [a, b] =>
    by_cases ha : IsDigit a <;> by_cases hb : IsDigit b <;>
      simp [componentValue, ha, hb, digitValue_of_isDigit, digitValue_eq_none, decimalValue]
  | [a, b, c] =>
    by_cases ha : IsDigit a <;> by_cases hb : IsDigit b <;> by_cases hc : IsDigit c <;>
      simp [componentValue, ha, hb, hc, digitValue_of_isDigit, digitValue_eq_none, decimalValue]
    omega
  | a :: b :: c :: d :: rest => simp [componentValue]

/-- A digit is no dot. -/
theorem isDigit_ne_dot {b : Byte} (h : IsDigit b) : b ≠ dot := by
  rintro rfl
  exact absurd h (by unfold IsDigit; decide)

theorem isComponent_no_dot {ds : List Byte} {x : Nat} (h : IsComponent ds x) : ∀ b ∈ ds, b ≠ dot :=
  fun b hb => isDigit_ne_dot (h.2.2.1 b hb)

/-! ### Splitting at the dots -/

theorem splitDots_ne_nil (s : List Byte) : splitDots s ≠ [] := by
  cases s with
  | nil => simp [splitDots]
  | cons b rest =>
    rw [splitDots]
    split_ifs
    · simp
    · split <;> simp

theorem splitDots_cons_of_ne {b : Byte} {rest piece : List Byte} {pieces : List (List Byte)} (hb : b ≠ dot)
    (h : splitDots rest = piece :: pieces) : splitDots (b :: rest) = (b :: piece) :: pieces := by
  rw [splitDots, if_neg hb, h]

/-- A piece without dots followed by a dot is split off. -/
theorem splitDots_append_dot {p : List Byte} (hp : ∀ b ∈ p, b ≠ dot) (rest : List Byte) :
    splitDots (p ++ dot :: rest) = p :: splitDots rest := by
  induction p with
  | nil => rw [List.nil_append, splitDots, if_pos rfl]
  | cons b p ih =>
    exact splitDots_cons_of_ne (hp b (by simp)) (ih fun c hc => hp c (by simp [hc]))

theorem splitDots_no_dot {p : List Byte} (hp : ∀ b ∈ p, b ≠ dot) : splitDots p = [p] := by
  induction p with
  | nil => rfl
  | cons b p ih => exact splitDots_cons_of_ne (hp b (by simp)) (ih fun c hc => hp c (by simp [hc]))

/-- The first piece and the rest, put together again. -/
theorem splitDots_join {s p : List Byte} {ps : List (List Byte)} (h : splitDots s = p :: ps) :
    (ps = [] ∧ s = p) ∨ (ps ≠ [] ∧ ∃ rest, s = p ++ dot :: rest ∧ splitDots rest = ps) := by
  induction s generalizing p ps with
  | nil => rw [splitDots] at h; cases h; exact .inl ⟨rfl, rfl⟩
  | cons b rest ih =>
    by_cases hb : b = dot
    · subst hb
      rw [splitDots, if_pos rfl] at h
      obtain ⟨rfl, rfl⟩ := List.cons.inj h
      exact .inr ⟨splitDots_ne_nil rest, rest, rfl, rfl⟩
    · obtain ⟨q, qs, hq⟩ := List.exists_cons_of_ne_nil (splitDots_ne_nil rest)
      rw [splitDots_cons_of_ne hb hq] at h
      obtain ⟨rfl, rfl⟩ := List.cons.inj h
      rcases ih hq with ⟨hnil, rfl⟩ | ⟨hne, rest', rfl, hr⟩
      · exact .inl ⟨hnil, rfl⟩
      · exact .inr ⟨hne, rest', rfl, hr⟩

/-- The reader accepts exactly the grammar of R102. -/
theorem quadValues_eq_some {text : List Byte} {c0 c1 c2 c3 : Nat} :
    quadValues text = some (c0, c1, c2, c3) ↔ IsQuad text c0 c1 c2 c3 := by
  constructor
  · intro h
    unfold quadValues at h
    split at h
    · rename_i p0 p1 p2 p3 hs
      split at h
      · rename_i d0 d1 d2 d3 h0 h1 h2 h3
        cases h
        rcases splitDots_join hs with ⟨hn, -⟩ | ⟨-, r1, rfl, hs1⟩
        · cases hn
        rcases splitDots_join hs1 with ⟨hn, -⟩ | ⟨-, r2, rfl, hs2⟩
        · cases hn
        rcases splitDots_join hs2 with ⟨hn, -⟩ | ⟨-, r3, rfl, hs3⟩
        · cases hn
        rcases splitDots_join hs3 with ⟨-, rfl⟩ | ⟨hn, -⟩
        · exact ⟨p0, p1, p2, _, by simp [dot], componentValue_eq_some.1 h0, componentValue_eq_some.1 h1,
            componentValue_eq_some.1 h2, componentValue_eq_some.1 h3⟩
        · exact absurd rfl hn
      · cases h
    · cases h
  · rintro ⟨p0, p1, p2, p3, rfl, h0, h1, h2, h3⟩
    have hs : splitDots (p0 ++ [0x2E] ++ p1 ++ [0x2E] ++ p2 ++ [0x2E] ++ p3) = [p0, p1, p2, p3] := by
      rw [show p0 ++ [0x2E] ++ p1 ++ [0x2E] ++ p2 ++ [0x2E] ++ p3
          = p0 ++ dot :: (p1 ++ dot :: (p2 ++ dot :: p3)) by simp [dot],
        splitDots_append_dot (isComponent_no_dot h0), splitDots_append_dot (isComponent_no_dot h1),
        splitDots_append_dot (isComponent_no_dot h2), splitDots_no_dot (isComponent_no_dot h3)]
    rw [quadValues, hs]
    simp only [componentValue_eq_some.2 h0, componentValue_eq_some.2 h1, componentValue_eq_some.2 h2,
      componentValue_eq_some.2 h3]

/-! ### Decimal spellings -/

theorem digitByte_toNat {d : Nat} (h : d < 10) : (digitByte d).toNat = 0x30 + d := by
  rw [digitByte, BitVec.toNat_ofNat]
  omega

theorem isDigit_digitByte {d : Nat} (h : d < 10) : IsDigit (digitByte d) := by
  rw [IsDigit, digitByte_toNat h]
  omega

/-- `dec(x)` is a component with value `x` (R103). -/
theorem isComponent_decimal {x : Nat} (h : x ≤ 255) : IsComponent (decimal x) x := by
  unfold decimal
  split_ifs with h1 h2
  · refine ⟨by simp, by simp, ?_, ?_⟩
    · simpa using isDigit_digitByte h1
    · simp [decimalValue, digitByte_toNat h1]
  · have a := show x / 10 < 10 by omega
    have b := show x % 10 < 10 by omega
    refine ⟨by simp, by simp, ?_, ?_⟩
    · simpa using ⟨isDigit_digitByte a, isDigit_digitByte b⟩
    · simp only [decimalValue, List.foldl_cons, List.foldl_nil, digitByte_toNat a, digitByte_toNat b]
      omega
  · have a := show x / 100 < 10 by omega
    have b := show x / 10 % 10 < 10 by omega
    have c := show x % 10 < 10 by omega
    refine ⟨by simp, by simp, ?_, ?_⟩
    · simpa using ⟨isDigit_digitByte a, isDigit_digitByte b, isDigit_digitByte c⟩
    · simp only [decimalValue, List.foldl_cons, List.foldl_nil, digitByte_toNat a, digitByte_toNat b, digitByte_toNat c]
      omega

/-- `dec(x)` has no leading zero (R103). -/
theorem decimal_no_leadingZero {x : Nat} (h : x ≤ 255) : ¬ LeadingZero (decimal x) := by
  have hne : ∀ d, 1 ≤ d → d < 10 → digitByte d ≠ 0x30 := by
    intro d h1 h2 he
    have := congrArg BitVec.toNat he
    rw [digitByte_toNat h2] at this
    simp at this
    omega
  unfold decimal LeadingZero
  split_ifs with h1 h2
  · simp
  · rintro ⟨-, he⟩
    exact hne _ (by omega) (by omega) (Option.some.inj he)
  · rintro ⟨-, he⟩
    exact hne _ (by omega) (by omega) (Option.some.inj he)

theorem decimal_length {x : Nat} : 1 ≤ (decimal x).length ∧ (decimal x).length ≤ 3 := by
  unfold decimal
  split_ifs <;> simp

/-- A component without a leading zero is the shortest spelling of its value. -/
theorem decimal_unique {ds : List Byte} {x : Nat} (h : IsComponent ds x) (hz : ¬ LeadingZero ds) : decimal x = ds := by
  obtain ⟨h1, h3, hd, rfl⟩ := h
  have hb : ∀ b : Byte, IsDigit b → digitByte (b.toNat - 0x30) = b := by
    intro b hb
    unfold IsDigit at hb
    apply BitVec.eq_of_toNat_eq
    rw [digitByte_toNat (by omega)]
    omega
  have hz' : ∀ b : Byte, IsDigit b → b ≠ 0x30 → 1 ≤ b.toNat - 0x30 ∧ b.toNat - 0x30 ≤ 9 := by
    intro b hb hne
    unfold IsDigit at hb
    have : b.toNat ≠ 0x30 := fun h => hne (BitVec.eq_of_toNat_eq h)
    omega
  have hd9 : ∀ b : Byte, IsDigit b → b.toNat - 0x30 ≤ 9 := by
    intro b hb
    unfold IsDigit at hb
    omega
  match ds with
  | [] => simp at h1
  | [a] =>
    have ha := hd a (by simp)
    have := hd9 a ha
    simp only [decimalValue, List.foldl_cons, List.foldl_nil]
    rw [decimal, if_pos (by omega), show 10 * 0 + (a.toNat - 0x30) = a.toNat - 0x30 by omega, hb a ha]
  | [a, b] =>
    have ha := hd a (by simp)
    have hb' := hd b (by simp)
    have h9 := hd9 b hb'
    have hnz := hz' a ha fun he => hz ⟨by simp, by rw [he]; rfl⟩
    simp only [decimalValue, List.foldl_cons, List.foldl_nil]
    rw [decimal, if_neg (by omega), if_pos (by omega),
      show (10 * (10 * 0 + (a.toNat - 0x30)) + (b.toNat - 0x30)) / 10 = a.toNat - 0x30 by omega,
      show (10 * (10 * 0 + (a.toNat - 0x30)) + (b.toNat - 0x30)) % 10 = b.toNat - 0x30 by omega, hb a ha, hb b hb']
  | [a, b, c] =>
    have ha := hd a (by simp)
    have hb' := hd b (by simp)
    have hc := hd c (by simp)
    have hb9 := hd9 b hb'
    have hc9 := hd9 c hc
    have hnz := hz' a ha fun he => hz ⟨by simp, by rw [he]; rfl⟩
    simp only [decimalValue, List.foldl_cons, List.foldl_nil]
    generalize hx : 10 * (10 * (10 * 0 + (a.toNat - 0x30)) + (b.toNat - 0x30)) + (c.toNat - 0x30) = x
    rw [decimal, if_neg (by omega), if_neg (by omega), show x / 100 = a.toNat - 0x30 by omega,
      show x / 10 % 10 = b.toNat - 0x30 by omega, show x % 10 = c.toNat - 0x30 by omega, hb a ha, hb b hb', hb c hc]
  | a :: b :: c :: d :: rest => simp only [List.length_cons] at h3; omega

/-! ### Addresses as four components -/

theorem quadWord_toNat {c0 c1 c2 c3 : Nat} (h0 : c0 ≤ 255) (h1 : c1 ≤ 255) (h2 : c2 ≤ 255) (h3 : c3 ≤ 255) :
    (quadWord c0 c1 c2 c3).toNat = c0 * 2 ^ 24 + c1 * 2 ^ 16 + c2 * 2 ^ 8 + c3 := by
  have he : quadWord c0 c1 c2 c3
      = wordOfBytes (BitVec.ofNat 8 c0) (BitVec.ofNat 8 c1) (BitVec.ofNat 8 c2) (BitVec.ofNat 8 c3) := by
    have hs : ∀ c, c ≤ 255 → (BitVec.ofNat 8 c).setWidth 32 = BitVec.ofNat 32 c := by
      intro c hc
      apply BitVec.eq_of_toNat_eq
      simp only [BitVec.toNat_setWidth, BitVec.toNat_ofNat]
      omega
    rw [wordOfBytes, hs c0 h0, hs c1 h1, hs c2 h2, hs c3 h3, quadWord]
  rw [he, wordOfBytes_toNat]
  simp only [BitVec.toNat_ofNat]
  omega

/-- The text of an address is four shortest spellings with dots between (R103). -/
theorem quadText_eq (v : Word) :
    quadText v = decimal (v.toNat / 2 ^ 24) ++ [dot] ++ decimal (v.toNat / 2 ^ 16 % 256) ++ [dot]
      ++ decimal (v.toNat / 2 ^ 8 % 256) ++ [dot] ++ decimal (v.toNat % 256) := by
  have := v.isLt
  simp only [quadText, BitVec.extractLsb'_toNat, Nat.shiftRight_eq_div_pow, Nat.reducePow]
  rw [show v.toNat / 16777216 % 256 = v.toNat / 16777216 by omega, show v.toNat / 1 = v.toNat by omega]

theorem quadText_length (v : Word) : 7 ≤ (quadText v).length ∧ (quadText v).length ≤ 15 := by
  rw [quadText_eq]
  simp only [List.length_append, List.length_singleton]
  have a := decimal_length (x := v.toNat / 2 ^ 24)
  have b := decimal_length (x := v.toNat / 2 ^ 16 % 256)
  have c := decimal_length (x := v.toNat / 2 ^ 8 % 256)
  have d := decimal_length (x := v.toNat % 256)
  omega

end Sys2Proof.Machine
end

