-- ==== Sys2Proof/Laws/Decode.lean ====
section
/-! SUPPORT. The laws of the command word: its fields as numbers, and what the decoder answers on each opcode. -/

namespace Sys2Proof

theorem opcField_eq (w : Word) : opcField w = w.toNat % 256 := by
  simp only [opcField, BitVec.extractLsb'_toNat, Nat.shiftRight_zero, Nat.reducePow]

theorem idxField_eq (w : Word) : idxField w = w.toNat / 256 % 16 := by
  simp only [idxField, BitVec.extractLsb'_toNat, Nat.shiftRight_eq_div_pow, Nat.reducePow]

theorem rsvField_eq (w : Word) : rsvField w = w.toNat / 4096 := by
  have := w.isLt
  simp only [rsvField, BitVec.extractLsb'_toNat, Nat.shiftRight_eq_div_pow, Nat.reducePow]
  omega

theorem opcodeOf_lt (i : Instr) : opcodeOf i < 256 := by cases i <;> simp [opcodeOf]

theorem indexOf_lt {i : Instr} (h : i.wellFormed = true) : indexOf i < 16 := by
  cases i <;> simp_all [Instr.wellFormed, Instr.idxFits, indexOf]

/-- The encoding as a number: OPC + 256 · IDX (R68). -/
theorem encode_toNat {i : Instr} (h : indexOf i < 16) : (encode i).toNat = opcodeOf i + 256 * indexOf i := by
  have ho := opcodeOf_lt i
  rw [encode, BitVec.toNat_or, BitVec.toNat_shiftLeft, BitVec.toNat_ofNat, BitVec.toNat_ofNat,
    Nat.mod_eq_of_lt (by omega : opcodeOf i < 2 ^ 32), Nat.mod_eq_of_lt (by omega : indexOf i < 2 ^ 32),
    Nat.mod_eq_of_lt (by rw [Nat.shiftLeft_eq]; omega), Nat.or_comm,
    ← Nat.shiftLeft_add_eq_or_of_lt (by omega : opcodeOf i < 2 ^ 8), Nat.shiftLeft_eq]
  omega

theorem decodePlain_ok {idx : Nat} {i j : Instr} : decodePlain idx i = .ok j ↔ idx = 0 ∧ i = j := by
  unfold decodePlain
  split_ifs with h <;> simp [h]

/-- What the decoder answers, in terms of the command: OPC and IDX are the command's, and the command is well-formed where
the index fits. -/
theorem decodeFields_ok {opc idx : Nat} {i : Instr} :
    decodeFields opc idx = .ok i ↔ opc = opcodeOf i ∧ idx = indexOf i := by
  constructor
  · intro h
    unfold decodeFields at h
    split at h <;>
      first
      | (obtain ⟨h0, rfl⟩ := decodePlain_ok.1 h; exact ⟨rfl, h0⟩)
      | (cases h; exact ⟨rfl, rfl⟩)
      | cases h
  · rintro ⟨rfl, rfl⟩
    cases i <;> rfl

end Sys2Proof
end

