-- ==== Sys2Proof/Laws/Flags.lean ====
section
/-! SUPPORT. The bits of STATUS and of the flag masks, and the fresh draws of a soft reset. -/

namespace Sys2Proof.Machine

theorem bitWord_getLsbD (b : Bool) (k i : Nat) (hk : k < 32) : (bitWord b k).getLsbD i = (b && (i == k)) := by
  unfold bitWord
  cases b
  · simp
  · simp only [if_true, Bool.true_and, BitVec.getLsbD_shiftLeft]
    rcases lt_trichotomy i k with h | rfl | h
    · simp [h, beq_false_of_ne (show i ≠ k by omega)]
    · simp [hk]
    · simp [beq_false_of_ne (show i ≠ k by omega), show i - k ≠ 0 by omega, BitVec.getLsbD_one]

/-- Bit by bit, what a read of STATUS returns (R24). -/
theorem statusWord_getLsbD (t : Status) (i : Nat) : (statusWord t).getLsbD i =
    ((i == 0 && t.busy) || (i == 1 && t.done) || (i == 2 && t.err) || (i == 3 && t.test)
      || (i == 4 && t.pld) || (i == 8 && t.accBusy) || (i == 9 && t.busErr)) := by
  simp only [statusWord, BitVec.getLsbD_or, bitWord_getLsbD, Nat.reduceLT, Bool.and_comm]

@[simp] theorem statusWord_busy (t : Status) : (statusWord t).getLsbD 0 = t.busy := by
  rw [statusWord_getLsbD]
  simp

@[simp] theorem freshBytes_length (k n : Nat) : (freshBytes k n).length = n := by
  induction n generalizing k with
  | zero => rfl
  | succ n ih => simp [freshBytes, ih]

theorem byteAt_freshBytes {k n i : Nat} (h : i < n) : byteAt (freshBytes k n) i = Config.freshDraw (k + i) := by
  induction n generalizing k i with
  | zero => omega
  | succ n ih =>
    cases i with
    | zero => rfl
    | succ i =>
      have := ih (k := k + 1) (i := i) (by omega)
      simp only [byteAt, freshBytes, List.getD_cons_succ] at this ⊢
      rw [this]
      congr 1
      omega

end Sys2Proof.Machine
end

