-- ==== Sys2Proof/Laws/HostPort.lean ====
section
/-! SUPPORT. What a host access can do, said once: which target an offset reaches, and what each target's read and write
do while a command is in flight and while none is. -/

namespace Sys2Proof.Machine

/-! ### The register map -/

theorem regAt_regOffset (r : Reg) : regAt (regOffset r) = some r := by cases r <;> rfl

theorem regOffset_of_regAt {off : Nat} {r : Reg} (h : regAt off = some r) : regOffset r = off := by
  simpa using List.find?_some h

theorem regOffset_le (r : Reg) : regOffset r ≤ 0x064 ∧ regOffset r % 4 = 0 := by cases r <;> decide

/-- Every multiple of 4 up to 0x064 holds a register (R17). -/
theorem regAt_isSome {off : Nat} (h : off ≤ 0x064) (h4 : off % 4 = 0) : ∃ r, regAt off = some r := by
  obtain ⟨k, rfl⟩ : ∃ k, off = 4 * k := ⟨off / 4, by omega⟩
  have hk : k ≤ 25 := by omega
  interval_cases k <;> exact ⟨_, rfl⟩

theorem regAt_none {off : Nat} (h : ¬ (off ≤ 0x064 ∧ off % 4 = 0)) : regAt off = none := by
  cases hr : regAt off with
  | none => rfl
  | some r => exact absurd (regOffset_of_regAt hr ▸ regOffset_le r) h

/-! ### Targets -/

theorem target_register {s : State} {off : Addr} {r : Reg} (h : off.toNat = regOffset r) :
    target s off 32 = .register r := by
  obtain ⟨hle, h4⟩ := regOffset_le r
  rw [target, if_neg (by omega), if_neg (by rw [Config.windowBase]; omega), h, regAt_regOffset]

theorem target_window {s : State} {off : Addr} (h4 : off.toNat % 4 = 0) (h : 0x20000 ≤ off.toNat)
    (hp : off.toNat + 4 ≤ 0x20000 + s.cfg.pramSize) : target s off 32 = .window (off.toNat - 0x20000) := by
  rw [target, if_neg (by omega), if_pos (by rw [Config.windowBase]; omega), Config.windowBase]

theorem target_malformed {s : State} {off : Addr} {bits : Nat}
    (h : ¬ (bits = 32 ∧ off.toNat % 4 = 0 ∧
      (off.toNat ≤ 0x064 ∨ (0x20000 ≤ off.toNat ∧ off.toNat + 4 ≤ 0x20000 + s.cfg.pramSize)))) :
    target s off bits = .malformed := by
  rw [target]
  split_ifs with h1 h2
  · rfl
  · rw [Config.windowBase] at h2
    omega
  · rw [Config.windowBase] at h2
    rw [regAt_none (by omega)]

/-- A window target lies inside PRAM. -/
theorem target_window_inside {s : State} {off : Addr} {bits a : Nat} (h : target s off bits = .window a) :
    a + 4 ≤ s.cfg.pramSize := by
  rw [target, Config.windowBase] at h
  split_ifs at h with h1 h2
  · have := Target.window.inj h
    omega
  · split at h <;> cases h

/-! ### Accesses -/

theorem lockout_busy {s t : State} (h : s.status.busy = true) : lockout s t = setAccBusy s := by
  rw [lockout, if_pos h]

theorem lockout_idle {s t : State} (h : s.status.busy = false) : lockout s t = t := by
  rw [lockout, if_neg (by simp [h])]

/-- What a host write of a register can do: nothing, a write of CTRL or STATUS, a drop by the lockout, the acceptance of a
command, or a write of operand registers alone. -/
theorem writeReg_cases (v : Word) (s : State) (r : Reg) :
    writeReg v s r = s ∨
    (r = .ctrl ∧ writeReg v s r = writeCtrl v s) ∨
    (r = .status ∧ writeReg v s r = { s with status := statusAfterWrite s.status v }) ∨
    (s.status.busy = true ∧ writeReg v s r = setAccBusy s) ∨
    (s.status.busy = false ∧ r = .cmd ∧ writeReg v s r = accept v s) ∨
    (s.status.busy = false ∧ ∃ a n d ip tcp w, writeReg v s r =
      { s with srcAddr := a, srcLen := n, dstAddr := d, ip := ip, tcp := tcp, addrVal := w }) := by
  cases hb : s.status.busy <;> cases r <;>
    simp only [writeReg, lockout, hb, if_true, if_false, Bool.false_eq_true, reduceCtorEq, true_and, false_and, or_false,
      false_or, or_true, true_or] <;>
    first
    | trivial
    | (right; exact ⟨_, _, _, _, _, _, rfl⟩)

/-- What one aperture access can do to the state, apart from the data it returns. -/
theorem apertureAccess_cases (off : Addr) (bits : Nat) (op : BusOp) (s : State) :
    ∃ resp t, apertureAccess off bits op s = { t with response := resp } ∧
      (t = s ∨ t = setBusErr s ∨ (s.status.busy = true ∧ t = setAccBusy s) ∨
        (s.status.busy = false ∧ ∃ a v, a + 4 ≤ s.cfg.pramSize ∧ t = memWrite s a (be32 v)) ∨
        (∃ v r, op = .write v ∧ bits = 32 ∧ off.toNat = regOffset r ∧ t = writeReg v s r)) := by
  have hoff : ∀ r, target s off bits = .register r → bits = 32 ∧ off.toNat = regOffset r := by
    intro r hr
    rw [target] at hr
    split_ifs at hr with h1
    split at hr
    · rename_i r' hr'
      cases hr
      exact ⟨by omega, (regOffset_of_regAt hr').symm⟩
    · cases hr
  have hwin : ∀ a, target s off bits = .window a → a + 4 ≤ s.cfg.pramSize := fun a ha => target_window_inside ha
  cases op with
  | read =>
    refine ⟨_, (hostRead (target s off bits) s).1, rfl, ?_⟩
    cases target s off bits with
    | malformed => exact .inr (.inl rfl)
    | register r => exact .inl rfl
    | window a =>
      cases hb : s.status.busy
      · left; simp [hostRead, hb]
      · right; right; left; simp [hostRead, hb]
  | write v =>
    refine ⟨_, hostWrite (target s off bits) v s, rfl, ?_⟩
    cases ht : target s off bits with
    | malformed => exact .inr (.inl rfl)
    | register r => exact .inr (.inr (.inr (.inr ⟨v, r, rfl, (hoff r ht).1, (hoff r ht).2, rfl⟩)))
    | window a =>
      cases hb : s.status.busy
      · exact .inr (.inr (.inr (.inl ⟨rfl, a, v, hwin a ht, by rw [hostWrite, lockout_idle hb]⟩)))
      · exact .inr (.inr (.inl ⟨rfl, by rw [hostWrite, lockout_busy hb]⟩))

/-- What one bus access can do: reach the aperture, or return nothing. -/
theorem busAccess_cases (a : HostAccess) (s : State) :
    busAccess a s = { s with response := none } ∨
      ∃ off, apertureOffset s.cfg a.addr = some off ∧ busAccess a s = apertureAccess off a.bits a.op s := by
  rw [busAccess]
  cases apertureOffset s.cfg a.addr with
  | none => exact .inl rfl
  | some off => exact .inr ⟨off, rfl, rfl⟩

end Sys2Proof.Machine
end

