-- ==== Sys2Proof/Laws/PerInstr.lean ====
section
/-! SUPPORT. Statements made once per command: encoding a command and decoding the word gives the command back, with every
index the IDX field admits. -/

namespace Sys2Proof.Laws.RoundTrip

/-- Decoding the encoding of a well-formed command gives it back (R68–R74). -/
def Statement (i : Instr) : Prop := i.wellFormed = true → decode (encode i) = .ok i

theorem of_fields (i : Instr) : Statement i := by
  intro h
  have hi := indexOf_lt h
  have ho := opcodeOf_lt i
  have he := encode_toNat hi
  rw [decode, rsvField_eq, opcField_eq, idxField_eq, he, if_pos (by omega)]
  exact decodeFields_ok.2 ⟨by omega, by omega⟩

theorem cksum : Statement .cksum := of_fields _
theorem pcksum : Statement .pcksum := of_fields _
theorem ipdec : Statement .ipdec := of_fields _
theorem ipenc : Statement .ipenc := of_fields _
theorem tcpdec : Statement .tcpdec := of_fields _
theorem tcpenc : Statement .tcpenc := of_fields _
theorem fset (idx : Nat) : Statement (.fset idx) := of_fields _
theorem fclr (idx : Nat) : Statement (.fclr idx) := of_fields _
theorem ftest (idx : Nat) : Statement (.ftest idx) := of_fields _
theorem aton : Statement .aton := of_fields _
theorem ntoa : Statement .ntoa := of_fields _

end Sys2Proof.Laws.RoundTrip
end

