-- ==== Sys2Proof/Laws/Step.lean ====
section
/-! SUPPORT. What one step can do, said once: the engine's turn ends the command in flight with its writes or with none,
and the host's turn takes its next line. -/

namespace Sys2Proof.Machine

theorem engineMoves_iff (s : State) :
    engineMoves s = true ↔ s.status.busy = true ∧ (s.engineWait = 0 ∨ s.host = []) := by
  simp [engineMoves]

/-- A step is the engine's turn or the host's, and which one is decided by BUSY, the latency left and the host's program. -/
theorem step_cases {s t : State} (h : step s = .next t) :
    (s.status.busy = true ∧ (s.engineWait = 0 ∨ s.host = []) ∧ engineTurn s = .next t) ∨
    ((s.status.busy = false ∨ (s.engineWait ≠ 0 ∧ s.host ≠ [])) ∧ t = hostTurn s) := by
  rw [step] at h
  split_ifs at h with hm
  · obtain ⟨h1, h2⟩ := (engineMoves_iff s).1 hm
    exact .inl ⟨h1, h2, h⟩
  · refine .inr ⟨?_, (Host.Outcome.next.inj h).symm⟩
    rw [engineMoves_iff, not_and_or, not_or, Bool.not_eq_true] at hm
    exact hm

/-- A step always answers a next state: the block never stops (R107). -/
theorem step_next (s : State) : ∃ t, step s = .next t := by
  rw [step]
  split_ifs
  · unfold engineTurn
    cases decode s.cmd with
    | ok i => exact exec_next i s
    | error e => exact ⟨_, rfl⟩
  · exact ⟨_, rfl⟩

/-- A run begins with its first step. -/
theorem core_run_succ {s t : State} (h : step s = .next t) (n : Nat) :
    Sys2Proof.core.run (n + 1) s = Sys2Proof.core.run n t := by
  have hs : ∀ (M : Host.Core) (s t : M.State), M.step s = .next t → M.run (n + 1) s = M.run n t := by
    intro M s t h
    simp only [Host.Core.run, h]
  exact hs Sys2Proof.core s t h

/-- The engine's turn completes the state it found, or that state with the decoded command's writes. -/
theorem engineTurn_cases {s t : State} (h : engineTurn s = .next t) :
    ∃ e u, t = complete e u ∧ (u = s ∨ ∃ i, decode s.cmd = .ok i ∧ commandResult i s = .ok u) := by
  unfold engineTurn at h
  cases hd : decode s.cmd with
  | error e => rw [hd] at h; cases h; exact ⟨_, _, rfl, .inl rfl⟩
  | ok i =>
    rw [hd] at h
    rcases exec_cases h with ⟨u, hu, rfl⟩ | ⟨e, -, -, rfl⟩
    · exact ⟨_, _, rfl, .inr ⟨i, rfl, hu⟩⟩
    · exact ⟨_, _, rfl, .inl rfl⟩

/-- A well-formed register read returns the register and changes nothing else (R58). -/
theorem apertureAccess_readReg (s : State) {off : Addr} {r : Reg} (h : off.toNat = regOffset r) :
    apertureAccess off 32 .read s = { s with response := some (readReg s r) } := by
  simp only [apertureAccess, target_register h, hostRead]

/-- A well-formed register write is `writeReg`. -/
theorem apertureAccess_writeReg (s : State) {off : Addr} {r : Reg} (v : Word) (h : off.toNat = regOffset r) :
    apertureAccess off 32 (.write v) s = { writeReg v s r with response := none } := by
  simp only [apertureAccess, target_register h, hostWrite]

/-- The read of STATUS that `wait` repeats (R80). -/
theorem busAccess_readStatus (s : State) :
    busAccess (readStatusAccess s) s = { s with response := some (readReg s .status) } := by
  have h : apertureOffset s.cfg (readStatusAccess s).addr = some 0x10 := by
    rw [apertureOffset, readStatusAccess, if_pos (by simp [regOffset, Config.apertureBytes])]
    simp [regOffset]
  rw [busAccess, h]
  exact apertureAccess_readReg s (off := 0x10) (r := .status) rfl

/-- The host's turn: nothing left to do, its next access, or one turn of `wait`. -/
theorem hostTurn_cases (s : State) :
    (s.host = [] ∧ hostTurn s = s) ∨
    (∃ a rest, s.host = .access a :: rest ∧ hostTurn s = busAccess a (takeLine rest s)) ∨
    (∃ rest, s.host = .wait :: rest ∧ hostTurn s =
      { s with
        host := if s.status.busy then s.host else rest
        engineWait := s.engineWait - 1
        response := some (readReg s .status) }) := by
  unfold hostTurn
  cases hh : s.host with
  | nil => exact .inl ⟨rfl, rfl⟩
  | cons o rest =>
    cases o with
    | access a => exact .inr (.inl ⟨a, rest, rfl, rfl⟩)
    | wait =>
      refine .inr (.inr ⟨rest, rfl, ?_⟩)
      show waitTurn (takeLine rest s) = _
      have hsaw : sawBusy { takeLine rest s with response := some (readReg (takeLine rest s) .status) } = s.status.busy :=
        statusWord_busy s.status
      rw [waitTurn, busAccess_readStatus, stayWhileBusy, hsaw]
      cases s.status.busy <;> rfl

/-- A host access takes no line of the host's program. -/
@[simp] theorem busAccess_host (a : HostAccess) (s : State) : (busAccess a s).host = s.host := by
  rcases busAccess_cases a s with h | ⟨off, -, h⟩ <;> rw [h]
  obtain ⟨r, t, h, hc⟩ := apertureAccess_cases off a.bits a.op s
  rw [h]
  rcases hc with rfl | rfl | ⟨-, rfl⟩ | ⟨-, a, v, -, rfl⟩ | ⟨v, r, -, -, -, rfl⟩
  · rfl
  · rfl
  · rfl
  · simp
  · rcases writeReg_cases v s r with h | ⟨-, h⟩ | ⟨-, h⟩ | ⟨-, h⟩ | ⟨-, -, h⟩ | ⟨-, _, _, _, _, _, _, h⟩ <;> rw [h] <;>
      try rfl
    unfold writeCtrl
    split_ifs <;> rfl

/-- A command's writes leave the build and the host's program. -/
theorem commandResult_keeps {i : Instr} {s u : State} (h : commandResult i s = .ok u) : u.host = s.host ∧ u.cfg = s.cfg := by
  cases i <;> simp only [commandResult] at h
  case cksum => obtain ⟨-, rfl⟩ := cksumResult_ok.1 h; exact ⟨rfl, rfl⟩
  case pcksum => obtain ⟨-, -, rfl⟩ := pcksumResult_ok.1 h; exact ⟨rfl, rfl⟩
  case ipdec => obtain ⟨-, -, rfl⟩ := ipdecResult_ok.1 h; exact ⟨rfl, rfl⟩
  case ipenc => obtain ⟨-, -, -, -, -, -, rfl⟩ := ipencResult_ok.1 h; simp [emit]
  case tcpdec => obtain ⟨-, -, -, rfl⟩ := tcpdecResult_ok.1 h; exact ⟨rfl, rfl⟩
  case tcpenc => obtain ⟨-, -, -, -, -, -, rfl⟩ := tcpencResult_ok.1 h; simp [emit]
  case fset => obtain ⟨-, rfl⟩ := withFlagIndex_ok.1 h; exact ⟨rfl, rfl⟩
  case fclr => obtain ⟨-, rfl⟩ := withFlagIndex_ok.1 h; exact ⟨rfl, rfl⟩
  case ftest => obtain ⟨-, rfl⟩ := withFlagIndex_ok.1 h; exact ⟨rfl, rfl⟩
  case aton => obtain ⟨-, _, _, _, _, -, -, -, -, -, rfl⟩ := atonResult_ok.1 h; exact ⟨rfl, rfl⟩
  case ntoa => obtain ⟨-, rfl⟩ := ntoaResult_ok.1 h; simp [ntoaWrites]

/-- A command whose row does not write STATUS.TEST leaves it (R72). -/
theorem commandResult_test {i : Instr} {s u : State} (hw : writesTest i = false) (h : commandResult i s = .ok u) :
    u.status.test = s.status.test := by
  cases i <;> simp only [commandResult] at h
  case cksum => obtain ⟨-, rfl⟩ := cksumResult_ok.1 h; exact rfl
  case pcksum => obtain ⟨-, -, rfl⟩ := pcksumResult_ok.1 h; exact rfl
  case ipdec => obtain ⟨-, -, rfl⟩ := ipdecResult_ok.1 h; exact rfl
  case ipenc => obtain ⟨-, -, -, -, -, -, rfl⟩ := ipencResult_ok.1 h; exact by simp [emit]
  case tcpdec => obtain ⟨-, -, -, rfl⟩ := tcpdecResult_ok.1 h; exact rfl
  case tcpenc => obtain ⟨-, -, -, -, -, -, rfl⟩ := tcpencResult_ok.1 h; exact by simp [emit]
  case fset => obtain ⟨-, rfl⟩ := withFlagIndex_ok.1 h; exact rfl
  case fclr => obtain ⟨-, rfl⟩ := withFlagIndex_ok.1 h; exact rfl
  case ftest => cases hw
  case aton => obtain ⟨-, _, _, _, _, -, -, -, -, -, rfl⟩ := atonResult_ok.1 h; exact rfl
  case ntoa => obtain ⟨-, rfl⟩ := ntoaResult_ok.1 h; exact by simp [ntoaWrites]

/-- A command whose row does not write STATUS.PLD leaves it (R72). -/
theorem commandResult_pld {i : Instr} {s u : State} (hw : writesPld i = false) (h : commandResult i s = .ok u) :
    u.status.pld = s.status.pld := by
  cases i <;> simp only [commandResult] at h
  case cksum => obtain ⟨-, rfl⟩ := cksumResult_ok.1 h; exact rfl
  case pcksum => obtain ⟨-, -, rfl⟩ := pcksumResult_ok.1 h; exact rfl
  case ipdec => cases hw
  case ipenc => obtain ⟨-, -, -, -, -, -, rfl⟩ := ipencResult_ok.1 h; exact by simp [emit]
  case tcpdec => cases hw
  case tcpenc => obtain ⟨-, -, -, -, -, -, rfl⟩ := tcpencResult_ok.1 h; exact by simp [emit]
  case fset => obtain ⟨-, rfl⟩ := withFlagIndex_ok.1 h; exact rfl
  case fclr => obtain ⟨-, rfl⟩ := withFlagIndex_ok.1 h; exact rfl
  case ftest => obtain ⟨-, rfl⟩ := withFlagIndex_ok.1 h; exact rfl
  case aton => obtain ⟨-, _, _, _, _, -, -, -, -, -, rfl⟩ := atonResult_ok.1 h; exact rfl
  case ntoa => obtain ⟨-, rfl⟩ := ntoaResult_ok.1 h; exact by simp [ntoaWrites]

end Sys2Proof.Machine
end

