-- ==== Sys2Proof/Tests/Slice0.lean ====
section
/-! SUPPORT. The model's own tests. Expected words come from 30_encoding.md R74, expected results from the worked examples
of 40_checksum.md to 43_address.md and from the vectors of 95_test_vectors.md, named at each test. Then one witness for
the hypotheses of each statement that has some, at the boundaries of its clauses. -/

namespace Sys2Proof.Machine.Tests

-- One theorem after another: each kernel evaluation below would otherwise hold a thread of its own, and so many threads
-- come close to the memory limit of the check.
set_option Elab.async false

/-! ### Helpers -/

/-- The state a command leaves, from its completion step. -/
def after (i : Instr) (s : State) : Option State :=
  match exec i s with
  | .next t => some t
  | _ => none

/-- The state one step leaves. -/
def stepped (s : State) : Option State :=
  match step s with
  | .next t => some t
  | _ => none

/-- Reset, with bytes at an address and the source region over them. -/
def withSource (a : Nat) (bs : List Byte) : State :=
  { memWrite State.reset a bs with srcAddr := BitVec.ofNat 18 a, srcLen := BitVec.ofNat 18 bs.length }

/-- Addresses A = 10.0.0.1 and B = 10.0.0.2 of 95_test_vectors.md, in the IPv4 address registers. -/
def withAddresses (s : State) : State := { s with ip := { s.ip with w3 := 0x0A000001, w4 := 0x0A000002 } }

/-- V-CK10: an IPv4 header whose checksum is right. -/
def header : List Byte :=
  [0x45, 0x00, 0x00, 0x73, 0x00, 0x00, 0x40, 0x00, 0x40, 0x11,
    0xB8, 0x61, 0xC0, 0xA8, 0x00, 0x01, 0xC0, 0xA8, 0x00, 0xC7]

/-- V-TE1: the ACK segment of a handshake. -/
def segment : List Byte :=
  [0xC3, 0x50, 0x00, 0x50, 0x00, 0x00, 0x01, 0xF5, 0x00, 0x00,
    0x03, 0xE9, 0x50, 0x10, 0xFF, 0xFF, 0xD2, 0x53, 0x00, 0x00]

/-- V-IE3: the operands of an IPENC with four option bytes and the payload "hi". -/
def ipencState : State :=
  { withSource 0x100 [0x01, 0x01, 0x01, 0x00, 0x68, 0x69] with
    dstAddr := 0x400
    ip := { w0 := 0x4600001A, w1 := 0x00010000, w2 := 0x40060000, w3 := 0x0A000001, w4 := 0x0A000002 } }

/-- V-TE14: the operands of a TCPENC with one payload byte and an urgent pointer. -/
def tcpencState : State :=
  { withAddresses (withSource 0x100 [0x78]) with
    dstAddr := 0x200
    tcp := { w0 := 0xC3500050, w1 := 0x000001F5, w2 := 0x000003E9, w3 := 0x5030FFFF, w4 := 0x00000007 } }

/-- "10.0.0.1" at PRAM 0 (R104's example). -/
def atonState : State := withSource 0 [0x31, 0x30, 0x2E, 0x30, 0x2E, 0x30, 0x2E, 0x31]

/-- ADDR_VAL and DST_ADDR of R105's example. -/
def ntoaState : State := { State.reset with addrVal := 0xC0A80001, dstAddr := 0x100 }

/-- A command in flight, with one host access left before it completes. -/
def busyState (w : Word) : State :=
  { issued w State.reset with engineWait := 1, host := [lineRd Config.default .status] }

/-- Whether the source region is in range. -/
def srcFits (s : State) : Bool := decide (s.srcAddr.toNat + s.srcLen.toNat ≤ s.cfg.pramSize)

/-- What an encoder's clauses look at, for a header of `words` words: source in range, destination in range, overlap, at
least five words, options present. -/
def encodeView (s : State) (words : Nat) : Bool × Bool × Bool × Bool × Bool :=
  (srcFits s, decide (s.dstAddr.toNat + 20 + s.srcLen.toNat ≤ s.cfg.pramSize),
    decide (0 < s.srcLen.toNat ∧ s.srcAddr.toNat < s.dstAddr.toNat + 20 + s.srcLen.toNat ∧
      s.dstAddr.toNat < s.srcAddr.toNat + s.srcLen.toNat),
    decide (5 ≤ words), decide (4 * words - 20 ≤ s.srcLen.toNat))

/-! ### WellFormed refuses each ill-formed term -/

theorem test_wellFormed_fset_16 : Instr.wellFormed (.fset 16) = false := by decide
theorem test_wellFormed_fclr_16 : Instr.wellFormed (.fclr 16) = false := by decide
theorem test_wellFormed_ftest_16 : Instr.wellFormed (.ftest 16) = false := by decide
theorem test_wellFormed_accepts :
    Instr.wellFormed (.fset 15) = true ∧ Instr.wellFormed (.fclr 0) = true ∧ Instr.wellFormed .cksum = true := by decide

/-! ### Decoding: a word of every row of R74, written bit by bit -/

theorem test_decode_cksum : decode 0b00000000000000000000000000000001 = .ok .cksum := by decide
theorem test_decode_pcksum : decode 0b00000000000000000000000000000010 = .ok .pcksum := by decide
theorem test_decode_ipdec : decode 0b00000000000000000000000000010000 = .ok .ipdec := by decide
theorem test_decode_ipenc : decode 0b00000000000000000000000000010001 = .ok .ipenc := by decide
theorem test_decode_tcpdec : decode 0b00000000000000000000000000100000 = .ok .tcpdec := by decide
theorem test_decode_tcpenc : decode 0b00000000000000000000000000100001 = .ok .tcpenc := by decide
/-- R96's example: `cmd FSET, SYN`. -/
theorem test_decode_fset : decode 0b00000000000000000000000100101000 = .ok (.fset 1) := by decide
/-- R97's example: `cmd FCLR, ACK`. -/
theorem test_decode_fclr : decode 0b00000000000000000000010000101001 = .ok (.fclr 4) := by decide
/-- R98's example: `cmd FTEST, RST`; and the largest index the field holds (R70). -/
theorem test_decode_ftest :
    decode 0b00000000000000000000001000101010 = .ok (.ftest 2) ∧
      decode 0b00000000000000000000111100101010 = .ok (.ftest 15) := by decide
theorem test_decode_aton : decode 0b00000000000000000000000000110000 = .ok .aton := by decide
theorem test_decode_ntoa : decode 0b00000000000000000000000000110001 = .ok .ntoa := by decide

/-- R71: the zero word, an unlisted opcode, a stray index (P5's word 0x110) and a reserved bit are illegal. -/
theorem test_decode_illegal :
    decode 0x00000000 = .error .unknownOpcode ∧ decode 0x00000003 = .error .unknownOpcode ∧
      decode 0x00000110 = .error .strayFlagIndex ∧ decode 0x00001028 = .error .reservedBitsSet ∧
      decode 0x80000001 = .error .reservedBitsSet := by decide

/-- R80: `cmd M, i` writes the word of R74. -/
theorem test_encode : encode .tcpenc = 0x00000021 ∧ encode (.fset 1) = 0x00000128 ∧ encode (.ftest 2) = 0x0000022A := by
  decide

theorem test_decodeTableWord :
    decodeTableWord 32 0x0000022A = some (.ftest 2) ∧ decodeTableWord 32 0x00000110 = none := by decide

/-- The placed word is the very next command to complete. -/
theorem test_withFetchWord :
    ((stepped (State.reset.withFetchWord 32 0x00000001)).map fun t => (t.cmd, t.cksum, t.errcode, t.status.done))
      = some (0x00000001, 0xFFFF, 0x00, true) := by decide +kernel

/-! ### One step of each command -/

/-- V-CK8. -/
theorem test_cksum : (after .cksum (withSource 0 [0x00, 0x01, 0xF2, 0x03, 0xF4, 0xF5, 0xF6, 0xF7])).map (·.cksum)
    = some 0x220D := by decide +kernel

/-- V-CK13, an odd length at an odd address; V-CK16, past the end. -/
theorem test_cksum_odd_and_range :
    (after .cksum (withSource 0x101 [0x12, 0x34, 0x56])).map (·.cksum) = some 0x97CB ∧
      (after .cksum { State.reset with srcAddr := 0x20000, srcLen := 1 }).map (·.errcode) = some 0x02 := by
  decide +kernel

/-- V-PC1 and V-PC2. -/
theorem test_pcksum :
    (after .pcksum (withAddresses State.reset)).map (·.cksum) = some 0xEBF6 ∧
      (after .pcksum (withAddresses (withSource 0 segment))).map (·.cksum) = some 0x0000 := by decide +kernel

/-- V-PC6. -/
theorem test_pcksum_too_long : (after .pcksum { State.reset with srcLen := 0x10000 }).map (·.errcode) = some 0x08 := by
  decide +kernel

/-- V-ID1. -/
theorem test_ipdec : (after .ipdec (withSource 0 header)).map (fun t => (t.ip, t.pldOff, t.status.pld, t.cksum))
    = some (⟨0x45000073, 0x00004000, 0x4011B861, 0xC0A80001, 0xC0A800C7⟩, 0x14, false, 0x0000) := by decide +kernel

/-- V-ID7 and V-ID8: a header length below 5 words, and one longer than the region. -/
theorem test_ipdec_malformed :
    (after .ipdec (withSource 0 (0x44 :: header.drop 1))).map (·.errcode) = some 0x04 ∧
      (after .ipdec (withSource 0 (0x46 :: header.drop 1))).map (·.errcode) = some 0x04 := by decide +kernel

/-- V-IE3: the frame with its options, and its checksum. -/
theorem test_ipenc : (after .ipenc ipencState).map (fun t => (t.resultLen, t.cksum, memRead t 0x400 26))
    = some (26, 0x63DA,
      [0x46, 0x00, 0x00, 0x1A, 0x00, 0x01, 0x00, 0x00, 0x40, 0x06, 0x63, 0xDA, 0x0A, 0x00, 0x00, 0x01, 0x0A, 0x00, 0x00,
        0x02, 0x01, 0x01, 0x01, 0x00, 0x68, 0x69]) := by decide +kernel

/-- V-IE11 and V-IE12: an output that covers the source's first byte, and an adjacent one. -/
theorem test_ipenc_overlap :
    (after .ipenc { withSource 0x114 [0, 0, 0, 0] with
        dstAddr := 0x100, ip := { ipencState.ip with w0 := 0x45000018 } }).map (·.errcode) = some 0x03 ∧
      (after .ipenc { withSource 0x118 [0, 0, 0, 0] with
        dstAddr := 0x100, ip := { ipencState.ip with w0 := 0x45000018 } }).map (·.errcode) = some 0x00 := by
  decide +kernel

/-- V-TD1, with the addresses in the other order (V-TD2). -/
theorem test_tcpdec : (after .tcpdec (withAddresses (withSource 0
      [0x00, 0x50, 0xC3, 0x50, 0x00, 0x00, 0x03, 0xE8, 0x00, 0x00, 0x01, 0xF5, 0x50, 0x12, 0xFF, 0xFF, 0xD2, 0x52,
        0x00, 0x00]))).map (fun t => (t.tcp, t.pldLen, t.cksum))
    = some (⟨0x0050C350, 0x000003E8, 0x000001F5, 0x5012FFFF, 0xD2520000⟩, 0, 0x0000) := by decide +kernel

/-- V-TD10: DOFF 6 in a region of 20 bytes. -/
theorem test_tcpdec_malformed :
    (after .tcpdec (withSource 0 (segment.set 12 0x60))).map (·.errcode) = some 0x04 := by decide +kernel

/-- V-TE14. -/
theorem test_tcpenc : (after .tcpenc tcpencState).map (fun t => (t.resultLen, t.cksum, memRead t 0x200 21))
    = some (21, 0x5A2B,
      [0xC3, 0x50, 0x00, 0x50, 0x00, 0x00, 0x01, 0xF5, 0x00, 0x00, 0x03, 0xE9, 0x50, 0x30, 0xFF, 0xFF, 0x5A, 0x2B, 0x00,
        0x07, 0x78]) := by decide +kernel

/-- V-TE15 and V-TE16: DOFF 4, and DOFF 6 without options. -/
theorem test_tcpenc_errors :
    (after .tcpenc { tcpencState with srcLen := 0, tcp := { tcpencState.tcp with w3 := 0x4010FFFF } }).map (·.errcode)
        = some 0x05 ∧
      (after .tcpenc { tcpencState with srcLen := 0, tcp := { tcpencState.tcp with w3 := 0x6010FFFF } }).map (·.errcode)
        = some 0x06 := by decide +kernel

/-- R96's example. -/
theorem test_fset : (after (.fset 1) { State.reset with tcp := { HeaderRegs.zero with w3 := 0x50000000 } }).map (·.tcp.w3)
    = some 0x50020000 := by decide +kernel

/-- R96: index 9 raises BAD_FLAG_INDEX and writes nothing. -/
theorem test_fset_index : (after (.fset 9) State.reset).map (fun t => (t.errcode, t.tcp.w3)) = some (0x0A, 0) := by
  decide +kernel

/-- R97's example. -/
theorem test_fclr : (after (.fclr 4) { State.reset with tcp := { HeaderRegs.zero with w3 := 0x5012FFFF } }).map (·.tcp.w3)
    = some 0x5002FFFF := by decide +kernel

/-- R98's examples. -/
theorem test_ftest :
    (after (.ftest 1) { State.reset with tcp := { HeaderRegs.zero with w3 := 0x5012FFFF } }).map (·.status.test)
        = some true ∧
      (after (.ftest 2) { State.reset with tcp := { HeaderRegs.zero with w3 := 0x5012FFFF } }).map (·.status.test)
        = some false := by decide +kernel

/-- R104's example. -/
theorem test_aton : (after .aton atonState).map (·.addrVal) = some 0x0A000001 := by decide +kernel

/-- R104: "010.0.0.1" is decimal; "1..2.3" and "256.0.0.1" are refused. -/
theorem test_aton_forms :
    (after .aton (withSource 0 [0x30, 0x31, 0x30, 0x2E, 0x30, 0x2E, 0x30, 0x2E, 0x31])).map (·.addrVal) = some 0x0A000001 ∧
      (after .aton (withSource 0 [0x31, 0x2E, 0x2E, 0x32, 0x2E, 0x33])).map (·.errcode) = some 0x09 ∧
      (after .aton (withSource 0 [0x32, 0x35, 0x36, 0x2E, 0x30, 0x2E, 0x30, 0x2E, 0x31])).map (·.errcode) = some 0x09 := by
  decide +kernel

/-- R105's example. -/
theorem test_ntoa : (after .ntoa ntoaState).map (fun t => (t.resultLen, memRead t 0x100 11))
    = some (11, [0x31, 0x39, 0x32, 0x2E, 0x31, 0x36, 0x38, 0x2E, 0x30, 0x2E, 0x31]) := by decide +kernel

/-- R105: the same address fits "0.0.0.0" and not "255.255.255.255". -/
theorem test_ntoa_range :
    (after .ntoa { State.reset with dstAddr := 0x1FFF9 }).map (·.errcode) = some 0x00 ∧
      (after .ntoa { State.reset with dstAddr := 0x1FFF9, addrVal := 0xFFFFFFFF }).map (·.errcode) = some 0x02 := by
  decide +kernel

/-! ### One step of the host -/

/-- P6: a window read while a command is in flight returns 0 and sets ACC_BUSY; STATUS then reads 0x101. -/
theorem test_lockout :
    (stepped { busyState 0x00000001 with host := [lineRdm Config.default 0] }).map
      (fun t => (t.response, readReg t .status)) = some (some 0, 0x00000101) := by decide +kernel

/-- P6: a soft reset by CTRL = 2 leaves every register at its reset value. -/
theorem test_soft_reset :
    (stepped { withAddresses State.reset with irqEn := true, host := [lineWr Config.default .ctrl 2] }).map
      (fun t => (t.irqEn, t.ip.w3, t.status)) = some (false, 0, Status.zero) := by decide +kernel

/-- R53: a window write stores the most significant byte at the lowest address. -/
theorem test_window_write :
    (stepped { State.reset with host := [lineWrm Config.default 4 0x00010203] }).map (fun t => memRead t 4 4)
      = some [0x00, 0x01, 0x02, 0x03] := by decide +kernel

/-- R52: an unaligned access, a half-word access and an unmapped offset set BUS_ERR. -/
theorem test_malformed :
    (apertureAccess 0x002 32 .read State.reset).status.busErr = true ∧
      (apertureAccess 0x018 16 (.write 1) State.reset).srcAddr = 0 ∧
      (apertureAccess 0x068 32 .read State.reset).response = some 0 := by decide +kernel

/-- R121: what reset leaves. -/
theorem test_reset : readReg State.reset .id = 0x54454143 ∧ readReg State.reset .version = 0x00010000 ∧
    readReg State.reset .status = 0 ∧ State.reset.pram.wf = true := by decide

/-! ### Witnesses: the hypotheses of the statements are met -/

theorem witness_DecodeInvertsEncode : Instr.wellFormed (.ftest 15) = true ∧ encode (.ftest 15) = 0x00000F2A := by decide

theorem witness_IllegalWordCompletesWithIllegalCmd :
    IllegalWord 0x00000003 ∧ IllegalWord 0x00001028 ∧ IllegalWord 0x00000110 ∧
      (issued 0 State.reset).cmd = 0 ∧ (issued 0 State.reset).status.busy = true ∧
      (issued 0 State.reset).engineWait = 0 ∧ State.reset.status.busy = false :=
  ⟨.inl (by decide), .inr (.inl (by decide)), .inr (.inr (by decide)), by decide, by decide, by decide, by decide⟩

theorem witness_EngineStepRunsDecodedCommand :
    (issued 0x00000128 State.reset).status.busy = true ∧ (issued 0x00000128 State.reset).engineWait = 0 ∧
      decode (issued 0x00000128 State.reset).cmd = .ok (.fset 1) := by decide

theorem witness_HostStepPerformsNextAccess :
    (busyState 1).host = .access ⟨0x010, 32, .read⟩ :: [] ∧ (busyState 1).engineWait ≠ 0 ∧
      State.reset.host = [] ∧ State.reset.status.busy = false := by decide

theorem witness_WaitRepeatsStatusReads :
    ({ busyState 1 with host := [.wait] } : State).host = .wait :: [] ∧
      ({ busyState 1 with host := [.wait] } : State).status.busy = true ∧
      ({ busyState 1 with host := [.wait] } : State).engineWait ≠ 0 ∧
      ({ State.reset with host := [.wait] } : State).status.busy = false := by decide

theorem witness_StepsAreTheAllowedInterleavings :
    step State.reset = .next State.reset ∧ MayStep (busyState 0) (hostTurn (busyState 0)) ∧
      MayStep (busyState 0) (complete .illegalCmd (busyState 0)) :=
  ⟨rfl, .inr ⟨by decide, rfl⟩, .inl ⟨rfl, rfl⟩⟩

theorem witness_CommandWriteAccepted :
    State.reset.status.busy = false ∧ State.reset.host = [] ∧ decode 0x00000031 = .ok .ntoa ∧
      (busyState 1).status.busy = true := by decide

theorem witness_BusyLockout :
    (busyState 1).status.busy = true ∧
      (∀ off ∈ [0x00C, 0x018, 0x020, 0x02C, 0x054, 0x20000, 0x3FFFC, 0x010, 0x008, 0x000, 0x058, 0x064],
        (BitVec.ofNat 18 off).toNat = off ∧ off % 4 = 0) ∧
      0x3FFFC + 4 ≤ 0x20000 + (busyState 1).cfg.pramSize ∧ regOffset .pldLen = 0x064 ∧
      (0x00000002 : Word).getLsbD 1 = true ∧ (0x00000001 : Word).getLsbD 1 = false := by decide

theorem witness_MalformedAccessSetsBusErrOnly :
    ¬ (16 = 32) ∧ ¬ ((0x002 : Addr).toNat % 4 = 0) ∧
      ¬ ((0x068 : Addr).toNat ≤ 0x064 ∨ 0x20000 ≤ (0x068 : Addr).toNat) ∧
      ¬ (0x20040 + 4 ≤ 0x20000 + (State.powerOn ⟨64, 0⟩).cfg.pramSize) := by decide

theorem witness_PramWindow :
    (0x3FFFC : Addr).toNat = 0x20000 + 131068 ∧ 131068 % 4 = 0 ∧ 131068 + 4 ≤ State.reset.cfg.pramSize ∧
      State.reset.status.busy = false ∧ (busyState 1).status.busy = true := by decide

theorem witness_OperandRegisterWrites : State.reset.status.busy = false := by decide

theorem witness_ControlWrite :
    (0x00000003 : Word).getLsbD 1 = true ∧ (0x00000001 : Word).getLsbD 1 = false := by decide

theorem witness_SoftReset :
    (0x00000002 : Word).getLsbD 1 = true ∧ decode (busyState 0x31).cmd = .ok .ntoa ∧ (busyState 0x31).status.busy = true ∧
      7 = min (storedLen .ntoa (busyState 0x31)) ((busyState 0x31).cfg.pramSize - (busyState 0x31).dstAddr.toNat) ∧
      (∃ e, decode (busyState 0).cmd = .error e) ∧ State.reset.status.busy = false :=
  ⟨by decide, by decide, by decide, by decide, ⟨.unknownOpcode, by decide⟩, by decide⟩

/-- An NTOA whose text would reach past PRAM, so that the abandoned region is clipped. -/
theorem witness_SoftReset_clipped :
    4 = min (storedLen .ntoa { busyState 0x31 with dstAddr := 0x1FFFC })
      (({ busyState 0x31 with dstAddr := 0x1FFFC } : State).cfg.pramSize
        - ({ busyState 0x31 with dstAddr := 0x1FFFC } : State).dstAddr.toNat) := by decide

theorem witness_PowerOnReset : Reg.pldLen ≠ .id ∧ Reg.pldLen ≠ .version := by decide

theorem witness_InterruptOutput :
    (∃ t, exec .cksum State.reset = .next t) ∧ (0x00000002 : Word).getLsbD 1 = true ∧
      State.reset.status.busy = false ∧ (0x00000000 : Word).getLsbD 0 = false ∧
      target State.reset 0x068 32 = .malformed :=
  ⟨exec_next _ _, by decide, by decide, by decide, by decide⟩

/-- The first and the last offset of the aperture, and the addresses next to it on both sides, in a build at 0x40000. -/
theorem witness_ApertureAtBase :
    0x40000 = (Config.mk 64 0x40000).tpcBase + (0x00000 : Addr).toNat ∧
      0x7FFFF = (Config.mk 64 0x40000).tpcBase + (0x3FFFF : Addr).toNat ∧
      0x3FFFF < (Config.mk 64 0x40000).tpcBase ∧ (Config.mk 64 0x40000).tpcBase + 0x40000 ≤ 0x80000 := by decide

theorem witness_OperandsHeldWhileInFlight :
    (busyState 1).status.busy = true ∧ (busAccess ⟨0x01C, 32, .write 2⟩ (busyState 1)).status.busy = true := by
  decide +kernel

/-- A step that accepts a command, and a step that completes one with an error. -/
theorem witness_StatusChangesOnlyByItsEvents :
    ((stepped { State.reset with host := [lineWr Config.default .cmd 1] }).map (·.status.busy)) = some true ∧
      ((stepped (issued 0 State.reset)).map fun t => (t.status.busy, t.status.done, t.status.err, t.errcode)) =
        some (false, true, true, 0x01) := by
  decide +kernel

/-- DONE falls at an acceptance, at a write of 1 to it, and at a soft reset; BUSY falls at a soft reset. -/
theorem witness_StatusChangesOnlyByItsEvents_falls :
    [lineWr Config.default .cmd 1, lineWr Config.default .status 2, lineWr Config.default .ctrl 2].map (fun l =>
        (stepped { State.reset with status := { Status.zero with done := true }, host := [l] }).map
          fun t => (t.status.busy, t.status.done)) = [some (true, false), some (false, false), some (false, false)] ∧
      (stepped { busyState 1 with host := [lineWr Config.default .ctrl 2] }).map (·.status.busy) = some false := by
  decide +kernel

/-- TEST changes at an FTEST and PLD at an IPDEC. -/
theorem witness_StatusChangesOnlyByItsEvents_results :
    (stepped (issued 0x2A { State.reset with tcp := { HeaderRegs.zero with w3 := 0x00010000 } })).map (·.status.test)
        = some true ∧
      (stepped (issued 0x10 (withSource 0 (header ++ [0x00])))).map (·.status.pld) = some true := by
  decide +kernel

theorem witness_CompletionState : (after .ipdec State.reset).map (·.errcode) = some 0x04 := by decide +kernel

theorem witness_CodesEachCommandRaises : ∀ i, ∃ t, exec i State.reset = .next t := fun i => exec_next i _

/-- In range up to the last byte, and one byte past it. -/
theorem witness_CksumResult :
    (srcFits { State.reset with srcAddr := 0x1FFFF, srcLen := 1 }, srcFits { State.reset with srcAddr := 0x20000, srcLen := 1 })
      = (true, false) := by decide

/-- Out of range; 65536 bytes; 65535 bytes. -/
theorem witness_PcksumResult :
    srcFits { State.reset with srcAddr := 0x20000, srcLen := 1 } = false ∧
      srcFits { State.reset with srcLen := 0x10000 } = true ∧ srcFits { State.reset with srcLen := 0xFFFF } = true := by
  decide

/-- Out of range; too short by one byte; IHL 4; IHL 6 in 20 bytes; and a header that fits exactly. -/
theorem witness_IpdecResult :
    srcFits { State.reset with srcAddr := 0x1FFF0, srcLen := 20 } = false ∧
      srcFits { State.reset with srcLen := 19 } = true ∧
      (readByte (withSource 0 (0x44 :: header.drop 1)) 0).toNat % 16 = 4 ∧
      (readByte (withSource 0 (0x46 :: header.drop 1)) 0).toNat % 16 = 6 ∧
      srcFits (withSource 0 header) = true ∧ (withSource 0 header).srcLen.toNat = 20 ∧
      (readByte (withSource 0 header) 0).toNat % 16 = 5 := by decide +kernel

/-- The clauses in order: source and destination out of range, overlap, IHL 4, options short by four bytes, TOTLEN one
less, and a success with options and payload. -/
theorem witness_IpencResult :
    (encodeView { ipencState with srcAddr := 0x1FFFB } 6).1 = false ∧
      (encodeView { ipencState with dstAddr := 0x1FFE7 } 6).2.1 = false ∧
      encodeView { ipencState with dstAddr := 0x0E7 } 6 = (true, true, true, true, true) ∧
      encodeView { ipencState with ip := { ipencState.ip with w0 := 0x4400001A } } 4 = (true, true, false, false, true) ∧
      encodeView { ipencState with ip := { ipencState.ip with w0 := 0x4700001A } } 7 = (true, true, false, true, false) ∧
      encodeView ipencState 6 = (true, true, false, true, true) ∧
      (ipIhl ipencState.ip).toNat = 6 ∧ (ipTotlen ipencState.ip).toNat = 20 + ipencState.srcLen.toNat ∧
      (ipTotlen { ipencState.ip with w0 := 0x46000019 }).toNat ≠ 20 + ipencState.srcLen.toNat := by decide +kernel

/-- Out of range; DOFF 4; DOFF 6 in 20 bytes; 65536 bytes with DOFF 5; and a header that fits exactly. -/
theorem witness_TcpdecResult :
    srcFits { State.reset with srcAddr := 0x1FFF0, srcLen := 20 } = false ∧
      (readByte (withSource 0 (segment.set 12 0x40)) 12).toNat / 16 = 4 ∧
      (readByte (withSource 0 (segment.set 12 0x60)) 12).toNat / 16 = 6 ∧
      srcFits { withSource 0 segment with srcLen := 0x10000 } = true ∧
      (readByte { withSource 0 segment with srcLen := 0x10000 } 12).toNat / 16 = 5 ∧
      srcFits (withSource 0 segment) = true ∧ (withSource 0 segment).srcLen.toNat = 20 := by decide +kernel

/-- The clauses in order, the over-long segment being V-TE11 and the longest one V-TE10. -/
theorem witness_TcpencResult :
    (encodeView { tcpencState with srcAddr := 0x20000 } 5).1 = false ∧
      (encodeView { tcpencState with dstAddr := 0x1FFEC } 5).2.1 = false ∧
      encodeView { tcpencState with dstAddr := 0x0EC } 5 = (true, true, true, true, true) ∧
      encodeView { tcpencState with tcp := { tcpencState.tcp with w3 := 0x4010FFFF } } 4 = (true, true, false, false, true) ∧
      encodeView { tcpencState with tcp := { tcpencState.tcp with w3 := 0x6010FFFF } } 6 = (true, true, false, true, false) ∧
      encodeView { tcpencState with srcAddr := 0, srcLen := 65516, dstAddr := 0x10000 } 5 = (true, true, false, true, true) ∧
      encodeView { tcpencState with srcAddr := 0, srcLen := 65515, dstAddr := 0x10000 } 5 = (true, true, false, true, true) ∧
      (tcpDoff tcpencState.tcp).toNat = 5 := by decide +kernel

theorem witness_FlagSetAndClearResults : 8 ≤ 8 ∧ 8 < 9 := by decide

theorem witness_FlagTestResult : 8 ≤ 8 ∧ 8 < 9 := by decide

theorem isQuad_zero : IsQuad [0x30, 0x2E, 0x30, 0x2E, 0x30, 0x2E, 0x30] 0 0 0 0 := by
  have h : IsComponent [0x30] 0 := ⟨by decide, by decide, by intro b hb; simp at hb; subst hb; constructor <;> decide, by decide⟩
  exact ⟨[0x30], [0x30], [0x30], [0x30], by decide, h, h, h, h⟩

/-- An accepted text, and a text that is none: the empty one. -/
theorem witness_AtonResult :
    (∃ c0 c1 c2 c3, IsQuad [0x30, 0x2E, 0x30, 0x2E, 0x30, 0x2E, 0x30] c0 c1 c2 c3 ∧ c0 ≤ 255 ∧ c1 ≤ 255 ∧ c2 ≤ 255 ∧ c3 ≤ 255)
      ∧ (¬ ∃ c0 c1 c2 c3, IsQuad [] c0 c1 c2 c3 ∧ c0 ≤ 255 ∧ c1 ≤ 255 ∧ c2 ≤ 255 ∧ c3 ≤ 255) ∧
      0 + 7 ≤ State.reset.cfg.pramSize := by
  refine ⟨⟨0, 0, 0, 0, isQuad_zero, by decide, by decide, by decide, by decide⟩, ?_, by decide⟩
  rintro ⟨c0, c1, c2, c3, ⟨p0, p1, p2, p3, h, -⟩, -⟩
  simp at h

theorem witness_NtoaResult :
    0x1FFF9 + (quadText 0).length ≤ State.reset.cfg.pramSize ∧
      State.reset.cfg.pramSize < 0x1FFFA + (quadText 0).length := by decide +kernel

/-- A decode and an encode of each kind that succeed, with the bytes they read named. -/
theorem witness_wire_formats :
    (∃ t, exec .ipdec (withSource 0 header) = .next t ∧ t.errcode = 0) ∧
      (∃ t, exec .tcpdec (withSource 0 segment) = .next t ∧ t.errcode = 0) ∧
      (∃ t, exec .ipenc ipencState = .next t ∧ t.errcode = 0) ∧
      (∃ t, exec .tcpenc tcpencState = .next t ∧ t.errcode = 0) := by
  have key : ∀ i s, (after i s).map (·.errcode) = some 0 → ∃ t, exec i s = .next t ∧ t.errcode = 0 := by
    intro i s h
    obtain ⟨t, ht⟩ := exec_next i s
    rw [after, ht] at h
    exact ⟨t, ht, Option.some.inj h⟩
  exact ⟨key _ _ (by decide +kernel), key _ _ (by decide +kernel), key _ _ (by decide +kernel),
    key _ _ (by decide +kernel)⟩

/-- For the five frames. -/
theorem witness_frames :
    (∃ t, exec .cksum State.reset = .next t) ∧ (∃ t, exec .pcksum State.reset = .next t) ∧
      (∃ t, exec (.fset 8) State.reset = .next t) ∧ (∃ t, exec (.fclr 8) State.reset = .next t) ∧
      (∃ t, exec (.ftest 8) State.reset = .next t) ∧ (∃ t, exec .aton atonState = .next t) ∧
      (∃ t, exec .ntoa ntoaState = .next t) ∧ 0x0FF < ntoaState.dstAddr.toNat ∧
      ntoaState.dstAddr.toNat + (quadText ntoaState.addrVal).length ≤ 0x10B :=
  ⟨exec_next _ _, exec_next _ _, exec_next _ _, exec_next _ _, exec_next _ _, exec_next _ _, exec_next _ _,
    by decide +kernel, by decide +kernel⟩

/-- Two different states that agree on CKSUM's operands. -/
theorem witness_CommandsReadOnlyTheirOperands :
    State.reset ≠ { State.reset with addrVal := 1 } ∧
      (∀ r ∈ commandReads .cksum, readReg State.reset r = readReg { State.reset with addrVal := 1 } r) ∧
      (∃ t, exec .cksum State.reset = .next t) ∧ (∃ t, exec .cksum { State.reset with addrVal := 1 } = .next t) :=
  ⟨by decide, by decide, exec_next _ _, exec_next _ _⟩

theorem witness_ChecksumValue : ∃ b ∈ ([0x00, 0x01] : List Byte), b ≠ 0 := by decide

theorem witness_ChecksumVerification :
    10 % 2 = 0 ∧ 10 + 1 < ((header.set 10 0).set 11 0).length ∧ ((header.set 10 0).set 11 0).getD 10 0 = 0 ∧
      ((header.set 10 0).set 11 0).getD 11 0 = 0 ∧ internetChecksum ((header.set 10 0).set 11 0) = 0xB861 := by
  decide +kernel

theorem witness_PcksumAddressOrder :
    (∃ t, exec .pcksum (withAddresses State.reset) = .next t) ∧
      (∃ t, exec .pcksum { State.reset with ip := { HeaderRegs.zero with w3 := 0x0A000002, w4 := 0x0A000001 } } = .next t) :=
  ⟨exec_next _ _, exec_next _ _⟩

/-- For the round trips and the verifications: after a successful encode, a state over its output. -/
theorem witness_round_trips :
    (∃ t u : State, ipencState.cfg.legal = true ∧ exec .ipenc ipencState = .next t ∧ t.errcode = 0 ∧
      u.cfg = ipencState.cfg ∧ u.srcAddr.toNat = ipencState.dstAddr.toNat ∧
      u.srcLen.toNat = 20 + ipencState.srcLen.toNat ∧ ∀ a, readByte u a = readByte t a) ∧
    (∃ t u : State, tcpencState.cfg.legal = true ∧ exec .tcpenc tcpencState = .next t ∧ t.errcode = 0 ∧
      u.cfg = tcpencState.cfg ∧ u.srcAddr.toNat = tcpencState.dstAddr.toNat ∧
      u.srcLen.toNat = 20 + tcpencState.srcLen.toNat ∧ u.ip.w3 = tcpencState.ip.w3 ∧ u.ip.w4 = tcpencState.ip.w4 ∧
      ∀ a, readByte u a = readByte t a) := by
  obtain ⟨-, -, ⟨t, ht, h0⟩, ⟨t', ht', h0'⟩⟩ := witness_wire_formats
  have e1 : (0x400 : Addr).toNat = ipencState.dstAddr.toNat := by decide
  have e2 : (26 : Addr).toNat = 20 + ipencState.srcLen.toNat := by decide
  have e3 : (0x200 : Addr).toNat = tcpencState.dstAddr.toNat := by decide
  have e4 : (21 : Addr).toNat = 20 + tcpencState.srcLen.toNat := by decide
  exact ⟨⟨t, { ipencState with pram := t.pram, srcAddr := 0x400, srcLen := 26 }, by decide, ht, h0, rfl, e1, e2,
    fun _ => rfl⟩, ⟨t', { tcpencState with pram := t'.pram, srcAddr := 0x200, srcLen := 21 }, by decide, ht', h0', rfl, e3,
    e4, rfl, rfl, fun _ => rfl⟩⟩

theorem witness_verifications :
    (4 * (ipIhl ipencState.ip).toNat = 24) ∧ (after .ipenc ipencState).map (·.resultLen) = some 26 ∧
      (after .tcpenc tcpencState).map (·.resultLen) = some 21 := by decide +kernel

theorem witness_FlagLaws :
    (∃ t, exec (.fset 0) State.reset = .next t) ∧ (∃ t, exec (.fclr 8) State.reset = .next t) ∧ (0 : Nat) ≠ 16 + 8 :=
  ⟨exec_next _ _, exec_next _ _, by decide⟩

/-- NTOA's text read back, and two spellings of the components of 0.0.0.0 and 10.0.0.1. -/
theorem witness_AddressRoundTrip :
    ntoaState.cfg.legal = true ∧ (after .ntoa ntoaState).map (fun t => (t.errcode, t.resultLen)) = some (0, 11) ∧
      IsComponent [0x30] 0 ∧ IsComponent [0x30, 0x31, 0x30] 10 ∧ LeadingZero [0x30, 0x31, 0x30] := by
  refine ⟨by decide, by decide +kernel, ?_, ?_, ?_⟩
  · exact ⟨by decide, by decide, by intro b hb; simp at hb; subst hb; constructor <;> decide, by decide⟩
  · exact ⟨by decide, by decide, by intro b hb; simp at hb; rcases hb with rfl | rfl | rfl <;> constructor <;> decide,
      by decide⟩
  · exact ⟨by decide, by decide⟩

theorem inv_reset : Inv State.reset :=
  ⟨by decide, by decide, fun c hc => (List.not_mem_nil hc).elim, by decide, by decide, by decide, by decide, by decide,
    by decide, by decide⟩

theorem witness_invariants : Config.legal ⟨64, 0x40000⟩ = true ∧ Config.legal ⟨131072, 0⟩ = true ∧
    Inv State.reset ∧ step State.reset = .next State.reset :=
  ⟨by decide, by decide, inv_reset, rfl⟩

end Sys2Proof.Machine.Tests
end

section
/-! The scope of the block (00_scope.md R8): the aperture in the host's map, the host's step, and the invariant that
power-on has and every step keeps. -/

namespace Sys2Proof.Machine

variable {s t u : State}

/-! ### The aperture (R8, R50) -/

theorem apertureOffset_eq_some {c : Config} {addr : Nat} {off : Addr} :
    apertureOffset c addr = some off ↔ addr = c.tpcBase + off.toNat := by
  have hoff := off.isLt
  rw [apertureOffset, Config.apertureBytes, Option.ite_none_right_eq_some, Option.some.injEq]
  constructor
  · rintro ⟨⟨hlo, hhi⟩, rfl⟩
    rw [BitVec.toNat_ofNat, Nat.mod_eq_of_lt (by omega)]
    omega
  · rintro rfl
    exact ⟨by omega, by rw [Nat.add_sub_cancel_left, BitVec.ofNat_toNat, BitVec.setWidth_eq]⟩

theorem apertureOffset_eq_none {c : Config} {addr : Nat} (h : addr < c.tpcBase ∨ c.tpcBase + 0x40000 ≤ addr) :
    apertureOffset c addr = none := by
  rw [apertureOffset, Config.apertureBytes, if_neg (by omega)]

/-- Settles O21: an address inside the aperture has one offset, TPC_BASE apart, and an address outside has none. -/
theorem apertureAtBase : Obligations.ApertureAtBase := by
  unfold Obligations.ApertureAtBase
  refine ⟨fun _ _ _ => apertureOffset_eq_some, fun s a => ⟨fun off h => ?_, fun h => ?_⟩⟩
  · rw [busAccess, apertureOffset_eq_some.2 h]
  · rw [busAccess, apertureOffset_eq_none h]

/-! ### The host's step (R61, R15) -/

/-- A step is the host's turn when no command is in flight, or latency and lines of the host's program are left. -/
theorem step_eq_hostTurn (h : s.status.busy = false ∨ (s.engineWait ≠ 0 ∧ s.host ≠ [])) :
    step s = .next (hostTurn s) := by
  have hm : ¬ engineMoves s = true := by
    rw [engineMoves_iff]
    rcases h with hb | ⟨hw, hh⟩
    · simp [hb]
    · simp [hw, hh]
  rw [step, if_neg hm]

/-- Settles O6: the engine does not move, so the step is the host's turn on its first line, or on no line. -/
theorem hostStepPerformsNextAccess : Obligations.HostStepPerformsNextAccess := by
  unfold Obligations.HostStepPerformsNextAccess
  refine fun s a rest => ⟨fun hh h => ?_, fun ⟨hh, hb⟩ => ?_⟩
  · rw [step_eq_hostTurn (h.imp_right fun hw => ⟨hw, by simp [hh]⟩), hostTurn, hh]
    rfl
  · rw [step_eq_hostTurn (.inl hb), hostTurn, hh]

/-! ### The invariant at power-on (R121) -/

theorem inv_powerOn {c : Config} (h : c.legal = true) : Inv (State.powerOn c) where
  cfg_legal := h
  pram_wf := rfl
  pram_inside := fun _ hc => (List.not_mem_nil hc).elim
  busy_not_done := fun _ => rfl
  wait_only_busy := fun _ => rfl
  err_iff_code := rfl
  code_defined := Nat.zero_le _
  pld_iff_len := rfl
  opt_words := ⟨rfl, Nat.zero_le _⟩
  result_bound := Nat.zero_le _

/-- Settles O58: the registers of a power-on state are all 0, and R8's default build is legal. -/
theorem powerOnMeetsInvariant : Obligations.PowerOnMeetsInvariant := by
  unfold Obligations.PowerOnMeetsInvariant
  exact ⟨fun _ => inv_powerOn, inv_powerOn (c := .default) (by decide), rfl⟩

/-! ### The invariant and the engine's side: writes to PRAM, decoded locators, encoded frames, completion -/

/-- Bytes stored inside PRAM keep the invariant; an empty write is inside PRAM wherever it falls. -/
theorem inv_memWrite (h : Inv s) {a : Nat} {bs : List Byte} (hin : bs = [] ∨ a + bs.length ≤ s.cfg.pramSize) :
    Inv (memWrite s a bs) := by
  rw [memWrite_eq_with_pram]
  exact { h with
    pram_wf := memWrite_wf h.pram_wf a bs
    pram_inside := memWrite_inside h.pram_inside hin }

/-- A completion reports its own code and spends the latency. -/
theorem inv_complete (h : Inv s) (e : ErrCode) : Inv (complete e s) :=
  { h with
    busy_not_done := fun hb => absurd hb Bool.false_ne_true
    wait_only_busy := fun _ => rfl
    err_iff_code := rfl
    code_defined := errorNumber_le e }

/-- Locators of a header of at most 15 words: the options take at most 10, and PLD_LEN keeps its 18 bits (R43, R45). -/
theorem inv_locate (h : Inv s) {words : Nat} (hw : words < 16) : Inv (locate s words) := by
  have hn : srcN s < 2 ^ 18 := s.srcLen.isLt
  have hpld : BitVec.ofNat 18 (srcN s - 4 * words) = 0 ↔ srcN s - 4 * words = 0 := by
    rw [BitVec.toNat_eq, BitVec.toNat_ofNat, Nat.mod_eq_of_lt (by omega)]
    rfl
  have hopt : (BitVec.ofNat 18 (4 * words - fixedHeader)).toNat = 4 * words - 20 := by
    rw [BitVec.toNat_ofNat, fixedHeader, Nat.mod_eq_of_lt (by omega)]
  exact { h with
    pld_iff_len := decide_eq_decide.2 (not_congr hpld.symm)
    opt_words := by rw [locate_optLen, hopt]; omega }

/-- Bytes stored in the destination region lie inside PRAM, and their number, at most 65535, is RESULT_LEN (R29, R129). -/
theorem inv_ntoaWrites (h : Inv s) {text : List Byte} (hin : dstA s + text.length ≤ s.cfg.pramSize)
    (hlen : text.length ≤ 65535) : Inv (ntoaWrites s text) :=
  { inv_memWrite h (.inr hin) with
    result_bound := (Nat.mod_le _ _).trans hlen }

/-- An encoder stores its frame as NTOA its text, and writes CKSUM, which the invariant does not speak of. -/
theorem inv_emit (h : Inv s) {f : List Byte} (hin : dstA s + f.length ≤ s.cfg.pramSize) (hlen : f.length ≤ 65535)
    (c : Half) : Inv (emit s f c) :=
  { inv_ntoaWrites h hin hlen with }

/-- A command's writes keep the invariant: its checks bound what it writes. -/
theorem inv_commandResult {i : Instr} (h : Inv s) (hr : commandResult i s = .ok u) : Inv u := by
  cases i <;> simp only [commandResult] at hr
  case cksum => obtain ⟨-, rfl⟩ := cksumResult_ok.1 hr; exact { h with }
  case pcksum => obtain ⟨-, -, rfl⟩ := pcksumResult_ok.1 hr; exact { h with }
  case ipdec =>
    obtain ⟨-, -, rfl⟩ := ipdecResult_ok.1 hr
    exact { inv_locate h (BitVec.isLt _) with }
  case ipenc =>
    obtain ⟨-, hdst, -, -, -, htot, rfl⟩ := ipencResult_ok.1 hr
    have htot16 := (ipTotlen s.ip).isLt
    exact inv_emit h (by rwa [ipFrame_length]) (by rw [ipFrame_length]; omega) _
  case tcpdec =>
    obtain ⟨-, -, -, rfl⟩ := tcpdecResult_ok.1 hr
    exact { inv_locate h (BitVec.isLt _) with }
  case tcpenc =>
    obtain ⟨-, hdst, -, -, -, hseg, rfl⟩ := tcpencResult_ok.1 hr
    exact inv_emit h (by rwa [tcpSegment_length]) (by rwa [tcpSegment_length]) _
  case fset => obtain ⟨-, rfl⟩ := withFlagIndex_ok.1 hr; exact { h with }
  case fclr => obtain ⟨-, rfl⟩ := withFlagIndex_ok.1 hr; exact { h with }
  case ftest => obtain ⟨-, rfl⟩ := withFlagIndex_ok.1 hr; exact { h with }
  case aton => obtain ⟨-, _, _, _, _, -, -, -, -, -, rfl⟩ := atonResult_ok.1 hr; exact { h with }
  case ntoa =>
    obtain ⟨hin, rfl⟩ := ntoaResult_ok.1 hr
    exact inv_ntoaWrites h hin ((quadText_length s.addrVal).2.trans (by decide))

theorem inv_engineTurn (h : Inv s) (ht : engineTurn s = .next t) : Inv t := by
  obtain ⟨e, u, rfl, rfl | ⟨i, -, hr⟩⟩ := engineTurn_cases ht
  · exact inv_complete h e
  · exact inv_complete (inv_commandResult h hr) e

/-! ### The invariant and the host's side: soft reset, register writes, accesses -/

/-- A soft reset is a power-on of the same build, over a PRAM whose fresh bytes are clipped to it (R122). -/
theorem inv_softReset (h : Inv s) : Inv (softReset s) := by
  have hin : freshBytes s.drawCount (abandonedLen s) = [] ∨
      dstA s + (freshBytes s.drawCount (abandonedLen s)).length ≤ s.cfg.pramSize := by
    have hclip : abandonedLen s ≤ s.cfg.pramSize - dstA s := by
      rw [abandonedLen]
      split_ifs
      · exact Nat.min_le_right _ _
      · exact Nat.zero_le _
    rw [← List.length_eq_zero_iff, freshBytes_length]
    omega
  exact { inv_powerOn h.cfg_legal with
    pram_wf := memWrite_wf h.pram_wf _ _
    pram_inside := memWrite_inside h.pram_inside hin }

theorem inv_writeCtrl (h : Inv s) (v : Word) : Inv (writeCtrl v s) := by
  rw [writeCtrl]
  split_ifs
  · exact inv_softReset h
  · exact { h with }

/-- A write of STATUS clears W1C bits alone, so DONE stays 0 while a command is in flight. -/
theorem inv_writeStatus (h : Inv s) (v : Word) : Inv { s with status := statusAfterWrite s.status v } :=
  { h with busy_not_done := fun hb => by rw [statusAfterWrite, h.busy_not_done hb, Bool.false_and] }

theorem inv_accept (h : Inv s) (v : Word) : Inv (accept v s) :=
  { h with
    busy_not_done := fun _ => rfl
    wait_only_busy := fun hb => absurd hb.symm Bool.false_ne_true }

theorem inv_writeReg (h : Inv s) (v : Word) (r : Reg) : Inv (writeReg v s r) := by
  rcases writeReg_cases v s r with
    hw | ⟨-, hw⟩ | ⟨-, hw⟩ | ⟨-, hw⟩ | ⟨-, -, hw⟩ | ⟨-, _, _, _, _, _, _, hw⟩ <;> rw [hw]
  · exact h
  · exact inv_writeCtrl h v
  · exact inv_writeStatus h v
  · exact { h with }
  · exact inv_accept h v
  · exact { h with }

theorem inv_apertureAccess (h : Inv s) (off : Addr) (bits : Nat) (op : BusOp) : Inv (apertureAccess off bits op s) := by
  obtain ⟨resp, t, ht, hc⟩ := apertureAccess_cases off bits op s
  have hinv : Inv t := by
    rcases hc with rfl | rfl | ⟨-, rfl⟩ | ⟨-, a, v, hin, rfl⟩ | ⟨v, r, -, -, -, rfl⟩
    · exact h
    · exact { h with }
    · exact { h with }
    · exact inv_memWrite h (.inr hin)
    · exact inv_writeReg h v r
  rw [ht]
  exact { hinv with }

theorem inv_busAccess (h : Inv s) (a : HostAccess) : Inv (busAccess a s) := by
  rcases busAccess_cases a s with ha | ⟨off, -, ha⟩ <;> rw [ha]
  · exact { h with }
  · exact inv_apertureAccess h off a.bits a.op

/-- Taking a line leaves no latency where there was none. -/
theorem inv_takeLine (h : Inv s) (rest : List HostOp) : Inv (takeLine rest s) :=
  { h with wait_only_busy := fun hb => by rw [takeLine_engineWait, h.wait_only_busy hb] }

theorem inv_hostTurn (h : Inv s) : Inv (hostTurn s) := by
  rcases hostTurn_cases s with ⟨-, ht⟩ | ⟨a, rest, -, ht⟩ | ⟨rest, -, ht⟩ <;> rw [ht]
  · exact h
  · exact inv_busAccess (inv_takeLine h rest) a
  · exact { inv_takeLine h rest with }

/-- Settles O59: a step is the engine's turn or the host's, and each keeps the invariant. -/
theorem stepKeepsInvariant : Obligations.StepKeepsInvariant := by
  unfold Obligations.StepKeepsInvariant
  intro s t h hst
  rcases step_cases hst with ⟨-, -, ht⟩ | ⟨-, rfl⟩
  · exact inv_engineTurn h ht
  · exact inv_hostTurn h

end Sys2Proof.Machine
end

section
/-! The registers and the access path (10_state.md): the register map, what a host write of each register does, the
interrupt output, and the events that change STATUS. -/

namespace Sys2Proof.Machine

variable {s t u : State} {i : Instr}

/-! ### The engine's step (R23) -/

/-- Settles O5: the engine moves, and its turn is the execution of the decoded command. -/
theorem engineStepRunsDecodedCommand : Obligations.EngineStepRunsDecodedCommand := by
  unfold Obligations.EngineStepRunsDecodedCommand
  intro s i hb hw hd
  rw [step, if_pos ((engineMoves_iff s).2 ⟨hb, hw⟩), engineTurn, hd]

/-! ### The register map (R17, R58) -/

theorem mem_allRegs (r : Reg) : r ∈ allRegs := by cases r <;> decide

/-- Every register's offset fits the aperture's 18 bits. -/
theorem ofNat_regOffset_toNat (r : Reg) : (BitVec.ofNat 18 (regOffset r)).toNat = regOffset r := by
  have hle := (regOffset_le r).1
  rw [BitVec.toNat_ofNat, Nat.mod_eq_of_lt (by omega)]

/-- Settles O14: a register's offset fits the aperture and reaches that register, and each read is its field. -/
theorem registerMapReads : Obligations.RegisterMapReads := by
  unfold Obligations.RegisterMapReads
  refine ⟨rfl, fun s => ⟨fun r => ⟨mem_allRegs r, ?_, fun v => ?_⟩, ?_, ?_, rfl, rfl⟩⟩
  · exact apertureAccess_readReg s (ofNat_regOffset_toNat r)
  · exact apertureAccess_writeReg s v (ofNat_regOffset_toNat r)
  · simp [readReg, Config.idValue, Config.versionValue]
  · simp [readReg]

/-! ### A write of CMD (R23) -/

/-- Settles O10: idle, the write is the acceptance, whose state is busy with the word in CMD; busy, the lockout drops it. -/
theorem commandWriteAccepted : Obligations.CommandWriteAccepted := by
  unfold Obligations.CommandWriteAccepted
  refine fun v s => ⟨apertureAccess_writeReg s v rfl, fun hb => ?_, fun hb => lockout_busy hb⟩
  have hacc : writeReg v s .cmd = accept v s := lockout_idle hb
  rw [hacc]
  exact ⟨rfl, rfl, fun i hd hw => engineStepRunsDecodedCommand (accept v s) i rfl hw hd⟩

/-! ### A write of an RO or an operand register (R16, R26–R41) -/

/-- The registers whose write does more than store an operand. -/
def controlRegs : List Reg := [.ctrl, .cmd, .status]

/-- An idle write of any other register leaves every register but its own. -/
theorem readReg_writeReg_of_ne {r r' : Reg} (v : Word) (hb : s.status.busy = false) (hr : r ∉ controlRegs)
    (hne : r' ≠ r) : readReg (writeReg v s r) r' = readReg s r' := by
  cases r
  case ctrl | cmd | status => exact absurd (by decide) hr
  all_goals simp only [writeReg, lockout_idle hb]
  all_goals cases r' <;> trivial

/-- A write of such a register, idle or busy, leaves PRAM. -/
theorem writeReg_pram {r : Reg} (v : Word) (hr : r ∉ controlRegs) : (writeReg v s r).pram = s.pram := by
  rcases writeReg_cases v s r with
    hw | ⟨rfl, -⟩ | ⟨rfl, -⟩ | ⟨-, hw⟩ | ⟨-, rfl, -⟩ | ⟨-, _, _, _, _, _, _, hw⟩
  · rw [hw]
  · exact absurd (by decide) hr
  · exact absurd (by decide) hr
  · rw [hw, setAccBusy_pram]
  · exact absurd (by decide) hr
  · rw [hw]

/-- An 18-bit register reads back bits [17:0] of the word written (R16). -/
theorem setWidth_18_setWidth_32 (v : Word) : (v.setWidth 18).setWidth 32 = v &&& 0x3FFFF := by
  apply BitVec.eq_of_toNat_eq
  rw [BitVec.toNat_setWidth, BitVec.toNat_setWidth, BitVec.toNat_and]
  have hmask := Nat.and_two_pow_sub_one_eq_mod v.toNat 18
  have hlt : v.toNat % 2 ^ 18 < 2 ^ 32 := by omega
  rw [Nat.mod_eq_of_lt hlt, ← hmask]
  rfl

/-- Settles O15: while idle the lockout lets the write through, and it stores in its own register alone. -/
theorem operandRegisterWrites : Obligations.OperandRegisterWrites := by
  unfold Obligations.OperandRegisterWrites
  intro s v hb
  refine ⟨by simp [writeReg], ?_, ?_, fun r hr => ?_⟩
  · simp [writeReg, readReg, lockout_idle hb, setWidth_18_setWidth_32]
  · simp [writeReg, readReg, lockout_idle hb]
  · have hr' : r ∉ controlRegs := by revert r; decide
    exact ⟨fun r' hne => readReg_writeReg_of_ne v hb hr' hne, fun a => by rw [readByte, writeReg_pram v hr', readByte]⟩

/-! ### STATUS (R16, R24) -/

/-- Bit by bit, STATUS after a host write: the W1C bits clear where a 1 is written. -/
theorem statusWord_statusAfterWrite_getLsbD (t : Status) (v : Word) (i : Nat) :
    (statusWord (statusAfterWrite t v)).getLsbD i =
      ((statusWord t).getLsbD i && !((i == 1 || i == 8 || i == 9) && v.getLsbD i)) := by
  rw [statusWord_getLsbD, statusWord_getLsbD]
  by_cases hi : i = 1 ∨ i = 8 ∨ i = 9
  · rcases hi with rfl | rfl | rfl <;> simp [statusAfterWrite]
  · obtain ⟨h1, h8, h9⟩ : i ≠ 1 ∧ i ≠ 8 ∧ i ≠ 9 := by simpa using hi
    simp only [beq_false_of_ne h1, beq_false_of_ne h8, beq_false_of_ne h9, statusAfterWrite, Bool.or_self, Bool.false_and,
      Bool.not_false, Bool.and_true]

/-- Settles O16: both clauses on bits are the layout of STATUS, before and after the write. -/
theorem statusLayoutAndWrite : Obligations.StatusLayoutAndWrite := by
  unfold Obligations.StatusLayoutAndWrite
  exact fun s v => ⟨statusWord_getLsbD s.status, statusWord_statusAfterWrite_getLsbD s.status v, ⟨_, rfl⟩,
    apertureAccess_writeReg s v rfl⟩

/-! ### CTRL (R22) -/

theorem writeCtrl_of_srst {v : Word} (h : v.getLsbD 1 = true) : writeCtrl v s = softReset s := by
  rw [writeCtrl, if_pos h]

theorem writeCtrl_of_not_srst {v : Word} (h : v.getLsbD 1 = false) : writeCtrl v s = { s with irqEn := v.getLsbD 0 } := by
  rw [writeCtrl, h, if_neg Bool.false_ne_true]

/-- Settles O17: a write of CTRL splits on SRST alone, and the soft reset's CTRL is that of power-on. -/
theorem controlWrite : Obligations.ControlWrite := by
  unfold Obligations.ControlWrite
  refine fun s v => ⟨?_, writeCtrl_of_not_srst, fun h => ⟨writeCtrl_of_srst h, ?_⟩, apertureAccess_writeReg s v rfl⟩
  · rw [readReg, bitWord, BitVec.shiftLeft_zero]
    rfl
  · rw [writeReg, writeCtrl_of_srst h]
    rfl

/-! ### The interrupt output (R48, R113) -/

theorem irq_eq_false_of_not_done (h : s.status.done = false) : irq s = false := by
  rw [irq, h, Bool.and_false]

/-- IRQ is what the host reads of IRQ_EN and DONE. -/
theorem irq_eq_readReg (s : State) : irq s = ((readReg s .ctrl).getLsbD 0 && (readReg s .status).getLsbD 1) := by
  rw [readReg, readReg, bitWord_getLsbD _ _ _ (by decide), statusWord_getLsbD]
  simp [irq]

/-- What no command writes: the build, IRQ_EN, CMD, the operand registers, the completion bits and the host's side. -/
theorem commandResult_frame (h : commandResult i s = .ok u) :
    u = { s with
      status := { s.status with test := u.status.test, pld := u.status.pld }
      resultLen := u.resultLen
      cksum := u.cksum
      ip := u.ip
      tcp := u.tcp
      addrVal := u.addrVal
      optOff := u.optOff
      optLen := u.optLen
      pldOff := u.pldOff
      pldLen := u.pldLen
      pram := u.pram } := by
  cases i <;> simp only [commandResult] at h
  case cksum => obtain ⟨-, rfl⟩ := cksumResult_ok.1 h; rfl
  case pcksum => obtain ⟨-, -, rfl⟩ := pcksumResult_ok.1 h; rfl
  case ipdec => obtain ⟨-, -, rfl⟩ := ipdecResult_ok.1 h; rfl
  case ipenc => obtain ⟨-, -, -, -, -, -, rfl⟩ := ipencResult_ok.1 h; rw [emit, memWrite_eq_with_pram]
  case tcpdec => obtain ⟨-, -, -, rfl⟩ := tcpdecResult_ok.1 h; rfl
  case tcpenc => obtain ⟨-, -, -, -, -, -, rfl⟩ := tcpencResult_ok.1 h; rw [emit, memWrite_eq_with_pram]
  case fset => obtain ⟨-, rfl⟩ := withFlagIndex_ok.1 h; rfl
  case fclr => obtain ⟨-, rfl⟩ := withFlagIndex_ok.1 h; rfl
  case ftest => obtain ⟨-, rfl⟩ := withFlagIndex_ok.1 h; rfl
  case aton => obtain ⟨-, _, _, _, _, -, -, -, -, -, rfl⟩ := atonResult_ok.1 h; rfl
  case ntoa => obtain ⟨-, rfl⟩ := ntoaResult_ok.1 h; rw [ntoaWrites, memWrite_eq_with_pram]

/-- A completion sets DONE and leaves IRQ_EN, so IRQ is IRQ_EN after it (R113). -/
theorem irq_of_exec (h : exec i s = .next t) : irq t = s.irqEn := by
  rcases exec_cases h with ⟨u, hu, rfl⟩ | ⟨e, -, -, rfl⟩
  · have hen : u.irqEn = s.irqEn := by rw [commandResult_frame hu]
    rw [irq, complete_done, complete_irqEn, hen, Bool.and_true]
  · rw [irq, complete_done, complete_irqEn, Bool.and_true]

/-- Settles O20: each event leaves IRQ_EN or DONE at the value that gives IRQ its own. -/
theorem interruptOutput : Obligations.InterruptOutput := by
  unfold Obligations.InterruptOutput
  refine fun s v => ⟨irq_eq_readReg s, fun _ _ => irq_of_exec, fun h => ?_, fun hb => ?_, fun h => ?_, fun h => ?_,
    fun off bits h => ?_⟩
  · exact irq_eq_false_of_not_done (by simp [writeReg, statusAfterWrite, h])
  · rw [writeReg, lockout_idle hb]
    exact irq_eq_false_of_not_done rfl
  · rw [writeReg, writeCtrl]
    split_ifs
    · rfl
    · rw [irq, h, Bool.false_and]
  · rw [writeReg, writeCtrl_of_srst h]
    rfl
  · rw [h]
    rfl

/-! ### Accesses while a command is in flight (R47, R125) -/

/-- From `s` to `t` nothing changes but IRQ_EN, the data returned, and the STATUS bits DONE, ACC_BUSY and BUS_ERR. -/
def HeldInFlight (s t : State) : Prop :=
  t = { s with
    irqEn := t.irqEn
    response := t.response
    status := { s.status with done := t.status.done, accBusy := t.status.accBusy, busErr := t.status.busErr } }

theorem HeldInFlight.with_response (h : HeldInFlight s t) (resp : Option Word) :
    HeldInFlight s { t with response := resp } := by
  unfold HeldInFlight at h ⊢
  rw [h]

/-- A write of CTRL that leaves BUSY at 1 is no soft reset, so it stores IRQ_EN alone. -/
theorem heldInFlight_writeCtrl (v : Word) (hbt : (writeCtrl v s).status.busy = true) :
    HeldInFlight s (writeCtrl v s) := by
  cases hv : v.getLsbD 1
  · rw [writeCtrl_of_not_srst hv]
    rfl
  · rw [writeCtrl_of_srst hv] at hbt
    exact absurd hbt Bool.false_ne_true

theorem heldInFlight_writeReg (v : Word) (r : Reg) (hb : s.status.busy = true)
    (hbt : (writeReg v s r).status.busy = true) : HeldInFlight s (writeReg v s r) := by
  rcases writeReg_cases v s r with
    hw | ⟨-, hw⟩ | ⟨-, hw⟩ | ⟨-, hw⟩ | ⟨hidle, -⟩ | ⟨hidle, -⟩
  · rw [hw]; rfl
  · rw [hw] at hbt ⊢
    exact heldInFlight_writeCtrl v hbt
  · rw [hw]; rfl
  · rw [hw]; rfl
  · simp [hb] at hidle
  · simp [hb] at hidle

theorem heldInFlight_apertureAccess (off : Addr) (bits : Nat) (op : BusOp) (hb : s.status.busy = true)
    (hbt : (apertureAccess off bits op s).status.busy = true) : HeldInFlight s (apertureAccess off bits op s) := by
  obtain ⟨resp, t, ht, hc⟩ := apertureAccess_cases off bits op s
  rw [ht] at hbt ⊢
  refine HeldInFlight.with_response ?_ resp
  rcases hc with rfl | rfl | ⟨-, rfl⟩ | ⟨hidle, -⟩ | ⟨v, r, -, -, -, rfl⟩
  · rfl
  · rfl
  · rfl
  · simp [hb] at hidle
  · exact heldInFlight_writeReg v r hb hbt

/-- Settles O22: every access that leaves BUSY at 1 is dropped, refused, a read, or a write of CTRL or STATUS. -/
theorem operandsHeldWhileInFlight : Obligations.OperandsHeldWhileInFlight := by
  unfold Obligations.OperandsHeldWhileInFlight
  intro s a hb hbt
  rcases busAccess_cases a s with ha | ⟨off, -, ha⟩ <;> rw [ha] at hbt ⊢
  exact heldInFlight_apertureAccess off a.bits a.op hb hbt

/-! ### The events that change STATUS and ERRCODE (R22–R24, R110, R122) -/

/-- From `s` to `t` STATUS changes in ACC_BUSY and BUS_ERR at most, and ERRCODE not at all. -/
def StatusKept (s t : State) : Prop :=
  t.errcode = s.errcode ∧ ∃ a b, t.status = { s.status with accBusy := a, busErr := b }

/-- What the write of `v` does to STATUS and ERRCODE at the three offsets where it can do more: a write of STATUS, the
acceptance of a command, a soft reset. -/
def StatusEvent (off : Nat) (v : Word) (s t : State) : Prop :=
  (off = 0x010 ∧ t.errcode = s.errcode ∧ t.status = statusAfterWrite s.status v) ∨
  (off = 0x00C ∧ t.errcode = s.errcode ∧ s.status.busy = false ∧ t.cmd = v ∧
    t.status = { s.status with busy := true, done := false }) ∨
  (off = 0x008 ∧ t.errcode = 0 ∧ v.getLsbD 1 = true ∧ t.status = Status.zero)

theorem writeReg_statusEvent (v : Word) (s : State) (r : Reg) :
    StatusKept s (writeReg v s r) ∨ StatusEvent (regOffset r) v s (writeReg v s r) := by
  rcases writeReg_cases v s r with
    hw | ⟨rfl, hw⟩ | ⟨rfl, hw⟩ | ⟨-, hw⟩ | ⟨hidle, rfl, hw⟩ | ⟨-, _, _, _, _, _, _, hw⟩ <;> rw [hw]
  · exact .inl ⟨rfl, _, _, rfl⟩
  · cases hv : v.getLsbD 1
    · rw [writeCtrl_of_not_srst hv]
      exact .inl ⟨rfl, _, _, rfl⟩
    · rw [writeCtrl_of_srst hv]
      exact .inr (.inr (.inr ⟨rfl, rfl, hv, rfl⟩))
  · exact .inr (.inl ⟨rfl, rfl, rfl⟩)
  · exact .inl ⟨rfl, _, _, rfl⟩
  · exact .inr (.inr (.inl ⟨rfl, rfl, hidle, rfl, rfl⟩))
  · exact .inl ⟨rfl, _, _, rfl⟩

/-- Of an aperture access, only a 32-bit write of a register can change more of STATUS than ACC_BUSY and BUS_ERR. -/
theorem apertureAccess_statusEvent (off : Addr) (bits : Nat) (op : BusOp) (s : State) :
    StatusKept s (apertureAccess off bits op s) ∨
      ∃ v, op = .write v ∧ bits = 32 ∧ StatusEvent off.toNat v s (apertureAccess off bits op s) := by
  obtain ⟨resp, t, ht, hc⟩ := apertureAccess_cases off bits op s
  rw [ht]
  rcases hc with rfl | rfl | ⟨-, rfl⟩ | ⟨-, a, v, -, rfl⟩ | ⟨v, r, hop, hbits, hoff, rfl⟩
  · exact .inl ⟨rfl, _, _, rfl⟩
  · exact .inl ⟨rfl, _, _, rfl⟩
  · exact .inl ⟨rfl, _, _, rfl⟩
  · exact .inl ⟨memWrite_errcode _ _ _, _, _, memWrite_status _ _ _⟩
  · rw [hoff]
    exact (writeReg_statusEvent v s r).imp id fun he => ⟨v, hop, hbits, he⟩

/-- Of the host's turns, only the write of an event changes more of STATUS than ACC_BUSY and BUS_ERR. -/
theorem hostTurn_statusEvent (s : State) :
    StatusKept s (hostTurn s) ∨ ∃ off v, HostWrites s off v ∧ StatusEvent off v s (hostTurn s) := by
  rcases hostTurn_cases s with ⟨-, ht⟩ | ⟨a, rest, hh, ht⟩ | ⟨rest, -, ht⟩ <;> rw [ht]
  · exact .inl ⟨rfl, _, _, rfl⟩
  · rcases busAccess_cases a (takeLine rest s) with ha | ⟨off, hoff, ha⟩ <;> rw [ha]
    · exact .inl ⟨rfl, _, _, rfl⟩
    · refine (apertureAccess_statusEvent off a.bits a.op (takeLine rest s)).imp id ?_
      rintro ⟨v, hop, hbits, he⟩
      have haddr : a = ⟨s.cfg.tpcBase + off.toNat, 32, .write v⟩ := by
        rw [← hop, ← hbits, ← takeLine_cfg rest s, ← apertureOffset_eq_some.1 hoff]
      exact ⟨off.toNat, v, ⟨rest, haddr ▸ hh⟩, he⟩
  · exact .inl ⟨rfl, _, _, rfl⟩

theorem completes_of_engineTurn (hb : s.status.busy = true) (ht : engineTurn s = .next t) : Completes s t := by
  obtain ⟨e, u, rfl, -⟩ := engineTurn_cases ht
  exact ⟨hb, ht, rfl, rfl⟩

/-- A completion that changes TEST is one of FTEST, the only command whose row writes it (R72). -/
theorem decode_of_test_changed (ht : engineTurn s = .next t) (hne : t.status.test ≠ s.status.test) :
    ∃ i, decode s.cmd = .ok (.ftest i) := by
  obtain ⟨e, u, rfl, rfl | ⟨i, hd, hr⟩⟩ := engineTurn_cases ht
  · exact absurd rfl hne
  · cases hw : writesTest i
    · exact absurd (commandResult_test hw hr) hne
    · cases i with
      | ftest idx => exact ⟨idx, hd⟩
      | _ => cases hw

/-- A completion that changes PLD is one of a decoder, the only commands whose rows write it (R72). -/
theorem decode_of_pld_changed (ht : engineTurn s = .next t) (hne : t.status.pld ≠ s.status.pld) :
    decode s.cmd = .ok .ipdec ∨ decode s.cmd = .ok .tcpdec := by
  obtain ⟨e, u, rfl, rfl | ⟨i, hd, hr⟩⟩ := engineTurn_cases ht
  · exact absurd rfl hne
  · cases hw : writesPld i
    · exact absurd (commandResult_pld hw hr) hne
    · cases i with
      | ipdec => exact .inl hd
      | tcpdec => exact .inr hd
      | _ => cases hw

/-- Settles O23: an engine's turn is a completion, and a host's turn changes these bits at one of three writes alone. -/
theorem statusChangesOnlyByItsEvents : Obligations.StatusChangesOnlyByItsEvents := by
  unfold Obligations.StatusChangesOnlyByItsEvents
  intro s t h
  rcases step_cases h with ⟨hb, -, ht⟩ | ⟨-, rfl⟩
  · have hc := completes_of_engineTurn hb ht
    refine ⟨fun hidle => by simp [hb] at hidle, fun _ _ => .inl hc, fun _ _ => hc, fun _ hd => ?_,
      fun _ => .inl hc, fun hne => .inl ⟨hc, decode_of_test_changed ht hne⟩,
      fun hne => .inl ⟨hc, decode_of_pld_changed ht hne⟩⟩
    obtain ⟨-, -, -, hdone⟩ := hc
    simp [hdone] at hd
  · rcases hostTurn_statusEvent s with ⟨herr, a, b, hst⟩ | ⟨off, v, hw, he⟩
    · -- nothing the clauses speak of has changed
      simp +contextual [herr, hst]
    · rcases he with ⟨rfl, herr, hst⟩ | ⟨rfl, herr, hidle, hcmd, hst⟩ | ⟨rfl, herr, hv, hst⟩
      · refine ⟨by simp +contextual [hst, statusAfterWrite], by simp +contextual [hst, statusAfterWrite],
          by simp +contextual [hst, statusAfterWrite], fun hd hd' => .inr (.inl ⟨v, hw, ?_⟩),
          by simp [herr, hst, statusAfterWrite], by simp [hst, statusAfterWrite], by simp [hst, statusAfterWrite]⟩
        simpa [hst, statusAfterWrite, hd] using hd'
      · exact ⟨fun _ _ => ⟨v, hw, hcmd, by rw [hst]⟩, by simp [hidle], by simp [hst],
          fun _ _ => .inl ⟨hidle, by rw [hst], v, hw⟩, by simp [herr, hst], by simp [hst], by simp [hst]⟩
      · have hr : HostResets s := ⟨v, hw, hv⟩
        have hzero : readReg (hostTurn s) .status = 0 := by
          rw [readReg, hst]
          rfl
        exact ⟨by simp [hst, Status.zero], fun _ _ => .inr hr, by simp [hst, Status.zero], fun _ _ => .inr (.inr hr),
          fun _ => .inr ⟨hr, hzero, herr⟩, fun _ => .inr hr, fun _ => .inr hr⟩

end Sys2Proof.Machine
end

section
/-! The aperture's accesses that reach no register (20_memory.md R51–R53): the malformed access, and the PRAM window. -/

namespace Sys2Proof.Machine

variable {s : State} {off : Addr} {bits a : Nat} {v : Word}

/-! ### The malformed access (R51, R52) -/

/-- Settles O12: the access reaches no target, and the branch for it is the same whether a command is in flight or not. -/
theorem malformedAccessSetsBusErrOnly : Obligations.MalformedAccessSetsBusErrOnly := by
  unfold Obligations.MalformedAccessSetsBusErrOnly
  intro s off bits v h
  rw [apertureAccess, apertureAccess, target_malformed h]
  exact ⟨rfl, rfl⟩

/-! ### The PRAM window (R53, R125) -/

theorem apertureAccess_readWindow_idle (ht : target s off bits = .window a) (hb : s.status.busy = false) :
    apertureAccess off bits .read s = { s with response := some (rd32 (memRead s a 4) 0) } := by
  simp only [apertureAccess, ht, hostRead, hb, Bool.false_eq_true, if_false]

theorem apertureAccess_writeWindow_idle (ht : target s off bits = .window a) (hb : s.status.busy = false) :
    apertureAccess off bits (.write v) s = { s with pram := (memWrite s a (be32 v)).pram, response := none } := by
  rw [apertureAccess, ht, hostWrite, lockout_idle hb, memWrite_eq_with_pram]

theorem apertureAccess_readWindow_busy (ht : target s off bits = .window a) (hb : s.status.busy = true) :
    apertureAccess off bits .read s = { setAccBusy s with response := some 0 } := by
  simp only [apertureAccess, ht, hostRead, hb, if_true]

theorem apertureAccess_writeWindow_busy (ht : target s off bits = .window a) (hb : s.status.busy = true) :
    apertureAccess off bits (.write v) s = { setAccBusy s with response := none } := by
  rw [apertureAccess, ht, hostWrite, lockout_busy hb]

/-- The word read at `a` is the number of the four bytes from `a`, most significant first (R54). -/
theorem rd32_memRead_toNat (s : State) (a : Nat) :
    (rd32 (memRead s a 4) 0).toNat = (readByte s a).toNat * 2 ^ 24 + (readByte s (a + 1)).toNat * 2 ^ 16
      + (readByte s (a + 2)).toNat * 2 ^ 8 + (readByte s (a + 3)).toNat :=
  wordOfBytes_toNat _ _ _ _

/-- Settles O13: the offset reaches PRAM word `a`; idle, the access is the read or the write of its four bytes, and busy,
the lockout drops it. -/
theorem pramWindow : Obligations.PramWindow := by
  unfold Obligations.PramWindow
  intro s off a v hoff h4 hin
  have ht : target s off 32 = .window a := by
    rw [target_window (by omega) (by omega) (by omega), hoff, Nat.add_sub_cancel_left]
  refine ⟨fun hb => ⟨⟨_, apertureAccess_readWindow_idle ht hb, rd32_memRead_toNat s a⟩,
    ⟨_, apertureAccess_writeWindow_idle ht hb, rfl, ?_⟩⟩,
    fun hb => ⟨apertureAccess_readWindow_busy ht hb, apertureAccess_writeWindow_busy ht hb⟩⟩
  have hread : ∀ b, readByte { s with pram := (memWrite s a (be32 v)).pram, response := none } b =
      readByte (memWrite s a (be32 v)) b := readByte_congr rfl
  have hstored : ∀ i < 4, readByte (memWrite s a (be32 v)) (a + i) = byteAt (be32 v) i :=
    readByte_memWrite_inside s a (be32 v)
  simp only [hread]
  exact ⟨hstored 0 (by decide), hstored 1 (by decide), hstored 2 (by decide), hstored 3 (by decide),
    readByte_memWrite_outside s a (be32 v)⟩

end Sys2Proof.Machine
end

section
/-! The command word (30_encoding.md R68–R74): the words that decode to a command, the row of the pattern table that matches
a word, and the illegal words. -/

namespace Sys2Proof.Machine

/-! ### Decode and encode (R68–R71, R73) -/

theorem wellFormed_of_indexOf_lt {i : Instr} (h : indexOf i < 16) : i.wellFormed = true := by
  cases i <;> simp_all [Instr.wellFormed, Instr.idxFits, indexOf]

/-- The fields a word must have to decode to a command (R68–R71). -/
theorem decode_eq_ok {w : Word} {i : Instr} :
    decode w = .ok i ↔ rsvField w = 0 ∧ opcField w = opcodeOf i ∧ idxField w = indexOf i := by
  rw [decode]
  split_ifs with h
  · rw [decodeFields_ok, and_iff_right h]
  · exact ⟨nofun, fun ⟨h0, _⟩ => absurd h0 h⟩

/-- Settles O1: the word's fields are OPC and IDX of the command, whose encoding is that number. -/
theorem decodeInvertsEncode : Obligations.DecodeInvertsEncode := by
  unfold Obligations.DecodeInvertsEncode
  intro w i
  constructor
  · intro h
    obtain ⟨hr, ho, hi⟩ := decode_eq_ok.1 h
    rw [rsvField_eq] at hr
    rw [opcField_eq] at ho
    rw [idxField_eq] at hi
    have hlt : indexOf i < 16 := by omega
    refine ⟨wellFormed_of_indexOf_lt hlt, BitVec.eq_of_toNat_eq ?_⟩
    rw [encode_toNat hlt]
    omega
  · rintro ⟨h, rfl⟩
    exact Laws.RoundTrip.of_fields i h

/-- Settles O4: the decoder computes the command of each word. -/
theorem specWordsDecode : Obligations.SpecWordsDecode := by
  unfold Obligations.SpecWordsDecode
  decide

/-! ### The pattern table (R74) -/

/-- The row of a command whose index is 0 in every word (R74). -/
def fixedRow (i : Instr) : TableRow := ⟨mnemonicOf i, encode i, 0xFFFFFFFF⟩

/-- The row of a flag command, whose mask leaves the index free (R74). -/
def indexedRow (f : Nat → Instr) : TableRow := ⟨mnemonicOf (f 0), encode (f 0), 0xFFFFF0FF⟩

theorem opcodeTable_eq : opcodeTable =
    [fixedRow .cksum, fixedRow .pcksum, fixedRow .ipdec, fixedRow .ipenc, fixedRow .tcpdec, fixedRow .tcpenc,
      indexedRow .fset, indexedRow .fclr, indexedRow .ftest, fixedRow .aton, fixedRow .ntoa] := by
  decide

/-- The row matches the word exactly when the word decodes to a command of the row's mnemonic. -/
def RowMatchesDecoded (w : Word) (r : TableRow) : Prop :=
  w &&& r.mask = r.pattern ↔ ∃ i, decode w = .ok i ∧ mnemonicOf i = r.mnemonic

/-- The row of a command without an index matches its encoding alone. -/
theorem fixedRow_matches {i : Instr} (hwf : i.wellFormed = true) (hi : ∀ j, mnemonicOf j = mnemonicOf i → j = i)
    (w : Word) : RowMatchesDecoded w (fixedRow i) := by
  have hmask : w &&& 0xFFFFFFFF = w := BitVec.and_allOnes
  rw [RowMatchesDecoded, fixedRow, hmask]
  constructor
  · rintro rfl
    exact ⟨i, Laws.RoundTrip.of_fields i hwf, rfl⟩
  · rintro ⟨j, hd, hm⟩
    obtain rfl := hi j hm
    exact ((decodeInvertsEncode w j).1 hd).2.symm

/-- The mask of a flag command keeps RSV and OPC. -/
theorem and_indexedMask_toNat (w : Word) : (w &&& 0xFFFFF0FF).toNat = rsvField w * 4096 + opcField w := by
  have h : w &&& 0xFFFFF0FF = w.extractLsb' 12 20 ++ 0#4 ++ w.extractLsb' 0 8 := by
    apply BitVec.eq_of_getLsbD_eq
    intro i hi
    simp only [BitVec.getLsbD_and, BitVec.getLsbD_append, BitVec.getLsbD_extractLsb']
    interval_cases i <;> simp
  have ho : opcField w < 2 ^ 8 := BitVec.isLt _
  rw [h, BitVec.toNat_append, BitVec.toNat_append, ← opcField, ← rsvField, ← Nat.shiftLeft_add_eq_or_of_lt ho,
    BitVec.toNat_ofNat, Nat.zero_mod, Nat.or_zero, Nat.shiftLeft_eq, Nat.shiftLeft_eq]
  omega

/-- A flag command's row matches the words whose RSV is 0 and whose OPC is the command's, whatever the index. -/
theorem indexedRow_matches {f : Nat → Instr} (hopc : ∀ k, opcodeOf (f k) = opcodeOf (f 0))
    (hidx : ∀ k, indexOf (f k) = k) (hf : ∀ j, mnemonicOf j = mnemonicOf (f 0) ↔ ∃ k, j = f k) (w : Word) : RowMatchesDecoded w (indexedRow f) := by
  have hlt := opcodeOf_lt (f 0)
  have ho : opcField w < 256 := BitVec.isLt _
  have hpat : (encode (f 0)).toNat = opcodeOf (f 0) := by rw [encode_toNat (by rw [hidx]; decide), hidx]; omega
  have hfields : w &&& 0xFFFFF0FF = encode (f 0) ↔ rsvField w = 0 ∧ opcField w = opcodeOf (f 0) := by
    rw [← BitVec.toNat_inj, and_indexedMask_toNat, hpat]
    omega
  rw [RowMatchesDecoded, indexedRow, hfields]
  constructor
  · rintro ⟨hr, hop⟩
    exact ⟨f (idxField w), decode_eq_ok.2 ⟨hr, hop.trans (hopc _).symm, (hidx _).symm⟩, (hf _).2 ⟨_, rfl⟩⟩
  · rintro ⟨j, hd, hm⟩
    obtain ⟨k, rfl⟩ := (hf j).1 hm
    obtain ⟨hr, hop, -⟩ := decode_eq_ok.1 hd
    exact ⟨hr, hop.trans (hopc k)⟩

theorem opcodeTable_matches (w : Word) : ∀ r ∈ opcodeTable, RowMatchesDecoded w r := by
  rw [opcodeTable_eq]
  simp only [List.forall_mem_cons, List.not_mem_nil, false_imp_iff, implies_true, and_true]
  refine ⟨?_, ?_, ?_, ?_, ?_, ?_, ?_, ?_, ?_, ?_, ?_⟩
  case refine_7 | refine_8 | refine_9 =>
    exact indexedRow_matches (fun _ => rfl) (fun _ => rfl) (fun j => by cases j <;> simp [mnemonicOf]) w
  all_goals exact fixedRow_matches rfl (fun j => by cases j <;> simp [mnemonicOf]) w

/-- Settles O2: rows that match a word name its decoded command, and no two rows share a mnemonic. -/
theorem wordSelectsOneTableRow : Obligations.WordSelectsOneTableRow := by
  unfold Obligations.WordSelectsOneTableRow
  refine fun w => ⟨fun r hr r' hr' hw hw' => ?_, opcodeTable_matches w⟩
  have hinj : ∀ r ∈ opcodeTable, ∀ r' ∈ opcodeTable, r.mnemonic = r'.mnemonic → r = r' := by decide
  obtain ⟨i, hd, hm⟩ := (opcodeTable_matches w r hr).1 hw
  obtain ⟨i', hd', hm'⟩ := (opcodeTable_matches w r' hr').1 hw'
  rw [hd] at hd'
  cases hd'
  exact hinj r hr r' hr' (hm.symm.trans hm')

/-! ### Illegal words (R71) -/

/-- The opcodes and indexes of the commands (R69, R70). -/
theorem exists_opcodeOf_indexOf_iff (o : Byte) (k : Nat) : (∃ i, o.toNat = opcodeOf i ∧ k = indexOf i) ↔
    o ∈ ([0x01, 0x02, 0x10, 0x11, 0x20, 0x21, 0x28, 0x29, 0x2A, 0x30, 0x31] : List Byte)
      ∧ (o ∈ ([0x28, 0x29, 0x2A] : List Byte) ∨ k = 0) := by
  constructor
  · rintro ⟨i, ho, rfl⟩
    obtain rfl : o = BitVec.ofNat 8 (opcodeOf i) := by rw [← ho, BitVec.ofNat_toNat, BitVec.setWidth_eq]
    cases i <;> simp [opcodeOf, indexOf]
  · rintro ⟨ho, hk⟩
    revert o
    simp only [List.forall_mem_cons, List.not_mem_nil, false_imp_iff, implies_true, and_true]
    exact ⟨fun h => ⟨.cksum, rfl, by simpa [indexOf] using h⟩, fun h => ⟨.pcksum, rfl, by simpa [indexOf] using h⟩,
      fun h => ⟨.ipdec, rfl, by simpa [indexOf] using h⟩, fun h => ⟨.ipenc, rfl, by simpa [indexOf] using h⟩,
      fun h => ⟨.tcpdec, rfl, by simpa [indexOf] using h⟩, fun h => ⟨.tcpenc, rfl, by simpa [indexOf] using h⟩,
      fun _ => ⟨.fset k, rfl, rfl⟩, fun _ => ⟨.fclr k, rfl, rfl⟩, fun _ => ⟨.ftest k, rfl, rfl⟩,
      fun h => ⟨.aton, rfl, by simpa [indexOf] using h⟩, fun h => ⟨.ntoa, rfl, by simpa [indexOf] using h⟩⟩

/-- A word is legal exactly when it decodes to a command (R71). -/
theorem not_illegalWord_iff (w : Word) : ¬ IllegalWord w ↔ ∃ i, decode w = .ok i := by
  have hr : rsvField w = 0 ↔ w.extractLsb' 12 20 = 0 := by rw [rsvField, ← BitVec.toNat_inj]; rfl
  have hi : idxField w = 0 ↔ w.extractLsb' 8 4 = 0 := by rw [idxField, ← BitVec.toNat_inj]; rfl
  simp only [decode_eq_ok, exists_and_left, hr]
  rw [opcField, exists_opcodeOf_indexOf_iff, hi, IllegalWord]
  tauto

theorem exists_decode_error_iff (w : Word) : (∃ e, decode w = .error e) ↔ IllegalWord w := by
  rw [← not_iff_not, not_illegalWord_iff]
  cases decode w <;> simp

/-- Settles O3: an illegal word is one that no command decodes from, so the engine's turn is its error completion. -/
theorem illegalWordCompletesWithIllegalCmd : Obligations.IllegalWordCompletesWithIllegalCmd := by
  unfold Obligations.IllegalWordCompletesWithIllegalCmd
  refine fun w s => ⟨exists_decode_error_iff w, fun hb => ?_, fun hw hcmd hb hm => ?_, .inl (by decide)⟩
  · rw [writeReg, lockout_idle hb]
    exact ⟨rfl, rfl⟩
  · obtain ⟨e, he⟩ := (exists_decode_error_iff w).2 hw
    rw [step, if_pos ((engineMoves_iff s).2 ⟨hb, hm⟩), engineTurn, hcmd, he]
    rfl

end Sys2Proof.Machine
end

section
/-! The wire formats (30_encoding.md R75–R78): the bits of a word made of four bytes, the fields of a header on the wire,
and the headers the decoders load and the encoders store. -/

namespace Sys2Proof.Machine

/-! ### Bits of a word of four bytes, byte 0 being the most significant (R11)

A field lies inside one byte, or spans two bytes and ends at bit 0 or bit 16. -/

section
variable (a b c d : Byte) {start len : Nat}

theorem extractLsb'_word_byte0 :
    BitVec.extractLsb' (start + 24) len (a ++ b ++ c ++ d : Word) = a.extractLsb' start len := by
  rw [BitVec.extractLsb'_append_eq_of_le (by omega), BitVec.extractLsb'_append_eq_of_le (by omega),
    BitVec.extractLsb'_append_eq_of_le (by omega)]
  congr 1

theorem extractLsb'_word_byte1 (h : start + len ≤ 8) :
    BitVec.extractLsb' (start + 16) len (a ++ b ++ c ++ d : Word) = b.extractLsb' start len := by
  rw [BitVec.extractLsb'_append_eq_of_le (by omega), BitVec.extractLsb'_append_eq_of_le (by omega),
    BitVec.extractLsb'_append_eq_of_add_le (by omega)]
  congr 1

theorem extractLsb'_word_byte2 (h : start + len ≤ 8) :
    BitVec.extractLsb' (start + 8) len (a ++ b ++ c ++ d : Word) = c.extractLsb' start len := by
  rw [BitVec.extractLsb'_append_eq_of_le (by omega), BitVec.extractLsb'_append_eq_of_add_le (by omega)]
  congr 1

/-- Bits that span a byte boundary, from bit 0 up. -/
theorem extractLsb'_append_low {n v w : Nat} (x : BitVec v) (y : BitVec w) :
    (x ++ y).extractLsb' 0 (n + w) = x.extractLsb' 0 n ++ y := by
  apply BitVec.eq_of_getLsbD_eq
  intro i hi
  simp only [BitVec.getLsbD_extractLsb', BitVec.getLsbD_append, Nat.zero_add, decide_eq_true hi, Bool.true_and]
  split_ifs with h
  · rfl
  · rw [decide_eq_true (show i - w < n by omega), Bool.true_and]

theorem extractLsb'_word_low (h : len ≤ 8) :
    BitVec.extractLsb' 0 (len + 8) (a ++ b ++ c ++ d : Word) = c.extractLsb' 0 len ++ d := by
  rw [extractLsb'_append_low, BitVec.extractLsb'_append_eq_of_add_le (by omega)]

theorem extractLsb'_word_high :
    BitVec.extractLsb' 16 (len + 8) (a ++ b ++ c ++ d : Word) = a.extractLsb' 0 len ++ b := by
  rw [BitVec.extractLsb'_append_eq_of_le (by omega), BitVec.extractLsb'_append_eq_of_le (by omega),
    show 16 - 8 - 8 = 0 from rfl, extractLsb'_append_low]

theorem getLsbD_word_byte1 {i : Nat} (h : i < 8) :
    BitVec.getLsbD (a ++ b ++ c ++ d : Word) (16 + i) = b.getLsbD i := by
  rw [BitVec.getLsbD_append, if_neg (by omega), BitVec.getLsbD_append, if_neg (by omega), BitVec.getLsbD_append,
    if_pos (by omega)]
  congr 1
  omega

theorem getLsbD_word_byte0 (i : Nat) : BitVec.getLsbD (a ++ b ++ c ++ d : Word) (24 + i) = a.getLsbD i := by
  rw [BitVec.getLsbD_append, if_neg (by omega), BitVec.getLsbD_append, if_neg (by omega), BitVec.getLsbD_append,
    if_neg (by omega)]
  congr 1
  omega

end

/-! ### Decoded headers -/

/-- The five words of a header are the bytes `b 0` .. `b 19`, four to a word, most significant first (R76, R78). -/
def WordsOfBytes (h : HeaderRegs) (b : Nat → Byte) : Prop :=
  h = { w0 := b 0 ++ b 1 ++ b 2 ++ b 3
        w1 := b 4 ++ b 5 ++ b 6 ++ b 7
        w2 := b 8 ++ b 9 ++ b 10 ++ b 11
        w3 := b 12 ++ b 13 ++ b 14 ++ b 15
        w4 := b 16 ++ b 17 ++ b 18 ++ b 19 }

theorem wordsOfBytes_headerOfBytes {f : List Byte} {b : Nat → Byte} (hb : ∀ k < 20, b k = byteAt f k) :
    WordsOfBytes (headerOfBytes f) b := by
  simp (disch := decide) only [WordsOfBytes, headerOfBytes, rd32, wordOfBytes_eq_append, hb]

/-- A source region of 20 bytes or more holds the words a decoder reads (R87, R93). -/
theorem wordsOfBytes_source {s : State} {b : Nat → Byte} (hb : ∀ k, b k = readByte s (s.srcAddr.toNat + k))
    (hn : 20 ≤ srcN s) : WordsOfBytes (headerOfBytes (srcBytes s)) b :=
  wordsOfBytes_headerOfBytes fun k hk => (hb k).trans (byteAt_memRead _ _ _ _ (by omega)).symm

/-- Each IPv4 field at its wire bits (R76). -/
theorem ipv4WireFields_of_words {h : HeaderRegs} {b : Nat → Byte} (hw : WordsOfBytes h b) :
    ipVer h = (b 0).extractLsb' 4 4 ∧ ipIhl h = (b 0).extractLsb' 0 4 ∧
    ipDscp h = (b 1).extractLsb' 2 6 ∧ ipEcn h = (b 1).extractLsb' 0 2 ∧
    ipTotlen h = b 2 ++ b 3 ∧ ipIdent h = b 4 ++ b 5 ∧
    ipFlags h = (b 6).extractLsb' 5 3 ∧ ipFragoff h = (b 6).extractLsb' 0 5 ++ b 7 ∧
    ipTtl h = b 8 ∧ ipProto h = b 9 ∧ ipHcsum h = b 10 ++ b 11 ∧
    ipSaddr h = b 12 ++ b 13 ++ b 14 ++ b 15 ∧ ipDaddr h = b 16 ++ b 17 ++ b 18 ++ b 19 := by
  rw [WordsOfBytes] at hw
  subst hw
  simp (disch := decide) only [ipVer, ipIhl, ipDscp, ipEcn, ipTotlen, ipIdent, ipFlags, ipFragoff, ipTtl, ipProto,
    ipHcsum, ipSaddr, ipDaddr, extractLsb'_word_byte0, extractLsb'_word_byte1, extractLsb'_word_byte2,
    extractLsb'_word_low, extractLsb'_word_high, BitVec.extractLsb'_eq_self, and_self]

/-- Each TCP field at its wire bits (R78). -/
theorem tcpWireFields_of_words {h : HeaderRegs} {b : Nat → Byte} (hw : WordsOfBytes h b) :
    tcpSport h = b 0 ++ b 1 ∧ tcpDport h = b 2 ++ b 3 ∧
    tcpSeq h = b 4 ++ b 5 ++ b 6 ++ b 7 ∧ tcpAcknum h = b 8 ++ b 9 ++ b 10 ++ b 11 ∧
    tcpDoff h = (b 12).extractLsb' 4 4 ∧ tcpFlags h = (b 12).extractLsb' 0 4 ++ b 13 ∧
    tcpFrsv h = (b 12).extractLsb' 1 3 ∧
    (∀ i, i < 8 → flagBit h.w3 i = (b 13).getLsbD i) ∧ flagBit h.w3 8 = (b 12).getLsbD 0 ∧
    tcpWindow h = b 14 ++ b 15 ∧ tcpTcsum h = b 16 ++ b 17 ∧ tcpUrgptr h = b 18 ++ b 19 := by
  rw [WordsOfBytes] at hw
  subst hw
  simp (disch := decide) only [tcpSport, tcpDport, tcpSeq, tcpAcknum, tcpDoff, tcpFlags, tcpFrsv, tcpWindow, tcpTcsum,
    tcpUrgptr, extractLsb'_word_byte0, extractLsb'_word_low, extractLsb'_word_high, BitVec.extractLsb'_eq_self, true_and,
    and_true]
  exact ⟨fun i hi => getLsbD_word_byte1 _ _ _ _ hi, getLsbD_word_byte0 _ _ _ _ 0⟩

/-- Settles O37: IPDEC loads the words of the source region's first 20 bytes. -/
theorem ipv4WireFields : Obligations.Ipv4WireFields := by
  unfold Obligations.Ipv4WireFields
  intro s t b h h0 hb
  obtain ⟨u, hu, rfl⟩ := exec_success h h0
  obtain ⟨-, ⟨hn, -⟩, rfl⟩ := ipdecResult_ok.1 hu
  exact ipv4WireFields_of_words (wordsOfBytes_source hb hn)

/-- Settles O38: TCPDEC loads the words of the source region's first 20 bytes. -/
theorem tcpWireFields : Obligations.TcpWireFields := by
  unfold Obligations.TcpWireFields
  intro s t b h h0 hb
  obtain ⟨u, hu, rfl⟩ := exec_success h h0
  obtain ⟨-, ⟨hn, -⟩, -, rfl⟩ := tcpdecResult_ok.1 hu
  exact tcpWireFields_of_words (wordsOfBytes_source hb hn)

/-! ### Encoded headers -/

/-- Fields that share a byte or cross one, put side by side, are those bytes (R76). -/
theorem ipv4_joined_fields {h : HeaderRegs} {b : Nat → Byte} (hw : WordsOfBytes h b) :
    b 0 = ipVer h ++ ipIhl h ∧ b 1 = ipDscp h ++ ipEcn h ∧ b 6 ++ b 7 = ipFlags h ++ ipFragoff h := by
  have h0 : ipVer h ++ ipIhl h = h.w0.extractLsb' 24 8 := BitVec.extractLsb'_append_extractLsb'_eq_extractLsb' rfl
  have h1 : ipDscp h ++ ipEcn h = h.w0.extractLsb' 16 8 := BitVec.extractLsb'_append_extractLsb'_eq_extractLsb' rfl
  have h6 : ipFlags h ++ ipFragoff h = h.w1.extractLsb' 0 16 :=
    BitVec.extractLsb'_append_extractLsb'_eq_extractLsb' rfl
  rw [h0, h1, h6, hw]
  simp (disch := decide) only [extractLsb'_word_byte0, extractLsb'_word_byte1, extractLsb'_word_low,
    BitVec.extractLsb'_eq_self, and_self]

/-- DOFF and the flags field, put side by side, are bytes 12 and 13 (R78). -/
theorem tcp_joined_fields {h : HeaderRegs} {b : Nat → Byte} (hw : WordsOfBytes h b) :
    b 12 ++ b 13 = tcpDoff h ++ tcpFlags h := by
  have h12 : tcpDoff h ++ tcpFlags h = h.w3.extractLsb' 16 16 :=
    BitVec.extractLsb'_append_extractLsb'_eq_extractLsb' rfl
  rw [h12, hw]
  simp only [extractLsb'_word_high, BitVec.extractLsb'_eq_self]

theorem ipHcsum_ipWithHcsum (h : HeaderRegs) (c : Half) : ipHcsum (ipWithHcsum h c) = c := by
  apply BitVec.eq_of_getLsbD_eq
  intro i hi
  simp only [ipHcsum, ipWithHcsum, BitVec.getLsbD_extractLsb', BitVec.getLsbD_and, BitVec.getLsbD_or,
    BitVec.getLsbD_setWidth]
  interval_cases i <;> simp

theorem tcpWithTcsum_w4_fields (h : HeaderRegs) (c : Half) :
    tcpTcsum (tcpWithTcsum h c) = c ∧ tcpUrgptr (tcpWithTcsum h c) = tcpUrgptr h := by
  constructor <;> apply BitVec.eq_of_getLsbD_eq <;> intro i hi <;>
    simp only [tcpTcsum, tcpUrgptr, tcpWithTcsum, BitVec.getLsbD_extractLsb', BitVec.getLsbD_and, BitVec.getLsbD_or,
      BitVec.getLsbD_setWidth, BitVec.getLsbD_shiftLeft] <;>
    interval_cases i <;> simp

/-- What an encoder that stored the header `h` before the source region leaves from DST_ADDR on (R89, R95). -/
theorem emitted_bytes {s : State} {b : Nat → Byte} (h : HeaderRegs) (c : Half)
    (hb : ∀ k, b k = readByte (complete .ok (emit s (headerBytes h ++ srcBytes s) c)) (s.dstAddr.toNat + k)) :
    WordsOfBytes h b ∧ ∀ j < s.srcLen.toNat, b (20 + j) = readByte s (s.srcAddr.toNat + j) := by
  have hf : ∀ k < 20 + srcN s, b k = byteAt (headerBytes h ++ srcBytes s) k := by
    intro k hk
    rw [hb k, readByte_complete_emit]
    exact readByte_memWrite_inside s (dstA s) _ k (by simpa using hk)
  constructor
  · have hw := wordsOfBytes_headerOfBytes (f := headerBytes h ++ srcBytes s) fun k hk => hf k (by omega)
    rwa [headerOfBytes_headerBytes_append] at hw
  · intro j hj
    rw [hf (20 + j) (Nat.add_lt_add_left hj 20)]
    exact (byteAt_append_right (headerBytes h) _ j).trans (byteAt_memRead s _ _ j hj)

/-- Settles O39: IPENC stores the header with HCSUM replaced by its checksum, then the source region. -/
theorem ipv4FrameBytes : Obligations.Ipv4FrameBytes := by
  unfold Obligations.Ipv4FrameBytes
  intro s t b h h0 hb
  obtain ⟨u, hu, rfl⟩ := exec_success h h0
  obtain ⟨-, -, -, -, -, -, rfl⟩ := ipencResult_ok.1 hu
  rw [ipFrame_eq] at hb
  obtain ⟨hw, hsrc⟩ := emitted_bytes _ _ hb
  obtain ⟨h0, h1, h6⟩ := ipv4_joined_fields hw
  obtain ⟨-, -, -, -, h2, h4, -, -, h8, h9, h10, h12, h16⟩ := ipv4WireFields_of_words hw
  obtain ⟨httl, hproto, -, -⟩ := extract_with_low s.ip.w2 (ipFrameChecksum s)
  exact ⟨h0, h1, h2.symm, h4.symm, h6, h8.symm.trans httl, h9.symm.trans hproto,
    h10.symm.trans (ipHcsum_ipWithHcsum _ _), h12.symm, h16.symm, hsrc⟩

/-- Settles O40: TCPENC stores the header with TCSUM replaced by its checksum, then the source region. -/
theorem tcpSegmentBytes : Obligations.TcpSegmentBytes := by
  unfold Obligations.TcpSegmentBytes
  intro s t b h h0 hb
  obtain ⟨u, hu, rfl⟩ := exec_success h h0
  obtain ⟨-, -, -, -, -, -, rfl⟩ := tcpencResult_ok.1 hu
  rw [tcpSegment_eq] at hb
  obtain ⟨hw, hsrc⟩ := emitted_bytes _ _ hb
  obtain ⟨h0, h2, h4, h8, -, -, -, -, -, h14, h16, h18⟩ := tcpWireFields_of_words hw
  have h12 := tcp_joined_fields hw
  obtain ⟨htcsum, hurg⟩ := tcpWithTcsum_w4_fields s.tcp (tcpSegmentChecksum s)
  exact ⟨h0.symm, h2.symm, h4.symm, h8.symm, h12, h14.symm,
    h16.symm.trans htcsum, h18.symm.trans hurg, hsrc⟩

end Sys2Proof.Machine
end

section
/-! The operand table's write columns (30_encoding.md R72): what each command leaves unchanged. -/

namespace Sys2Proof.Machine

variable {s t u : State} {i : Instr} {r : Reg}

/-! ### Registers and PRAM bytes a command's writes leave -/

/-- The completion writes STATUS and ERRCODE alone (R110). -/
theorem readReg_complete (e : ErrCode) (hr : r ∉ [Reg.status, .errcode]) : readReg (complete e s) r = readReg s r := by
  cases r
  case status | errcode => simp at hr
  all_goals rfl

/-- Storing bytes in PRAM leaves every register. -/
theorem readReg_memWrite (s : State) (a : Nat) (bs : List Byte) (r : Reg) : readReg (memWrite s a bs) r = readReg s r := by
  rw [memWrite_eq_with_pram]
  cases r <;> rfl

/-- An encoder's writes reach PRAM, RESULT_LEN and CKSUM (R89, R95). -/
theorem readReg_emit (f : List Byte) (c : Half) (hr : r ∉ [Reg.resultLen, .cksum]) :
    readReg (emit s f c) r = readReg s r := by
  rw [← readReg_memWrite s (dstA s) f r]
  cases r <;> trivial

/-- NTOA's writes reach PRAM and RESULT_LEN (R105). -/
theorem readReg_ntoaWrites (text : List Byte) (hr : r ≠ .resultLen) : readReg (ntoaWrites s text) r = readReg s r := by
  rw [← readReg_memWrite s (dstA s) text r]
  cases r <;> trivial

/-- A command's writes reach no register outside its row, the completion's registers apart (R72). -/
theorem readReg_commandResult (h : commandResult i s = .ok u) (hr : r ∉ commandWrites i ++ [.status, .errcode]) :
    readReg u r = readReg s r := by
  cases i <;> simp only [commandResult, commandWrites] at h hr
  case cksum => obtain ⟨-, rfl⟩ := cksumResult_ok.1 h; cases r <;> trivial
  case pcksum => obtain ⟨-, -, rfl⟩ := pcksumResult_ok.1 h; cases r <;> trivial
  case ipdec => obtain ⟨-, -, rfl⟩ := ipdecResult_ok.1 h; cases r <;> trivial
  case ipenc =>
    obtain ⟨-, -, -, -, -, -, rfl⟩ := ipencResult_ok.1 h
    exact readReg_emit _ _ fun hm => hr (List.mem_append_left _ hm)
  case tcpdec => obtain ⟨-, -, -, rfl⟩ := tcpdecResult_ok.1 h; cases r <;> trivial
  case tcpenc =>
    obtain ⟨-, -, -, -, -, -, rfl⟩ := tcpencResult_ok.1 h
    exact readReg_emit _ _ fun hm => hr (List.mem_append_left _ hm)
  case fset => obtain ⟨-, rfl⟩ := withFlagIndex_ok.1 h; cases r <;> trivial
  case fclr => obtain ⟨-, rfl⟩ := withFlagIndex_ok.1 h; cases r <;> trivial
  case ftest => obtain ⟨-, rfl⟩ := withFlagIndex_ok.1 h; cases r <;> trivial
  case aton => obtain ⟨-, _, _, _, _, -, -, -, -, -, rfl⟩ := atonResult_ok.1 h; cases r <;> trivial
  case ntoa =>
    obtain ⟨-, rfl⟩ := ntoaResult_ok.1 h
    exact readReg_ntoaWrites _ fun hm => hr (hm ▸ List.mem_cons_self)

theorem readByte_emit_outside (f : List Byte) (c : Half) {a : Nat} (ha : a < dstA s ∨ dstA s + f.length ≤ a) :
    readByte (emit s f c) a = readByte s a := readByte_memWrite_outside s (dstA s) f a ha

theorem readByte_ntoaWrites_outside (text : List Byte) {a : Nat} (ha : a < dstA s ∨ dstA s + text.length ≤ a) :
    readByte (ntoaWrites s text) a = readByte s a := readByte_memWrite_outside s (dstA s) text a ha

/-- A command's writes reach no PRAM byte outside the bytes its row stores (R72). -/
theorem readByte_commandResult (h : commandResult i s = .ok u) {a : Nat}
    (ha : a < s.dstAddr.toNat ∨ s.dstAddr.toNat + storedLen i s ≤ a) : readByte u a = readByte s a := by
  cases i <;> simp only [commandResult] at h
  case cksum => obtain ⟨-, rfl⟩ := cksumResult_ok.1 h; rfl
  case pcksum => obtain ⟨-, -, rfl⟩ := pcksumResult_ok.1 h; rfl
  case ipdec => obtain ⟨-, -, rfl⟩ := ipdecResult_ok.1 h; rfl
  case ipenc =>
    obtain ⟨-, -, -, -, -, -, rfl⟩ := ipencResult_ok.1 h
    exact readByte_emit_outside _ _ (by rw [ipFrame_length]; exact ha)
  case tcpdec => obtain ⟨-, -, -, rfl⟩ := tcpdecResult_ok.1 h; rfl
  case tcpenc =>
    obtain ⟨-, -, -, -, -, -, rfl⟩ := tcpencResult_ok.1 h
    exact readByte_emit_outside _ _ (by rw [tcpSegment_length]; exact ha)
  case fset => obtain ⟨-, rfl⟩ := withFlagIndex_ok.1 h; rfl
  case fclr => obtain ⟨-, rfl⟩ := withFlagIndex_ok.1 h; rfl
  case ftest => obtain ⟨-, rfl⟩ := withFlagIndex_ok.1 h; exact readByte_congr (setTest_pram s _) a
  case aton => obtain ⟨-, _, _, _, _, -, -, -, -, -, rfl⟩ := atonResult_ok.1 h; rfl
  case ntoa =>
    obtain ⟨-, rfl⟩ := ntoaResult_ok.1 h
    exact readByte_ntoaWrites_outside _ ha

/-! ### The frame of a command: success writes what its row lists, an error the completion alone (R72, R107) -/

section
variable (h : exec i s = .next t)
include h

theorem exec_readReg (hr : r ∉ commandWrites i ++ [.status, .errcode]) : readReg t r = readReg s r := by
  have hc : r ∉ [Reg.status, .errcode] := fun hm => hr (List.mem_append_right _ hm)
  rcases exec_cases h with ⟨u, hu, rfl⟩ | ⟨e, -, -, rfl⟩
  · rw [readReg_complete _ hc, readReg_commandResult hu hr]
  · exact readReg_complete e hc

theorem exec_test (hw : writesTest i = false) : t.status.test = s.status.test := by
  rcases exec_cases h with ⟨u, hu, rfl⟩ | ⟨e, -, -, rfl⟩
  · exact (complete_test _ u).trans (commandResult_test hw hu)
  · rfl

theorem exec_pld (hw : writesPld i = false) : t.status.pld = s.status.pld := by
  rcases exec_cases h with ⟨u, hu, rfl⟩ | ⟨e, -, -, rfl⟩
  · exact (complete_pld _ u).trans (commandResult_pld hw hu)
  · rfl

theorem exec_accBusy : t.status.accBusy = s.status.accBusy := by
  rcases exec_cases h with ⟨u, hu, rfl⟩ | ⟨e, -, -, rfl⟩
  · rw [complete_accBusy, commandResult_frame hu]
  · rfl

theorem exec_busErr : t.status.busErr = s.status.busErr := by
  rcases exec_cases h with ⟨u, hu, rfl⟩ | ⟨e, -, -, rfl⟩
  · rw [complete_busErr, commandResult_frame hu]
  · rfl

theorem exec_readByte {a : Nat} (ha : a < s.dstAddr.toNat ∨ s.dstAddr.toNat + storedLen i s ≤ a) :
    readByte t a = readByte s a := by
  rcases exec_cases h with ⟨u, hu, rfl⟩ | ⟨e, -, -, rfl⟩
  · exact readByte_commandResult hu ha
  · rfl

/-- A command whose row stores nothing leaves all of PRAM. -/
theorem exec_readByte_of_storesNone (hs : storedLen i s = 0) (a : Nat) : readByte t a = readByte s a :=
  exec_readByte h (by omega)

theorem exec_cfg : t.cfg = s.cfg := by
  rcases exec_cases h with ⟨u, hu, rfl⟩ | ⟨e, -, -, rfl⟩
  · exact (commandResult_keeps hu).2
  · rfl

theorem exec_host : t.host = s.host := by
  rcases exec_cases h with ⟨u, hu, rfl⟩ | ⟨e, -, -, rfl⟩
  · exact (commandResult_keeps hu).1
  · rfl

end

/-! ### The frames by command -/

/-- Settles O41: CKSUM and PCKSUM write CKSUM and store nothing. -/
theorem checksumCommandsFrame : Obligations.ChecksumCommandsFrame := by
  unfold Obligations.ChecksumCommandsFrame
  rintro s t (h | h) <;>
    exact ⟨fun r => exec_readReg h, exec_test h rfl, exec_pld h rfl, exec_accBusy h, exec_busErr h,
      exec_readByte_of_storesNone h rfl, exec_cfg h, exec_host h⟩

/-- Settles O42: each of the four writes at most one register, or TEST, and stores nothing. -/
theorem flagAndAddressCommandsFrame : Obligations.FlagAndAddressCommandsFrame := by
  unfold Obligations.FlagAndAddressCommandsFrame
  refine fun s t i => ⟨?_, fun h r => exec_readReg h, fun h => ⟨fun r => exec_readReg h, exec_test h rfl⟩, ?_⟩
  · rintro (h | h) <;> exact ⟨fun r => exec_readReg h, exec_test h rfl⟩
  · rintro (h | h | h | h) <;>
      exact ⟨exec_pld h rfl, exec_accBusy h, exec_busErr h, exec_readByte_of_storesNone h rfl, exec_cfg h, exec_host h⟩

/-- Settles O43: a decoder writes the registers of its row and PLD, and stores nothing. -/
theorem decodersFrame : Obligations.DecodersFrame := by
  unfold Obligations.DecodersFrame
  refine fun s t => ⟨fun h r => exec_readReg h, fun h r => exec_readReg h, ?_⟩
  rintro (h | h) <;>
    exact ⟨exec_test h rfl, exec_accBusy h, exec_busErr h, exec_readByte_of_storesNone h rfl, exec_cfg h, exec_host h⟩

/-- Settles O44: an encoder writes two registers and stores in its destination region. -/
theorem encodersFrame : Obligations.EncodersFrame := by
  unfold Obligations.EncodersFrame
  rintro s t (h | h) <;>
    exact ⟨fun r => exec_readReg h, exec_test h rfl, exec_pld h rfl, exec_accBusy h, exec_busErr h,
      fun a => exec_readByte h, exec_cfg h, exec_host h⟩

/-- Settles O45: NTOA writes RESULT_LEN and stores in its destination region. -/
theorem ntoaFrame : Obligations.NtoaFrame := by
  unfold Obligations.NtoaFrame
  exact fun s t h => ⟨fun r => exec_readReg h, exec_test h rfl, exec_pld h rfl, exec_accBusy h, exec_busErr h,
    fun a => exec_readByte h, exec_cfg h, exec_host h⟩

end Sys2Proof.Machine
end

section
/-! The operand table's read columns (30_encoding.md R72): a command's code and writes are a function of its operands. -/

namespace Sys2Proof.Machine

variable {s s' u u' : State} {i : Instr}

/-! ### Agreement -/

/-- The two states hold the same operands of the command: the registers of its row, and the source region where the row
reads it. -/
structure OperandsAgree (i : Instr) (s s' : State) : Prop where
  size : s.cfg.pramSize = s'.cfg.pramSize
  regs : ∀ r ∈ commandReads i, readReg s r = readReg s' r
  source : readsSource i = true → ∀ a, s.srcAddr.toNat ≤ a → a < s.srcAddr.toNat + s.srcLen.toNat →
    readByte s a = readByte s' a

/-- `u` and `u'` hold the same in all that the command's row writes, the bytes being those it stores from `s`. -/
structure WritesAgree (i : Instr) (s u u' : State) : Prop where
  regs : ∀ r ∈ commandWrites i, readReg u r = readReg u' r
  pld : writesPld i = true → u.status.pld = u'.status.pld
  test : writesTest i = true → u.status.test = u'.status.test
  bytes : ∀ a, s.dstAddr.toNat ≤ a → a < s.dstAddr.toNat + storedLen i s → readByte u a = readByte u' a

/-- The same error code, or the same writes. -/
def ResultsAgree (i : Instr) (s : State) : Except ErrCode State → Except ErrCode State → Prop
  | .error e, .error e' => e = e'
  | .ok u, .ok u' => WritesAgree i s u u'
  | _, _ => False

theorem ResultsAgree.raiseIf {bad bad' : Bool} {e : ErrCode} {r r' : Except ErrCode State} (hb : bad = bad')
    (h : ResultsAgree i s r r') : ResultsAgree i s (raiseIf bad e r) (raiseIf bad' e r') := by
  subst hb
  cases bad
  · exact h
  · rfl

/-- A command that stores nothing agrees in its bytes. -/
theorem WritesAgree.of_storesNone (hs : storedLen i s = 0) (hr : ∀ r ∈ commandWrites i, readReg u r = readReg u' r)
    (hp : writesPld i = true → u.status.pld = u'.status.pld)
    (ht : writesTest i = true → u.status.test = u'.status.test) : WritesAgree i s u u' :=
  ⟨hr, hp, ht, fun a h1 h2 => by omega⟩

/-! ### Operands as fields -/

theorem setWidth_32_inj {x y : Addr} : x.setWidth 32 = y.setWidth 32 ↔ x = y := by
  rw [← BitVec.toNat_inj, BitVec.toNat_setWidth_of_le (by decide), BitVec.toNat_setWidth_of_le (by decide),
    BitVec.toNat_inj]

theorem headerRegs_eq {h h' : HeaderRegs} (h0 : h.w0 = h'.w0) (h1 : h.w1 = h'.w1) (h2 : h.w2 = h'.w2)
    (h3 : h.w3 = h'.w3) (h4 : h.w4 = h'.w4) : h = h' := by
  show HeaderRegs.mk _ _ _ _ _ = h'
  rw [h0, h1, h2, h3, h4]

/-- The two states hold the same source region. -/
structure SourceAgrees (s s' : State) : Prop where
  addr : srcA s = srcA s'
  len : srcN s = srcN s'
  bytes : srcBytes s = srcBytes s'
  inRange : srcInRange s = srcInRange s'

theorem OperandsAgree.sourceAgrees (h : OperandsAgree i s s') (hi : readsSource i = true) : SourceAgrees s s' := by
  have hmem : Reg.srcAddr ∈ commandReads i ∧ Reg.srcLen ∈ commandReads i := by
    cases i <;> simp_all [readsSource, commandReads]
  have ha : srcA s = srcA s' := by rw [srcA, setWidth_32_inj.1 (h.regs .srcAddr hmem.1), srcA]
  have hn : srcN s = srcN s' := by rw [srcN, setWidth_32_inj.1 (h.regs .srcLen hmem.2), srcN]
  refine ⟨ha, hn, ?_, by rw [srcInRange, ha, hn, inRange, h.size]; rfl⟩
  rw [srcBytes, srcBytes, ← ha, ← hn]
  exact memRead_congr fun k hk => h.source hi _ (Nat.le_add_right _ _) (Nat.add_lt_add_left hk _)

/-- The two states hold the same destination address. -/
theorem OperandsAgree.dst (h : OperandsAgree i s s') (hi : .dstAddr ∈ commandReads i) : dstA s = dstA s' := by
  rw [dstA, setWidth_32_inj.1 (h.regs .dstAddr hi), dstA]

theorem OperandsAgree.segmentChecksum (h : OperandsAgree i s s') (h3 : .ipW3 ∈ commandReads i)
    (h4 : .ipW4 ∈ commandReads i) (seg : List Byte) (n : Nat) : segmentChecksum s seg n = segmentChecksum s' seg n := by
  have e3 : s.ip.w3 = s'.ip.w3 := h.regs .ipW3 h3
  have e4 : s.ip.w4 = s'.ip.w4 := h.regs .ipW4 h4
  rw [Machine.segmentChecksum, e3, e4, Machine.segmentChecksum]

theorem OperandsAgree.inRange (h : OperandsAgree i s s') (a n : Nat) : inRange s a n = inRange s' a n := by
  rw [Machine.inRange, h.size]
  rfl

/-! ### The commands that store nothing -/

theorem cksum_agrees (h : OperandsAgree .cksum s s') : ResultsAgree .cksum s (cksumResult s) (cksumResult s') := by
  have hs := h.sourceAgrees rfl
  exact .raiseIf (by rw [hs.inRange]) (.of_storesNone rfl (by simp [commandWrites, readReg, hs.bytes]) nofun nofun)

theorem pcksum_agrees (h : OperandsAgree .pcksum s s') : ResultsAgree .pcksum s (pcksumResult s) (pcksumResult s') := by
  have hs := h.sourceAgrees rfl
  have hc := h.segmentChecksum (by decide) (by decide)
  exact .raiseIf (by rw [hs.inRange]) (.raiseIf (by rw [hs.len])
    (.of_storesNone rfl (by simp [commandWrites, readReg, hs.bytes, hs.len, hc]) nofun nofun))

theorem ipdec_agrees (h : OperandsAgree .ipdec s s') : ResultsAgree .ipdec s (ipdecResult s) (ipdecResult s') := by
  have hs := h.sourceAgrees rfl
  refine .raiseIf (by rw [hs.inRange]) (.raiseIf (by rw [hs.len, hs.bytes]) (.of_storesNone rfl ?_ ?_ nofun))
  · simp [commandWrites, readReg, ipdecWrites, hs.addr, hs.len, hs.bytes]
  · simp [ipdecWrites, hs.len, hs.bytes]

theorem tcpdec_agrees (h : OperandsAgree .tcpdec s s') : ResultsAgree .tcpdec s (tcpdecResult s) (tcpdecResult s') := by
  have hs := h.sourceAgrees rfl
  have hc := h.segmentChecksum (by decide) (by decide)
  refine .raiseIf (by rw [hs.inRange]) (.raiseIf (by rw [hs.len, hs.bytes]) (.raiseIf (by rw [hs.len])
    (.of_storesNone rfl ?_ ?_ nofun)))
  · simp [commandWrites, readReg, tcpdecWrites, hs.addr, hs.len, hs.bytes, hc]
  · simp [tcpdecWrites, hs.len, hs.bytes]

theorem fset_agrees {k : Nat} (h : OperandsAgree (.fset k) s s') :
    ResultsAgree (.fset k) s (commandResult (.fset k) s) (commandResult (.fset k) s') := by
  have h3 : s.tcp.w3 = s'.tcp.w3 := h.regs .tcpW3 (by simp [commandReads])
  exact .raiseIf rfl (.of_storesNone rfl (by simp [commandWrites, readReg, h3]) nofun nofun)

theorem fclr_agrees {k : Nat} (h : OperandsAgree (.fclr k) s s') :
    ResultsAgree (.fclr k) s (commandResult (.fclr k) s) (commandResult (.fclr k) s') := by
  have h3 : s.tcp.w3 = s'.tcp.w3 := h.regs .tcpW3 (by simp [commandReads])
  exact .raiseIf rfl (.of_storesNone rfl (by simp [commandWrites, readReg, h3]) nofun nofun)

theorem ftest_agrees {k : Nat} (h : OperandsAgree (.ftest k) s s') :
    ResultsAgree (.ftest k) s (commandResult (.ftest k) s) (commandResult (.ftest k) s') := by
  have h3 : s.tcp.w3 = s'.tcp.w3 := h.regs .tcpW3 (by simp [commandReads])
  exact .raiseIf rfl (.of_storesNone rfl nofun nofun (by simp [h3]))

theorem aton_agrees (h : OperandsAgree .aton s s') : ResultsAgree .aton s (atonResult s) (atonResult s') := by
  have hs := h.sourceAgrees rfl
  refine .raiseIf (by rw [hs.inRange]) ?_
  rw [atonText, atonText, hs.bytes]
  cases quadValues (srcBytes s') with
  | none => rfl
  | some q => exact .raiseIf rfl (.of_storesNone rfl (by simp [commandWrites, readReg]) nofun nofun)

/-! ### The commands that store -/

/-- The same bytes written at one address are there in both states. -/
theorem readByte_memWrite_agrees {d d' a : Nat} {f : List Byte} (hd : d = d') (h1 : d ≤ a) (h2 : a < d + f.length) :
    readByte (memWrite s d f) a = readByte (memWrite s' d' f) a := by
  subst hd
  obtain ⟨k, rfl⟩ := Nat.exists_eq_add_of_le h1
  rw [readByte_memWrite_inside s d f k (by omega), readByte_memWrite_inside s' d f k (by omega)]

/-- NTOA's same text at the same address stores the same bytes. -/
theorem ntoaWrites_bytes_agree {text : List Byte} (hd : dstA s = dstA s') (a : Nat) (h1 : dstA s ≤ a)
    (h2 : a < dstA s + text.length) : readByte (ntoaWrites s text) a = readByte (ntoaWrites s' text) a :=
  readByte_memWrite_agrees hd h1 h2

theorem ntoa_agrees (h : OperandsAgree .ntoa s s') : ResultsAgree .ntoa s (ntoaResult s) (ntoaResult s') := by
  have hd := h.dst (by decide)
  have hv : s.addrVal = s'.addrVal := h.regs .addrVal (by decide)
  rw [ntoaResult, ntoaResult, h.inRange, hd, ← hv]
  refine .raiseIf rfl ⟨?_, nofun, nofun, ntoaWrites_bytes_agree hd⟩
  simp [commandWrites, readReg, ntoaWrites]

/-- The checks the two encoders share have the same answer. -/
theorem encoderChecks_agree (h : OperandsAgree i s s') (hs : SourceAgrees s s') (hd : dstA s = dstA s') :
    encodedLen s = encodedLen s' ∧ dstOutOfRange s = dstOutOfRange s' ∧ regionsOverlap s = regionsOverlap s' ∧
      ∀ words, optionsShort s words = optionsShort s' words := by
  have hlen : encodedLen s = encodedLen s' := by rw [encodedLen, hs.len, encodedLen]
  exact ⟨hlen, by rw [dstOutOfRange, h.inRange, hd, hlen, dstOutOfRange],
    by rw [regionsOverlap, hs.addr, hs.len, hd, hlen, regionsOverlap],
    fun words => by rw [optionsShort, hs.len, optionsShort]⟩

/-- Emitting the same frame with the same checksum writes the same registers. -/
theorem emit_regs_agree (f : List Byte) (c : Half) :
    ∀ r ∈ [Reg.resultLen, .cksum], readReg (emit s f c) r = readReg (emit s' f c) r := by
  simp [readReg, emit]

/-- Emitting the same frame at the same address stores the same bytes. -/
theorem emit_bytes_agree {f : List Byte} (c : Half) (hd : dstA s = dstA s') (hf : f.length = 20 + srcN s) (a : Nat)
    (h1 : dstA s ≤ a) (h2 : a < dstA s + (20 + srcN s)) : readByte (emit s f c) a = readByte (emit s' f c) a :=
  readByte_memWrite_agrees hd h1 (by rwa [hf])

theorem ipenc_agrees (h : OperandsAgree .ipenc s s') : ResultsAgree .ipenc s (ipencResult s) (ipencResult s') := by
  have hs := h.sourceAgrees rfl
  have hd := h.dst (by decide)
  obtain ⟨hlen, hdst, hover, hopt⟩ := encoderChecks_agree h hs hd
  have hip : s.ip = s'.ip := headerRegs_eq (h.regs .ipW0 (by decide)) (h.regs .ipW1 (by decide)) (h.regs .ipW2 (by decide))
    (h.regs .ipW3 (by decide)) (h.regs .ipW4 (by decide))
  have hf : ipFrameUnpatched s = ipFrameUnpatched s' := by rw [ipFrameUnpatched, hip, hs.bytes, ipFrameUnpatched]
  have hc : ipFrameChecksum s = ipFrameChecksum s' := by rw [ipFrameChecksum, hf, hip, ipFrameChecksum]
  have hframe : ipFrame s = ipFrame s' := by rw [ipFrame, hf, hc, ipFrame]
  rw [ipencResult, ipencResult, hs.inRange, hdst, hover, hopt, hip, hlen, ← hframe, ← hc]
  exact .raiseIf rfl (.raiseIf rfl (.raiseIf rfl (.raiseIf rfl (.raiseIf rfl (.raiseIf rfl
    ⟨emit_regs_agree _ _, nofun, nofun, emit_bytes_agree _ hd (ipFrame_length s)⟩)))))

theorem tcpenc_agrees (h : OperandsAgree .tcpenc s s') : ResultsAgree .tcpenc s (tcpencResult s) (tcpencResult s') := by
  have hs := h.sourceAgrees rfl
  have hd := h.dst (by decide)
  obtain ⟨hlen, hdst, hover, hopt⟩ := encoderChecks_agree h hs hd
  have htcp : s.tcp = s'.tcp := headerRegs_eq (h.regs .tcpW0 (by decide)) (h.regs .tcpW1 (by decide))
    (h.regs .tcpW2 (by decide)) (h.regs .tcpW3 (by decide)) (h.regs .tcpW4 (by decide))
  have hf : tcpSegmentUnpatched s = tcpSegmentUnpatched s' := by
    rw [tcpSegmentUnpatched, htcp, hs.bytes, tcpSegmentUnpatched]
  have hc : tcpSegmentChecksum s = tcpSegmentChecksum s' := by
    rw [tcpSegmentChecksum, h.segmentChecksum (by decide) (by decide), hf, hlen, tcpSegmentChecksum]
  have hseg : tcpSegment s = tcpSegment s' := by rw [tcpSegment, hf, hc, tcpSegment]
  rw [tcpencResult, tcpencResult, hs.inRange, hdst, hover, hopt, htcp, hlen, ← hseg, ← hc]
  exact .raiseIf rfl (.raiseIf rfl (.raiseIf rfl (.raiseIf rfl (.raiseIf rfl (.raiseIf rfl
    ⟨emit_regs_agree _ _, nofun, nofun, emit_bytes_agree _ hd (tcpSegment_length s)⟩)))))

/-! ### Every command -/

theorem commandResult_agrees (h : OperandsAgree i s s') : ResultsAgree i s (commandResult i s) (commandResult i s') := by
  cases i with
  | cksum => exact cksum_agrees h
  | pcksum => exact pcksum_agrees h
  | ipdec => exact ipdec_agrees h
  | ipenc => exact ipenc_agrees h
  | tcpdec => exact tcpdec_agrees h
  | tcpenc => exact tcpenc_agrees h
  | fset k => exact fset_agrees h
  | fclr k => exact fclr_agrees h
  | ftest k => exact ftest_agrees h
  | aton => exact aton_agrees h
  | ntoa => exact ntoa_agrees h

/-- No row lists a register that the completion writes (R72, R110). -/
theorem commandWrites_not_completion : ∀ r ∈ commandWrites i, r ∉ [Reg.status, .errcode] := by
  cases i <;> simp [commandWrites]

/-- Completing two states whose writes agree keeps them in agreement. -/
theorem WritesAgree.complete (h : WritesAgree i s u u') (e : ErrCode) : WritesAgree i s (complete e u) (complete e u') where
  regs r hr := by
    have hc := commandWrites_not_completion r hr
    rw [readReg_complete e hc, readReg_complete e hc, h.regs r hr]
  pld := h.pld
  test := h.test
  bytes := h.bytes

/-- Settles O46: the two results agree, and completing them sets the same code. -/
theorem commandsReadOnlyTheirOperands : Obligations.CommandsReadOnlyTheirOperands := by
  unfold Obligations.CommandsReadOnlyTheirOperands
  intro i s s' t t' hsize hregs hsrc h h'
  have hag := commandResult_agrees ⟨hsize, hregs, hsrc⟩
  rcases exec_cases h with ⟨u, hu, rfl⟩ | ⟨e, he, hu, rfl⟩ <;>
    rcases exec_cases h' with ⟨u', hu', rfl⟩ | ⟨e', he', hu', rfl⟩ <;> rw [hu, hu'] at hag
  · obtain ⟨hr, hp, ht, hb⟩ := WritesAgree.complete hag .ok
    exact ⟨rfl, fun _ => ⟨hr, hp, ht, hb⟩⟩
  · exact hag.elim
  · exact hag.elim
  · obtain rfl : e = e' := hag
    exact ⟨rfl, fun h0 => absurd ((errorNumber_eq_zero_iff e).1 h0) he⟩

end Sys2Proof.Machine
end

section
/-! The internet checksum (40_checksum.md R81–R86): its value, the paddings and orders it does not see, the patched sequence
it verifies, and the commands CKSUM and PCKSUM. -/

namespace Sys2Proof.Machine

/-! ### The value of the checksum (R81, R82) -/

/-- A folded sum is one value: 0 for the sum 0, else the representative in 1..0xFFFF of the sum modulo 0xFFFF (R82). -/
theorem foldedSum_eq {s : List Byte} {n : Nat} (hn : n ≤ 0xFFFF) (hmod : n % 0xFFFF = wordSum s % 0xFFFF)
    (hzero : n = 0 ↔ wordSum s = 0) : foldedSum s = n := by
  obtain ⟨h1, h2, h3⟩ := foldedSum_spec s
  omega

theorem internetChecksum_eq_ones_iff (s : List Byte) : internetChecksum s = 0xFFFF ↔ wordSum s = 0 := by
  obtain ⟨h1, -, h3⟩ := foldedSum_spec s
  rw [← h3, ← BitVec.toNat_inj, internetChecksum_toNat, show (0xFFFF : Half).toNat = 0xFFFF from rfl]
  omega

/-- Settles O47: the value is the folded sum. -/
theorem checksumValue : Obligations.ChecksumValue := by
  unfold Obligations.ChecksumValue
  intro s
  refine ⟨(internetChecksum_eq_ones_iff s).trans (wordSum_eq_zero_iff s), fun ⟨b, hb, hb0⟩ => ?_⟩
  obtain ⟨h1, h2, h3⟩ := foldedSum_spec s
  have hpos : wordSum s ≠ 0 := fun h => hb0 ((wordSum_eq_zero_iff s).1 h b hb)
  exact ⟨foldedSum s, Nat.pos_of_ne_zero (mt h3.1 hpos), h1, h2, internetChecksum_toNat s⟩

/-! ### The word sum by index, and zero bytes at the end (R81, R82 item 5) -/

/-- Word `k` is made of the bytes `2k` and `2k + 1`, a missing low byte being 0 (R81). -/
theorem wordSum_eq_sum_range (s : List Byte) :
    wordSum s = ((List.range ((s.length + 1) / 2)).map fun k =>
      (s.getD (2 * k) 0).toNat * 256 + (s.getD (2 * k + 1) 0).toNat).sum := by
  induction s using wordSum.induct with
  | case1 => rfl
  | case2 b => simp [wordSum]
  | case3 a b rest ih =>
    have hlen : ((a :: b :: rest).length + 1) / 2 = (rest.length + 1) / 2 + 1 := by
      simp only [List.length_cons]; omega
    rw [wordSum_pair, ih, hlen, List.range_succ_eq_map, List.map_cons, List.sum_cons, List.map_map]
    rfl

/-- Settles O48: the pairing is the word sum by index, and a zero byte at the end leaves the word sum. -/
theorem checksumPadding : Obligations.ChecksumPadding := by
  unfold Obligations.ChecksumPadding
  exact fun s => ⟨wordSum_eq_sum_range s, internetChecksum_congr (wordSum_append_zero s)⟩

/-! ### Incremental summing with end-around carry (R82 item 3) -/

theorem wordSum_be16 (c : Half) : wordSum (be16 c) = c.toNat := by
  have := c.isLt
  simp only [be16, wordSum_pair, wordSum, BitVec.extractLsb'_toNat, Nat.shiftRight_eq_div_pow]
  omega

theorem wordSum_flatMap_be16 (ws : List Half) : wordSum (ws.flatMap be16) = (ws.map BitVec.toNat).sum := by
  induction ws with
  | nil => rfl
  | cons w ws ih =>
    rw [List.flatMap_cons, wordSum_append (by simp), wordSum_be16, ih, List.map_cons, List.sum_cons]

/-- One addition with end-around carry. -/
def addEndAround (acc : Nat) (w : Half) : Nat :=
  if acc + w.toNat > 0xFFFF then acc + w.toNat - 0xFFFF else acc + w.toNat

/-- An end-around addition stays in 0..0xFFFF, keeps the sum modulo 0xFFFF, and is 0 only for 0 + 0. -/
theorem addEndAround_spec {acc : Nat} (h : acc ≤ 0xFFFF) (w : Half) :
    addEndAround acc w ≤ 0xFFFF ∧ addEndAround acc w % 0xFFFF = (acc + w.toNat) % 0xFFFF ∧
      (addEndAround acc w = 0 ↔ acc + w.toNat = 0) := by
  have := w.isLt
  rw [addEndAround]
  split_ifs <;> omega

/-- The incremental sum meets the three facts that determine the folded sum. -/
theorem foldl_addEndAround_spec (ws : List Half) {acc : Nat} (h : acc ≤ 0xFFFF) :
    ws.foldl addEndAround acc ≤ 0xFFFF ∧
      ws.foldl addEndAround acc % 0xFFFF = (acc + (ws.map BitVec.toNat).sum) % 0xFFFF ∧
      (ws.foldl addEndAround acc = 0 ↔ acc + (ws.map BitVec.toNat).sum = 0) := by
  induction ws generalizing acc with
  | nil => exact ⟨h, rfl, Iff.rfl⟩
  | cons w ws ih =>
    obtain ⟨a1, a2, a3⟩ := addEndAround_spec h w
    obtain ⟨i1, i2, i3⟩ := ih a1
    rw [List.foldl_cons, List.map_cons, List.sum_cons]
    exact ⟨i1, by omega, i3.trans (by omega)⟩

/-- Settles O49: the incremental sum is the folded sum. -/
theorem checksumIncremental : Obligations.ChecksumIncremental := by
  unfold Obligations.ChecksumIncremental
  intro ws
  obtain ⟨h1, h2, h3⟩ := foldl_addEndAround_spec ws (Nat.zero_le _)
  rw [Nat.zero_add, ← wordSum_flatMap_be16] at h2 h3
  exact congrArg (fun n => ~~~ BitVec.ofNat 16 n) (foldedSum_eq h1 h2 h3)

/-! ### Verification (R84) -/

/-- A word sum with the checksum added is a non-zero multiple of 0xFFFF (R84). -/
theorem internetChecksum_eq_zero_of_sum {s t : List Byte} (h : wordSum s = wordSum t + (internetChecksum t).toNat) :
    internetChecksum s = 0 := by
  obtain ⟨h1, h2, h3⟩ := foldedSum_spec t
  rw [internetChecksum_toNat] at h
  rw [internetChecksum_eq_zero_iff]
  omega

/-- Settles O50: the patch adds the checksum to the word sum. -/
theorem checksumVerification : Obligations.ChecksumVerification := by
  unfold Obligations.ChecksumVerification
  rintro t p c hp hlen h0 h1 rfl
  rw [← patch16_eq hlen]
  exact internetChecksum_eq_zero_of_sum (wordSum_patch16 hp hlen h0 h1 _)

/-! ### CKSUM and PCKSUM (R85, R86) -/

theorem srcInRange_fails {s : State} : (!srcInRange s) = true ↔ s.cfg.pramSize < srcA s + srcN s := by
  simp [srcInRange, inRange]

/-- The first check of a command that reads its source region (R109). -/
theorem commandResult_of_srcOutOfRange {i : Instr} {s : State} (hi : readsSource i = true)
    (h : s.cfg.pramSize < srcA s + srcN s) : commandResult i s = .error .range := by
  cases i
  case fset | fclr | ftest | ntoa => cases hi
  all_goals exact raiseIf_eq_error.2 (.inl ⟨srcInRange_fails.2 h, rfl⟩)

theorem commandResult_pcksum_of_segTooLong {s : State} (hr : srcA s + srcN s ≤ s.cfg.pramSize) (hn : 65535 < srcN s) :
    commandResult .pcksum s = .error .segTooLong :=
  raiseIf_eq_error.2 (.inr ⟨srcInRange_passes.2 hr, raiseIf_eq_error.2 (.inl ⟨decide_eq_true hn, rfl⟩)⟩)

/-- Settles O26: the one check splits at PRAM_SIZE. -/
theorem Checksum.cksumResult : Obligations.CksumResult := by
  unfold Obligations.CksumResult
  refine ⟨rfl, fun s => ⟨fun hr => ?_, fun hr => ?_⟩⟩
  · exact exec_of_ok (cksumResult_ok.2 ⟨hr, rfl⟩)
  · exact exec_of_error (commandResult_of_srcOutOfRange rfl hr)

/-- Settles O27: the two checks split at PRAM_SIZE and at 65535, and the pseudo-header's bytes are R83's. -/
theorem Checksum.pcksumResult : Obligations.PcksumResult := by
  unfold Obligations.PcksumResult
  refine ⟨rfl, fun s => ⟨fun hr => ?_, fun hr hn => ?_, fun hr hn => ?_⟩⟩
  · exact exec_of_error (commandResult_of_srcOutOfRange rfl hr)
  · exact exec_of_error (commandResult_pcksum_of_segTooLong hr hn)
  · exact exec_of_ok (pcksumResult_ok.2 ⟨hr, hn, rfl⟩)

/-! ### PCKSUM and the order of the addresses (R86) -/

/-- The state with IP_W3 and IP_W4 exchanged. -/
def swapAddresses (s : State) : State := { s with ip := { s.ip with w3 := s.ip.w4, w4 := s.ip.w3 } }

theorem segmentChecksum_swapAddresses (s : State) (seg : List Byte) (n : Nat) :
    segmentChecksum (swapAddresses s) seg n = segmentChecksum s seg n := by
  refine internetChecksum_congr ?_
  rw [wordSum_append (by simp), wordSum_append (by simp)]
  exact congrArg (· + wordSum seg) (wordSum_pseudoHeader_swap _ _ _)

theorem map_raiseIf (f : State → State) (bad : Bool) (e : ErrCode) (r : Except ErrCode State) :
    (raiseIf bad e r).map f = raiseIf bad e (r.map f) := by
  cases bad <;> rfl

/-- PCKSUM does not see the exchange: its result is the exchange of its result. -/
theorem commandResult_pcksum_swapAddresses (s : State) :
    commandResult .pcksum (swapAddresses s) = (commandResult .pcksum s).map swapAddresses := by
  have hb : srcBytes (swapAddresses s) = srcBytes s := memRead_congr fun _ _ => rfl
  rw [commandResult, pcksumResult, hb, segmentChecksum_swapAddresses, commandResult, pcksumResult, map_raiseIf, map_raiseIf]
  rfl

theorem exec_pcksum_swapAddresses {s t : State} (h : exec .pcksum s = .next t) :
    exec .pcksum (swapAddresses s) = .next (swapAddresses t) := by
  rw [exec_eq_conclude, commandResult_pcksum_swapAddresses]
  rcases exec_cases h with ⟨u, hu, rfl⟩ | ⟨e, -, he, rfl⟩
  · rw [hu]; rfl
  · rw [he]; rfl

/-- Settles O51: PCKSUM of the exchanged state is the exchange of its completion. -/
theorem pcksumAddressOrder : Obligations.PcksumAddressOrder := by
  unfold Obligations.PcksumAddressOrder
  rintro s _ t t' rfl h h'
  obtain rfl : swapAddresses t = t' := by simpa using (exec_pcksum_swapAddresses h).symm.trans h'
  exact ⟨rfl, rfl⟩

end Sys2Proof.Machine
end

section
/-! The IPv4 codec (41_ipv4_codec.md R87–R92): the checks of IPDEC and IPENC in order, and what a later command finds in the
frame IPENC stored. -/

namespace Sys2Proof.Machine

variable {s t u : State}

/-! ### Failing checks of the decoders and the encoders (R87, R89, R109) -/

theorem headerMalformed_fails {n words : Nat} :
    headerMalformed n words = true ↔ n < 20 ∨ words < 5 ∨ n < 4 * words := by
  rw [← Bool.not_eq_false, headerMalformed_passes]
  omega

theorem dstOutOfRange_fails : dstOutOfRange s = true ↔ s.cfg.pramSize < dstA s + (20 + srcN s) := by
  rw [← Bool.not_eq_false, dstInRange_passes, not_le]

theorem regionsOverlap_fails : regionsOverlap s = true ↔
    0 < srcN s ∧ srcA s < dstA s + (20 + srcN s) ∧ dstA s < srcA s + srcN s := by
  rw [← Bool.not_eq_false, regionsOverlap_passes, not_not]

theorem optionsShort_fails {words : Nat} : optionsShort s words = true ↔ srcN s < 4 * words - 20 := by
  rw [← Bool.not_eq_false, optionsShort_passes, not_le]

/-! ### IPDEC (R87) -/

theorem frameIhl_srcBytes (hn : 0 < srcN s) : frameIhl (srcBytes s) = (readByte s (srcA s)).toNat % 16 := by
  rw [frameIhl, srcBytes, byteAt_memRead _ _ _ _ hn, BitVec.extractLsb'_toNat]
  rfl

theorem commandResult_ipdec_of_malformed (hr : srcA s + srcN s ≤ s.cfg.pramSize)
    (hm : headerMalformed (srcN s) (frameIhl (srcBytes s)) = true) :
    commandResult .ipdec s = .error .malformedHeader := by
  rw [commandResult, ipdecResult, srcInRange_passes.2 hr, hm]
  rfl

/-- Settles O28: the first byte of a region announces IHL, and an empty region is malformed without it. -/
theorem Ipv4.ipdecResult : Obligations.IpdecResult := by
  unfold Obligations.IpdecResult
  refine ⟨rfl, ?_⟩
  rintro s _ _ _ _ rfl rfl rfl rfl
  refine ⟨fun hr => ?_, fun hr hm => ?_, fun hr hn h5 hfit => ?_⟩
  · exact exec_of_error (commandResult_of_srcOutOfRange rfl hr)
  · refine exec_of_error (commandResult_ipdec_of_malformed hr (headerMalformed_fails.2 ?_))
    rcases Nat.eq_zero_or_pos (srcN s) with h0 | hpos
    · exact .inl (by omega)
    · rwa [frameIhl_srcBytes hpos]
  · have hihl := frameIhl_srcBytes (s := s) (Nat.lt_of_lt_of_le (by decide) hn)
    rw [srcA] at hihl
    rw [← hihl] at h5 hfit ⊢
    exact exec_of_ok (ipdecResult_ok.2 ⟨hr, ⟨hn, h5, hfit⟩, rfl⟩)

/-! ### IPENC (R89) -/

theorem commandResult_ipenc_of_dstOutOfRange (hsrc : srcA s + srcN s ≤ s.cfg.pramSize) (hdst : dstOutOfRange s = true) :
    commandResult .ipenc s = .error .range := by
  rw [commandResult, ipencResult, srcInRange_passes.2 hsrc, hdst]
  rfl

theorem commandResult_ipenc_of_overlap (hsrc : srcA s + srcN s ≤ s.cfg.pramSize) (hdst : dstOutOfRange s = false)
    (ho : regionsOverlap s = true) : commandResult .ipenc s = .error .overlap := by
  rw [commandResult, ipencResult, srcInRange_passes.2 hsrc, hdst, ho]
  rfl

/-- With both regions in range and apart, the header's own checks are left. -/
theorem commandResult_ipenc_of_regions (hsrc : srcA s + srcN s ≤ s.cfg.pramSize) (hdst : dstOutOfRange s = false)
    (ho : regionsOverlap s = false) : commandResult .ipenc s =
      (raiseIf (decide ((ipIhl s.ip).toNat < 5)) .badHdrLen <|
        raiseIf (optionsShort s (ipIhl s.ip).toNat) .optShort <|
        raiseIf (decide ((ipTotlen s.ip).toNat ≠ 20 + srcN s)) .totlenMismatch <|
        .ok (emit s (ipFrame s) (ipFrameChecksum s))) := by
  rw [commandResult, ipencResult, srcInRange_passes.2 hsrc, hdst, ho]
  rfl

/-- IPENC's writes as R89 spells them: the checksum's two bytes replaced, and RESULT_LEN the frame's length. -/
theorem emit_ipFrame_eq (s : State) :
    emit s (ipFrame s) (ipFrameChecksum s) =
      { memWrite s (dstA s)
          ((ipFrameUnpatched s).take 10 ++ be16 (ipFrameChecksum s) ++ (ipFrameUnpatched s).drop 12) with
        resultLen := BitVec.ofNat 18 (20 + srcN s)
        cksum := ipFrameChecksum s } := by
  have hlen : 10 + 1 < (ipFrameUnpatched s).length := by
    rw [ipFrameUnpatched, List.length_append, headerBytes_length]
    omega
  rw [emit, ipFrame_length, ipFrame, patch16_eq hlen]

/-- Settles O29: the checks fail in order, and past them IPENC stores the patched frame. -/
theorem Ipv4.ipencResult : Obligations.IpencResult := by
  unfold Obligations.IpencResult
  refine ⟨rfl, ?_⟩
  rintro s _ _ _ _ _ _ rfl rfl rfl rfl rfl rfl
  refine ⟨fun hr => ?_, fun hsrc hd => ?_⟩
  · by_cases hsrc : srcA s + srcN s ≤ s.cfg.pramSize
    · have hdst : s.cfg.pramSize < dstA s + 20 + srcN s := hr.resolve_left (not_lt.2 hsrc)
      exact exec_of_error (commandResult_ipenc_of_dstOutOfRange hsrc (dstOutOfRange_fails.2 (by omega)))
    · exact exec_of_error (commandResult_of_srcOutOfRange rfl (not_le.1 hsrc))
  · rw [Nat.add_assoc] at hd ⊢
    have hdst := dstInRange_passes.2 hd
    refine ⟨fun ho => ?_, fun ho => ?_⟩
    · exact exec_of_error (commandResult_ipenc_of_overlap hsrc hdst (regionsOverlap_fails.2 ho))
    · have hres := commandResult_ipenc_of_regions hsrc hdst (regionsOverlap_passes.2 ho)
      refine ⟨fun h5 => exec_of_error (e := .badHdrLen) ?_, fun h5 hopt => exec_of_error (e := .optShort) ?_,
        fun h5 hopt htot => exec_of_error (e := .totlenMismatch) ?_, fun h5 hopt htot => ?_⟩
      · rw [hres, decide_eq_true h5, raiseIf_true]
      · rw [hres, decide_eq_false (not_lt.2 h5), raiseIf_false, optionsShort_fails.2 hopt, raiseIf_true]
      · rw [hres, decide_eq_false (not_lt.2 h5), raiseIf_false, optionsShort_passes.2 hopt, raiseIf_false]
        exact raiseIf_eq_error.2 (.inl ⟨decide_eq_true htot, rfl⟩)
      · have hok := exec_of_ok (i := .ipenc) (ipencResult_ok.2 ⟨hsrc, hd, ho, h5, hopt, htot, rfl⟩)
        rw [emit_ipFrame_eq] at hok
        exact hok

/-! ### What a later command finds in its source region -/

/-- Bytes stored at an address, read back from there by a state over the same PRAM. -/
theorem memRead_stored {f : List Byte} {a k : Nat} (hb : ∀ x, readByte u x = readByte (memWrite s a f) x)
    (hk : k ≤ f.length) : memRead u a k = f.take k := by
  rw [memRead_congr fun i _ => hb (a + i), ← take_memRead _ _ _ _ hk, memRead_memWrite]

/-- In a legal build the locators of a header that fits the source region fit their 18 bits (R8, R42–R45). -/
theorem locate_toNat {words : Nat} (hcfg : s.cfg.legal = true) (hr : srcA s + srcN s ≤ s.cfg.pramSize)
    (hn : 20 ≤ srcN s) (hfit : 4 * words ≤ srcN s) :
    (locate s words).optOff.toNat = srcA s + 20 ∧ (locate s words).optLen.toNat = 4 * words - 20 ∧
      (locate s words).pldOff.toNat = srcA s + 4 * words ∧ (locate s words).pldLen.toNat = srcN s - 4 * words := by
  have hmax : s.cfg.pramSize ≤ 131072 := by
    simp only [Config.legal, Bool.and_eq_true, decide_eq_true_eq] at hcfg
    exact hcfg.1.2
  simp only [locate_optOff, locate_optLen, locate_pldOff, locate_pldLen, BitVec.toNat_ofNat, fixedHeader]
  omega

/-- The options and the payload are the source region past the fixed header. -/
theorem memRead_options_payload {h : HeaderRegs} {body : List Byte} {words : Nat}
    (hsrc : srcBytes s = headerBytes h ++ body) (h5 : 5 ≤ words) (hfit : 4 * words ≤ srcN s) :
    memRead s (srcA s + 20) (4 * words - 20) ++ memRead s (srcA s + 4 * words) (srcN s - 4 * words) = body := by
  have hsplit : srcBytes s = memRead s (srcA s) 20 ++
      (memRead s (srcA s + 20) (4 * words - 20) ++ memRead s (srcA s + 4 * words) (srcN s - 4 * words)) := by
    have hpld : srcA s + 4 * words = srcA s + 20 + (4 * words - 20) := by omega
    rw [hpld, ← memRead_append, ← memRead_append, srcBytes]
    congr 1
    omega
  exact List.append_inj_right (hsplit.symm.trans hsrc) (by simp)

/-! ### The frame IPENC stored (R91, R92) -/

theorem take_header_append (h : HeaderRegs) (rest : List Byte) {k : Nat} (hk : 20 ≤ k) :
    (headerBytes h ++ rest).take k = headerBytes h ++ rest.take (k - 20) := by
  rw [List.take_append, List.take_of_length_le (by simpa using hk), headerBytes_length]

/-- A header whose HCSUM is the checksum of itself with HCSUM 0, options included, sums to 0 (R84). -/
theorem internetChecksum_ipWithHcsum {h : HeaderRegs} {opts : List Byte} {c : Half}
    (hc : c = internetChecksum (headerBytes (ipZeroChecksum h) ++ opts)) :
    internetChecksum (headerBytes (ipWithHcsum h c) ++ opts) = 0 := by
  obtain ⟨h10, h11⟩ := ip_header_checksum_bytes_zero h opts
  have hlen : 10 + 1 < (headerBytes (ipZeroChecksum h) ++ opts).length := by
    rw [List.length_append, headerBytes_length]
    omega
  rw [← patch_ip_header, hc]
  exact internetChecksum_eq_zero_of_sum (wordSum_patch16 rfl hlen h10 h11 _)

/-- The header and options of IPENC's frame sum to 0. -/
theorem internetChecksum_ipFrame_header (h5 : 5 ≤ (ipIhl s.ip).toNat) :
    internetChecksum ((ipFrame s).take (4 * (ipIhl s.ip).toNat)) = 0 := by
  have hk : 20 ≤ 4 * (ipIhl s.ip).toNat := by omega
  rw [ipFrame_eq, take_header_append _ _ hk]
  exact internetChecksum_ipWithHcsum (by rw [ipFrameChecksum, ipFrameUnpatched, take_header_append _ _ hk])

/-- The frame announces the header length of the registers it was built from. -/
theorem frameIhl_ipFrame (s : State) : frameIhl (ipFrame s) = (ipIhl s.ip).toNat := by
  rw [frameIhl, ipFrame_eq, byteAt_header_ihl]
  rfl

theorem headerOfBytes_ipFrame (s : State) : headerOfBytes (ipFrame s) = ipWithHcsum s.ip (ipFrameChecksum s) := by
  rw [ipFrame_eq, headerOfBytes_headerBytes_append]

theorem ipWithHcsum_w2_high (h : HeaderRegs) (c : Half) :
    (ipWithHcsum h c).w2.extractLsb' 16 16 = h.w2.extractLsb' 16 16 := by
  apply BitVec.eq_of_getLsbD_eq
  intro i hi
  simp only [ipWithHcsum, BitVec.getLsbD_extractLsb', BitVec.getLsbD_and, BitVec.getLsbD_or, BitVec.getLsbD_setWidth]
  interval_cases i <;> simp

/-- A successful IPENC: the bounds its checks give, the checksum it reports, and the frame in PRAM from DST_ADDR on. -/
theorem ipenc_success (h : exec .ipenc s = .next t) (h0 : t.errcode = 0) :
    dstA s + (20 + srcN s) ≤ s.cfg.pramSize ∧ 5 ≤ (ipIhl s.ip).toNat ∧ 4 * (ipIhl s.ip).toNat ≤ 20 + srcN s ∧
      t.cksum = ipFrameChecksum s ∧ ∀ x, readByte t x = readByte (memWrite s (dstA s) (ipFrame s)) x := by
  obtain ⟨_, hs, rfl⟩ := exec_success h h0
  obtain ⟨-, hdst, -, h5, hopt, -, rfl⟩ := ipencResult_ok.1 hs
  exact ⟨hdst, h5, by omega, rfl, readByte_complete_emit _ _ _ _⟩

/-- IPDEC of a source region that holds the frame of `s`: it succeeds, with the frame's header and length. -/
theorem ipdec_ipFrame (hr : srcA u + srcN u ≤ u.cfg.pramSize) (hn : srcN u = 20 + srcN s)
    (hsrc : srcBytes u = ipFrame s) (h5 : 5 ≤ (ipIhl s.ip).toNat) (hfit : 4 * (ipIhl s.ip).toNat ≤ srcN u) :
    exec .ipdec u = .next (completedWith 0x00
      { locate u (ipIhl s.ip).toNat with ip := ipWithHcsum s.ip (ipFrameChecksum s), cksum := 0 }) := by
  have hihl : frameIhl (srcBytes u) = (ipIhl s.ip).toNat := by rw [hsrc, frameIhl_ipFrame]
  have hok := exec_of_ok (i := .ipdec) (ipdecResult_ok.2 ⟨hr, ⟨by omega, by omega, by omega⟩, rfl⟩)
  rwa [ipdecWrites, hihl, hsrc, headerOfBytes_ipFrame, internetChecksum_ipFrame_header h5] at hok

/-- Settles O52: the source region of `u` is the frame, whose header, options and payload IPDEC takes apart again. -/
theorem ipv4RoundTrip : Obligations.Ipv4RoundTrip := by
  unfold Obligations.Ipv4RoundTrip
  intro s t u hcfg h h0 hucfg hua hun hb
  obtain ⟨hdst, h5, hihl, hck, hmem⟩ := ipenc_success h h0
  have hA : srcA u = dstA s := hua
  have hN : srcN u = 20 + srcN s := hun
  have hsrc : srcBytes u = ipFrame s := by
    rw [srcBytes, hA, hN, memRead_stored (fun x => (hb x).trans (hmem x)) (by simp), List.take_of_length_le (by simp)]
  have hr : srcA u + srcN u ≤ u.cfg.pramSize := by rw [hucfg]; omega
  have hfit : 4 * (ipIhl s.ip).toNat ≤ srcN u := by omega
  obtain ⟨hoo, hol, hpo, hpl⟩ := locate_toNat (hucfg ▸ hcfg) hr (by omega) hfit
  refine ⟨_, ipdec_ipFrame hr hN hsrc h5 hfit, rfl, rfl, rfl, rfl, rfl, ipWithHcsum_w2_high _ _,
    (ipHcsum_ipWithHcsum _ _).trans hck.symm, hoo.trans (by rw [hA]; rfl), hol, hpo.trans (by rw [hA]; rfl), ?_, ?_, rfl⟩
  · exact hpl.trans (show srcN u - _ = srcN s - _ by omega)
  · have hparts := memRead_options_payload (hsrc.trans (ipFrame_eq s)) h5 hfit
    rw [← hoo, ← hol, ← hpo, ← hpl] at hparts
    exact (congrArg₂ _ (memRead_of_pram (by rfl) _ _) (memRead_of_pram (by rfl) _ _)).trans hparts

/-- Settles O53: the bytes CKSUM reads are the header and options of the frame. -/
theorem ipv4Verifies : Obligations.Ipv4Verifies := by
  unfold Obligations.Ipv4Verifies
  intro s t u _ h h0 hucfg hua hun hb
  obtain ⟨hdst, h5, hihl, hck, hmem⟩ := ipenc_success h h0
  have hA : srcA u = dstA s := hua
  have hN : srcN u = 4 * (ipIhl s.ip).toNat := hun
  have hsrc : srcBytes u = (ipFrame s).take (4 * (ipIhl s.ip).toNat) := by
    rw [srcBytes, hA, hN, memRead_stored (fun x => (hb x).trans (hmem x)) (by simpa using hihl)]
  have hr : srcA u + srcN u ≤ u.cfg.pramSize := by rw [hucfg]; omega
  constructor
  · exact ⟨_, exec_of_ok (cksumResult_ok.2 ⟨hr, rfl⟩), rfl,
      (congrArg internetChecksum hsrc).trans (internetChecksum_ipFrame_header h5)⟩
  · have hbytes : ∀ k < 20, readByte t (s.dstAddr.toNat + k) = byteAt (ipFrame s) k := fun k hk =>
      (hmem _).trans (readByte_memWrite_inside s (dstA s) _ k (by rw [ipFrame_length]; omega))
    have hw := wordsOfBytes_headerOfBytes hbytes
    rw [headerOfBytes_ipFrame] at hw
    obtain ⟨-, -, -, -, -, -, -, -, -, -, h10, -⟩ := ipv4WireFields_of_words hw
    rw [hck, ← ipHcsum_ipWithHcsum s.ip (ipFrameChecksum s), h10]

end Sys2Proof.Machine
end

section
/-! The TCP codec (42_tcp_codec.md R93–R101): the checks of TCPDEC and TCPENC in order, what a later command finds in the
segment TCPENC stored, and the three flag commands. -/

namespace Sys2Proof.Machine

variable {s t u : State}

/-! ### One check (R109) -/

theorem raiseIf_of_fails {bad : Bool} {e : ErrCode} {r : Except ErrCode State} (h : bad = true) :
    raiseIf bad e r = .error e := by rw [h, raiseIf_true]

theorem raiseIf_of_passes {bad : Bool} {e : ErrCode} {r : Except ErrCode State} (h : bad = false) :
    raiseIf bad e r = r := by rw [h, raiseIf_false]

/-! ### TCPDEC (R93) -/

/-- A region that reaches byte 12 announces DOFF in that byte's high half (R78). -/
theorem segmentDoff_srcBytes (hn : 12 < srcN s) : segmentDoff (srcBytes s) = (readByte s (srcA s + 12)).toNat / 16 := by
  have hlt := (readByte s (srcA s + 12)).isLt
  rw [segmentDoff, srcBytes, byteAt_memRead _ _ _ _ hn, BitVec.extractLsb'_toNat, Nat.shiftRight_eq_div_pow]
  omega

/-- Settles O30: byte 12 of a region announces DOFF, and a region that ends before it is malformed without it. -/
theorem Tcp.tcpdecResult : Obligations.TcpdecResult := by
  unfold Obligations.TcpdecResult
  refine ⟨rfl, ?_⟩
  rintro s _ _ _ _ rfl rfl rfl rfl
  have hdoff : 20 ≤ srcN s → segmentDoff (srcBytes s) = (readByte s (s.srcAddr.toNat + 12)).toNat / 16 :=
    fun hn => segmentDoff_srcBytes (Nat.lt_of_lt_of_le (by decide) hn)
  refine ⟨fun hr => ?_, fun hr hm => ?_, fun hr hn h5 hfit hlong => ?_, fun hr hn h5 hfit hmax => ?_⟩
  · exact exec_of_error (commandResult_of_srcOutOfRange rfl hr)
  · have hbad : headerMalformed (srcN s) (segmentDoff (srcBytes s)) = true := by
      refine headerMalformed_fails.2 ?_
      rcases Nat.lt_or_ge (srcN s) 20 with hshort | hn
      · exact .inl hshort
      · rwa [hdoff hn]
    exact exec_of_error (e := .malformedHeader)
      ((raiseIf_of_passes (srcInRange_passes.2 hr)).trans (raiseIf_of_fails hbad))
  · rw [← hdoff hn] at h5 hfit
    have hheader := headerMalformed_passes.2 ⟨hn, h5, hfit⟩
    exact exec_of_error (e := .segTooLong) ((raiseIf_of_passes (srcInRange_passes.2 hr)).trans
      ((raiseIf_of_passes hheader).trans (raiseIf_of_fails (decide_eq_true hlong))))
  · rw [← hdoff hn] at h5 hfit ⊢
    exact exec_of_ok (tcpdecResult_ok.2 ⟨hr, ⟨hn, h5, hfit⟩, hmax, rfl⟩)

/-! ### TCPENC (R95) -/

/-- The checks of an encoder's regions, before the checks of its own header (R89, R95). -/
theorem encoderRegions_pass {r : Except ErrCode State} (hsrc : srcA s + srcN s ≤ s.cfg.pramSize)
    (hdst : dstOutOfRange s = false) (ho : regionsOverlap s = false) :
    raiseIf (!srcInRange s) .range (raiseIf (dstOutOfRange s) .range (raiseIf (regionsOverlap s) .overlap r)) = r := by
  rw [srcInRange_passes.2 hsrc, hdst, ho, raiseIf_false, raiseIf_false, raiseIf_false]

/-- TCPENC's writes as R95 spells them: the checksum's two bytes replaced, and RESULT_LEN the segment's length. -/
theorem emit_tcpSegment_eq (s : State) :
    emit s (tcpSegment s) (tcpSegmentChecksum s) =
      { memWrite s (dstA s)
          ((tcpSegmentUnpatched s).take 16 ++ be16 (tcpSegmentChecksum s) ++ (tcpSegmentUnpatched s).drop 18) with
        resultLen := BitVec.ofNat 18 (20 + srcN s)
        cksum := tcpSegmentChecksum s } := by
  have hlen : 16 + 1 < (tcpSegmentUnpatched s).length := by
    rw [tcpSegmentUnpatched, List.length_append, headerBytes_length]
    omega
  rw [emit, tcpSegment_length, tcpSegment, patch16_eq hlen]

/-- Settles O31: the checks fail in order, and past them TCPENC stores the patched segment. -/
theorem Tcp.tcpencResult : Obligations.TcpencResult := by
  unfold Obligations.TcpencResult
  refine ⟨rfl, ?_⟩
  rintro s _ _ _ _ _ _ rfl rfl rfl rfl rfl rfl
  refine ⟨fun hr => ?_, fun hsrc hd => ?_⟩
  · by_cases hsrc : srcA s + srcN s ≤ s.cfg.pramSize
    · have hdst : s.cfg.pramSize < dstA s + 20 + srcN s := hr.resolve_left (not_lt.2 hsrc)
      exact exec_of_error (e := .range) ((raiseIf_of_passes (srcInRange_passes.2 hsrc)).trans
        (raiseIf_of_fails (dstOutOfRange_fails.2 (by omega))))
    · exact exec_of_error (commandResult_of_srcOutOfRange rfl (not_le.1 hsrc))
  · rw [Nat.add_assoc] at hd ⊢
    have hdst := dstInRange_passes.2 hd
    refine ⟨fun ho => ?_, fun ho => ?_⟩
    · exact exec_of_error (e := .overlap) ((raiseIf_of_passes (srcInRange_passes.2 hsrc)).trans
        ((raiseIf_of_passes hdst).trans (raiseIf_of_fails (regionsOverlap_fails.2 ho))))
    · have hregions := fun r => encoderRegions_pass (r := r) hsrc hdst (regionsOverlap_passes.2 ho)
      refine ⟨fun h5 => ?_, fun h5 hopt => ?_, fun h5 hopt hlong => ?_, fun h5 hopt hmax => ?_⟩
      · exact exec_of_error (e := .badHdrLen) ((hregions _).trans (raiseIf_of_fails (decide_eq_true h5)))
      · exact exec_of_error (e := .optShort) ((hregions _).trans
          ((raiseIf_of_passes (decide_eq_false (not_lt.2 h5))).trans (raiseIf_of_fails (optionsShort_fails.2 hopt))))
      · exact exec_of_error (e := .segTooLong) ((hregions _).trans
          ((raiseIf_of_passes (decide_eq_false (not_lt.2 h5))).trans
            ((raiseIf_of_passes (optionsShort_passes.2 hopt)).trans (raiseIf_of_fails (decide_eq_true hlong)))))
      · have hok := exec_of_ok (i := .tcpenc) (tcpencResult_ok.2 ⟨hsrc, hd, ho, h5, hopt, hmax, rfl⟩)
        rwa [emit_tcpSegment_eq] at hok

/-! ### The segment TCPENC stored (R100, R101) -/

theorem headerOfBytes_tcpSegment (s : State) :
    headerOfBytes (tcpSegment s) = tcpWithTcsum s.tcp (tcpSegmentChecksum s) := by
  rw [tcpSegment_eq, headerOfBytes_headerBytes_append]

/-- The segment announces the data offset of the registers it was built from. -/
theorem segmentDoff_tcpSegment (s : State) : segmentDoff (tcpSegment s) = (tcpDoff s.tcp).toNat := by
  rw [segmentDoff, tcpSegment_eq, byteAt_header_doff]
  rfl

/-- Under the same addresses, the pseudo-header and the segment sum to 0: the patch adds the checksum of the unpatched
segment (R84). -/
theorem segmentChecksum_tcpSegment (h3 : u.ip.w3 = s.ip.w3) (h4 : u.ip.w4 = s.ip.w4) :
    segmentChecksum u (tcpSegment s) (20 + srcN s) = 0 := by
  obtain ⟨h16, h17⟩ := tcp_header_checksum_bytes_zero s.tcp (srcBytes s)
  have hlen : 16 + 1 < (tcpSegmentUnpatched s).length := by
    rw [tcpSegmentUnpatched, List.length_append, headerBytes_length]
    omega
  have hpatch : wordSum (tcpSegment s) = wordSum (tcpSegmentUnpatched s) + (tcpSegmentChecksum s).toNat :=
    wordSum_patch16 rfl hlen h16 h17 _
  rw [segmentChecksum, h3, h4]
  refine internetChecksum_eq_zero_of_sum
    (t := pseudoHeader s.ip.w3 s.ip.w4 (20 + srcN s) ++ tcpSegmentUnpatched s) ?_
  rw [wordSum_append (by simp), wordSum_append (by simp), hpatch, ← Nat.add_assoc]
  rfl

/-- A successful TCPENC: the bounds its checks give, the results it reports, and the segment in PRAM from DST_ADDR on. -/
theorem tcpenc_success (h : exec .tcpenc s = .next t) (h0 : t.errcode = 0) :
    dstA s + (20 + srcN s) ≤ s.cfg.pramSize ∧ 5 ≤ (tcpDoff s.tcp).toNat ∧ 4 * (tcpDoff s.tcp).toNat ≤ 20 + srcN s ∧
      20 + srcN s ≤ 65535 ∧ t.resultLen.toNat = 20 + srcN s ∧ t.cksum = tcpSegmentChecksum s ∧
      ∀ x, readByte t x = readByte (memWrite s (dstA s) (tcpSegment s)) x := by
  obtain ⟨_, hs, rfl⟩ := exec_success h h0
  obtain ⟨-, hdst, -, h5, hopt, hmax, rfl⟩ := tcpencResult_ok.1 hs
  refine ⟨hdst, h5, by omega, hmax, ?_, rfl, readByte_complete_emit _ _ _ _⟩
  rw [complete_resultLen, emit, tcpSegment_length, BitVec.toNat_ofNat, Nat.mod_eq_of_lt (by omega)]

/-- A source region laid over the stored segment holds it. -/
theorem srcBytes_eq_tcpSegment (ha : srcA u = dstA s) (hn : srcN u = 20 + srcN s)
    (hb : ∀ x, readByte u x = readByte (memWrite s (dstA s) (tcpSegment s)) x) : srcBytes u = tcpSegment s := by
  rw [srcBytes, ha, hn, memRead_stored hb (by simp), List.take_of_length_le (by simp)]

/-- TCPDEC of a source region that holds the segment of `s`: it succeeds, with the segment's header and length. -/
theorem tcpdec_tcpSegment (hr : srcA u + srcN u ≤ u.cfg.pramSize) (hn : srcN u = 20 + srcN s)
    (hsrc : srcBytes u = tcpSegment s) (h3 : u.ip.w3 = s.ip.w3) (h4 : u.ip.w4 = s.ip.w4)
    (h5 : 5 ≤ (tcpDoff s.tcp).toNat) (hfit : 4 * (tcpDoff s.tcp).toNat ≤ srcN u) (hmax : srcN u ≤ 65535) :
    exec .tcpdec u = .next (completedWith 0x00
      { locate u (tcpDoff s.tcp).toNat with tcp := tcpWithTcsum s.tcp (tcpSegmentChecksum s), cksum := 0 }) := by
  have hdoff : segmentDoff (srcBytes u) = (tcpDoff s.tcp).toNat := by rw [hsrc, segmentDoff_tcpSegment]
  have hok := exec_of_ok (i := .tcpdec) (tcpdecResult_ok.2 ⟨hr, ⟨by omega, by omega, by omega⟩, hmax, rfl⟩)
  rwa [tcpdecWrites, hdoff, hsrc, headerOfBytes_tcpSegment, hn, segmentChecksum_tcpSegment h3 h4] at hok

/-- Settles O54: the source region of `u` is the segment, whose header, options and payload TCPDEC takes apart again. -/
theorem tcpRoundTrip : Obligations.TcpRoundTrip := by
  unfold Obligations.TcpRoundTrip
  intro s t u hcfg h h0 hucfg hua hun h3 h4 hb
  obtain ⟨hdst, h5, hdoff, hmax, -, hck, hmem⟩ := tcpenc_success h h0
  have hA : srcA u = dstA s := hua
  have hN : srcN u = 20 + srcN s := hun
  have hsrc := srcBytes_eq_tcpSegment hA hN fun x => (hb x).trans (hmem x)
  have hr : srcA u + srcN u ≤ u.cfg.pramSize := by rw [hucfg]; omega
  have hfit : 4 * (tcpDoff s.tcp).toNat ≤ srcN u := by omega
  obtain ⟨hoo, hol, hpo, hpl⟩ := locate_toNat (hucfg ▸ hcfg) hr (by omega) hfit
  obtain ⟨htcsum, hurg⟩ := tcpWithTcsum_w4_fields s.tcp (tcpSegmentChecksum s)
  refine ⟨_, tcpdec_tcpSegment hr hN hsrc h3 h4 h5 hfit (by omega), rfl, rfl, rfl, rfl, rfl, htcsum.trans hck.symm, hurg,
    hol, ?_, ?_, rfl⟩
  · exact hpl.trans (show srcN u - _ = srcN s - _ by omega)
  · have hparts := memRead_options_payload (hsrc.trans (tcpSegment_eq s)) h5 hfit
    rw [← hoo, ← hol, ← hpo, ← hpl] at hparts
    exact (congrArg₂ _ (memRead_of_pram (by rfl) _ _) (memRead_of_pram (by rfl) _ _)).trans hparts

/-- Settles O55: the bytes PCKSUM reads are the segment. -/
theorem tcpVerifies : Obligations.TcpVerifies := by
  unfold Obligations.TcpVerifies
  intro s t u _ h h0 hucfg hua hun h3 h4 hb
  obtain ⟨hdst, -, -, hmax, hlen, -, hmem⟩ := tcpenc_success h h0
  have hA : srcA u = dstA s := hua
  have hN : srcN u = 20 + srcN s := by rw [srcN, hun, hlen]
  have hsrc := srcBytes_eq_tcpSegment hA hN fun x => (hb x).trans (hmem x)
  have hok := exec_of_ok (i := .pcksum) (pcksumResult_ok.2 ⟨by rw [hucfg]; omega, by omega, rfl⟩)
  exact ⟨_, hok, rfl, by rw [hsrc, hN]; exact segmentChecksum_tcpSegment h3 h4⟩

/-! ### Flag bits (R96–R98) -/

/-- The mask of flag `i` (R39, R78). -/
theorem flagMask_getLsbD {i : Nat} (hi : i ≤ 8) (j : Nat) : (1#32 <<< (16 + i)).getLsbD j = (j == 16 + i) :=
  (bitWord_getLsbD true (16 + i) j (by omega)).trans (Bool.true_and _)

theorem setFlagBit_getLsbD {i : Nat} (hi : i ≤ 8) (w : Word) (j : Nat) :
    (setFlagBit w i).getLsbD j = (j == 16 + i || w.getLsbD j) := by
  rw [setFlagBit, BitVec.getLsbD_or, flagMask_getLsbD hi, Bool.or_comm]

theorem clearFlagBit_getLsbD {i : Nat} (hi : i ≤ 8) (w : Word) (j : Nat) :
    (clearFlagBit w i).getLsbD j = (!(j == 16 + i) && w.getLsbD j) := by
  rw [clearFlagBit, BitVec.getLsbD_and, BitVec.getLsbD_not, flagMask_getLsbD hi, Bool.and_comm]
  rcases Nat.lt_or_ge j 32 with hj | hj
  · rw [decide_eq_true hj, Bool.true_and]
  · rw [BitVec.getLsbD_of_ge w j hj, Bool.and_false, Bool.and_false]

/-! ### FSET, FCLR and FTEST (R96–R99) -/

/-- A word of the command's OPC with its index in bits [11:8] (R68, R70). -/
theorem decode_opcode_index {c : Instr} {i : BitVec 4} (hi : indexOf c = i.toNat) :
    decode (BitVec.ofNat 32 (opcodeOf c) ||| (i.setWidth 32 <<< 8)) = .ok c := by
  have hw : c.wellFormed = true := wellFormed_of_indexOf_lt (hi ▸ i.isLt)
  rw [← BitVec.ofNat_toNat, ← hi]
  exact Laws.RoundTrip.of_fields c hw

theorem withFlagIndex_fails {i : Nat} (h : 8 < i) : withFlagIndex i t = .error .badFlagIndex :=
  raiseIf_of_fails (decide_eq_true h)

theorem exec_fset {i : Nat} (hi : i ≤ 8) (s : State) : exec (.fset i) s =
    .next (completedWith 0x00 { s with tcp := { s.tcp with w3 := setFlagBit s.tcp.w3 i } }) :=
  exec_of_ok (withFlagIndex_ok.2 ⟨hi, rfl⟩)

theorem exec_fclr {i : Nat} (hi : i ≤ 8) (s : State) : exec (.fclr i) s =
    .next (completedWith 0x00 { s with tcp := { s.tcp with w3 := clearFlagBit s.tcp.w3 i } }) :=
  exec_of_ok (withFlagIndex_ok.2 ⟨hi, rfl⟩)

theorem exec_ftest {i : Nat} (hi : i ≤ 8) (s : State) : exec (.ftest i) s =
    .next (completedWith 0x00 { s with status := { s.status with test := s.tcp.w3.getLsbD (16 + i) } }) :=
  exec_of_ok (withFlagIndex_ok.2 ⟨hi, rfl⟩)

/-- Settles O32: the mask of flag `i` has bit 16 + i alone. -/
theorem flagSetAndClearResults : Obligations.FlagSetAndClearResults := by
  unfold Obligations.FlagSetAndClearResults
  refine ⟨fun i => ⟨decode_opcode_index (c := .fset i.toNat) rfl, decode_opcode_index (c := .fclr i.toNat) rfl⟩,
    fun s i => ⟨fun hi => ⟨?_, ?_⟩, fun hi => ⟨?_, ?_⟩⟩⟩
  · exact ⟨_, exec_fset hi s, setFlagBit_getLsbD hi _⟩
  · exact ⟨_, exec_fclr hi s, clearFlagBit_getLsbD hi _⟩
  · exact exec_of_error (i := .fset i) (withFlagIndex_fails hi)
  · exact exec_of_error (i := .fclr i) (withFlagIndex_fails hi)

/-- Settles O33: FTEST writes the bit it reads. -/
theorem flagTestResult : Obligations.FlagTestResult := by
  unfold Obligations.FlagTestResult
  refine ⟨fun i => decode_opcode_index (c := .ftest i.toNat) rfl, fun s i => ⟨fun hi => exec_ftest hi s, fun hi => ?_⟩⟩
  exact exec_of_error (i := .ftest i) (withFlagIndex_fails hi)

/-- Settles O56: FTEST reads the bit FSET or FCLR wrote, which is the one bit they write. -/
theorem flagLaws : Obligations.FlagLaws := by
  unfold Obligations.FlagLaws
  intro i s t hi
  refine ⟨fun h => ?_, fun h => ?_⟩
  · rw [exec_fset hi] at h
    cases h
    refine ⟨⟨_, exec_ftest hi _, ?_⟩, fun j hj => ?_⟩
    · exact (setFlagBit_getLsbD hi _ _).trans (by rw [beq_self_eq_true, Bool.true_or])
    · exact (setFlagBit_getLsbD hi _ j).trans (by rw [beq_false_of_ne hj, Bool.false_or])
  · rw [exec_fclr hi] at h
    cases h
    refine ⟨⟨_, exec_ftest hi _, ?_⟩, fun j hj => ?_⟩
    · exact (clearFlagBit_getLsbD hi _ _).trans (by rw [beq_self_eq_true, Bool.not_true, Bool.false_and])
    · exact (clearFlagBit_getLsbD hi _ j).trans (by rw [beq_false_of_ne hj, Bool.not_false, Bool.true_and])

end Sys2Proof.Machine
end

section
/-! The address converter (43_address.md R102–R106): the texts of four components, the text of an address, the two commands,
and the text NTOA stored read back by ATON. -/

namespace Sys2Proof.Machine

variable {s t u : State} {text p0 p1 p2 p3 : List Byte} {c0 c1 c2 c3 : Nat} {v : Word}

/-! ### Four components with dots between (R102) -/

theorem splitDots_components (h0 : IsComponent p0 c0) (h1 : IsComponent p1 c1) (h2 : IsComponent p2 c2)
    (h3 : IsComponent p3 c3) : splitDots (p0 ++ [dot] ++ p1 ++ [dot] ++ p2 ++ [dot] ++ p3) = [p0, p1, p2, p3] := by
  simp only [List.append_assoc, List.cons_append, List.nil_append]
  rw [splitDots_append_dot (isComponent_no_dot h0), splitDots_append_dot (isComponent_no_dot h1),
    splitDots_append_dot (isComponent_no_dot h2), splitDots_no_dot (isComponent_no_dot h3)]

/-- Four components of 1 to 3 digits and three dots are 7 to 15 bytes. -/
theorem isQuad_length (h : IsQuad text c0 c1 c2 c3) : 7 ≤ text.length ∧ text.length ≤ 15 := by
  obtain ⟨p0, p1, p2, p3, rfl, ⟨a0, b0, -⟩, ⟨a1, b1, -⟩, ⟨a2, b2, -⟩, ⟨a3, b3, -⟩⟩ := h
  simp only [List.length_append, List.length_singleton]
  omega

/-- The shortest spelling of a component's value is the component itself unless that has a leading zero. -/
theorem decimal_eq_iff {ds : List Byte} {x : Nat} (h : IsComponent ds x) (hx : x ≤ 255) :
    decimal x = ds ↔ ¬ LeadingZero ds :=
  ⟨fun he => he ▸ decimal_no_leadingZero hx, decimal_unique h⟩

/-! ### The text of an address with four given components (R103) -/

theorem quadText_of_components (h1 : c1 ≤ 255) (h2 : c2 ≤ 255) (h3 : c3 ≤ 255)
    (hv : v.toNat = c0 * 2 ^ 24 + c1 * 2 ^ 16 + c2 * 2 ^ 8 + c3) :
    quadText v = decimal c0 ++ [dot] ++ decimal c1 ++ [dot] ++ decimal c2 ++ [dot] ++ decimal c3 := by
  rw [quadText_eq, show v.toNat / 2 ^ 24 = c0 by omega, show v.toNat / 2 ^ 16 % 256 = c1 by omega,
    show v.toNat / 2 ^ 8 % 256 = c2 by omega, show v.toNat % 256 = c3 by omega]

theorem isQuad_quadText (h0 : c0 ≤ 255) (h1 : c1 ≤ 255) (h2 : c2 ≤ 255) (h3 : c3 ≤ 255)
    (hv : v.toNat = c0 * 2 ^ 24 + c1 * 2 ^ 16 + c2 * 2 ^ 8 + c3) : IsQuad (quadText v) c0 c1 c2 c3 :=
  ⟨_, _, _, _, quadText_of_components h1 h2 h3 hv, isComponent_decimal h0, isComponent_decimal h1,
    isComponent_decimal h2, isComponent_decimal h3⟩

/-- The bytes of a word, the most significant first, and the word put together from them (R104). -/
theorem word_components (v : Word) : v.toNat / 2 ^ 24 ≤ 255 ∧ v.toNat / 2 ^ 16 % 256 ≤ 255 ∧
    v.toNat / 2 ^ 8 % 256 ≤ 255 ∧ v.toNat % 256 ≤ 255 ∧
    v.toNat = v.toNat / 2 ^ 24 * 2 ^ 24 + v.toNat / 2 ^ 16 % 256 * 2 ^ 16 + v.toNat / 2 ^ 8 % 256 * 2 ^ 8
      + v.toNat % 256 := by
  have := v.isLt
  omega

/-- Settles O36: the four spellings are `decimal` of the word's bytes. -/
theorem dottedQuadText : Obligations.DottedQuadText := by
  unfold Obligations.DottedQuadText
  intro v
  obtain ⟨h0, h1, h2, h3, -⟩ := word_components v
  exact ⟨_, _, _, _, quadText_eq v, isComponent_decimal h0, isComponent_decimal h1, isComponent_decimal h2,
    isComponent_decimal h3, decimal_no_leadingZero h0, decimal_no_leadingZero h1, decimal_no_leadingZero h2,
    decimal_no_leadingZero h3, quadText_length v⟩

/-! ### ATON (R104) -/

theorem quadWord_eq_ofNat (h0 : c0 ≤ 255) (h1 : c1 ≤ 255) (h2 : c2 ≤ 255) (h3 : c3 ≤ 255) :
    quadWord c0 c1 c2 c3 = BitVec.ofNat 32 (c0 * 2 ^ 24 + c1 * 2 ^ 16 + c2 * 2 ^ 8 + c3) := by
  rw [← quadWord_toNat h0 h1 h2 h3, BitVec.ofNat_toNat, BitVec.setWidth_eq]

theorem exec_aton_of_isQuad (hr : srcA s + srcN s ≤ s.cfg.pramSize) (hq : IsQuad (srcBytes s) c0 c1 c2 c3)
    (h0 : c0 ≤ 255) (h1 : c1 ≤ 255) (h2 : c2 ≤ 255) (h3 : c3 ≤ 255) :
    exec .aton s = .next (completedWith 0x00
      { s with addrVal := BitVec.ofNat 32 (c0 * 2 ^ 24 + c1 * 2 ^ 16 + c2 * 2 ^ 8 + c3) }) := by
  rw [← quadWord_eq_ofNat h0 h1 h2 h3]
  exact exec_of_ok (atonResult_ok.2 ⟨hr, c0, c1, c2, c3, quadValues_eq_some.2 hq, h0, h1, h2, h3, rfl⟩)

/-- A quad with components up to 255: the texts ATON accepts (R102, R104). -/
def IsAddressText (text : List Byte) : Prop :=
  ∃ c0 c1 c2 c3, IsQuad text c0 c1 c2 c3 ∧ c0 ≤ 255 ∧ c1 ≤ 255 ∧ c2 ≤ 255 ∧ c3 ≤ 255

theorem atonText_eq_badAddress (h : ¬ IsAddressText text) : atonText s text = .error .badAddress := by
  rw [atonText]
  cases hq : quadValues text with
  | none => rfl
  | some c =>
    obtain ⟨c0, c1, c2, c3⟩ := c
    refine raiseIf_of_fails (Bool.of_not_eq_false fun hc => h ⟨c0, c1, c2, c3, quadValues_eq_some.1 hq, ?_⟩)
    simpa [and_assoc] using hc

theorem commandResult_aton_of_badText (hr : srcA s + srcN s ≤ s.cfg.pramSize) (h : ¬ IsAddressText (srcBytes s)) :
    commandResult .aton s = .error .badAddress :=
  (raiseIf_of_passes (srcInRange_passes.2 hr)).trans (atonText_eq_badAddress h)

/-- Settles O34: the checks split at PRAM_SIZE and at R102's grammar with components up to 255. -/
theorem Address.atonResult : Obligations.AtonResult := by
  unfold Obligations.AtonResult
  refine ⟨rfl, fun _ _ _ _ _ => isQuad_length, ?_⟩
  rintro s _ rfl
  refine ⟨fun hr => ?_, fun hr => ⟨fun c0 c1 c2 c3 hq h0 h1 h2 h3 => ?_, fun hq => ?_⟩⟩
  · exact exec_of_error (commandResult_of_srcOutOfRange rfl hr)
  · exact exec_aton_of_isQuad hr hq h0 h1 h2 h3
  · exact exec_of_error (commandResult_aton_of_badText hr hq)

/-! ### NTOA (R105) -/

theorem commandResult_ntoa_of_dstOutOfRange (h : s.cfg.pramSize < dstA s + (quadText s.addrVal).length) :
    commandResult .ntoa s = .error .range :=
  raiseIf_of_fails (by rw [inRange, decide_eq_false (Nat.not_le.2 h), Bool.not_false])

/-- Settles O35: the one check splits at PRAM_SIZE, by the length of the text of ADDR_VAL. -/
theorem Address.ntoaResult : Obligations.NtoaResult := by
  unfold Obligations.NtoaResult
  refine ⟨rfl, ?_⟩
  rintro s _ rfl
  refine ⟨fun hr => ?_, fun hr => ?_⟩
  · exact exec_of_ok (ntoaResult_ok.2 ⟨hr, rfl⟩)
  · exact exec_of_error (commandResult_ntoa_of_dstOutOfRange hr)

/-- A successful NTOA: the text of ADDR_VAL fits, RESULT_LEN is its length, and it stands in PRAM from DST_ADDR on. -/
theorem ntoa_success (h : exec .ntoa s = .next t) (h0 : t.errcode = 0) :
    dstA s + (quadText s.addrVal).length ≤ s.cfg.pramSize ∧ t.resultLen.toNat = (quadText s.addrVal).length ∧
      ∀ x, readByte t x = readByte (memWrite s (dstA s) (quadText s.addrVal)) x := by
  obtain ⟨_, hs, rfl⟩ := exec_success h h0
  obtain ⟨hdst, rfl⟩ := ntoaResult_ok.1 hs
  obtain ⟨-, hlen⟩ := quadText_length s.addrVal
  refine ⟨hdst, ?_, readByte_complete_ntoaWrites _ _ _⟩
  rw [complete_resultLen, ntoaWrites, BitVec.toNat_ofNat, Nat.mod_eq_of_lt (by omega)]

/-! ### ATON and NTOA undo each other (R106) -/

/-- A source region laid over the stored text holds it. -/
theorem srcBytes_eq_quadText (ha : srcA u = dstA s) (hn : srcN u = (quadText v).length)
    (hb : ∀ x, readByte u x = readByte (memWrite s (dstA s) (quadText v)) x) : srcBytes u = quadText v := by
  rw [srcBytes, ha, hn, memRead_stored hb le_rfl, List.take_length]

/-- ATON of a source region that holds the text of an address gives that address. -/
theorem exec_aton_of_quadText (hr : srcA s + srcN s ≤ s.cfg.pramSize) (hsrc : srcBytes s = quadText v) :
    exec .aton s = .next (completedWith 0x00 { s with addrVal := v }) := by
  obtain ⟨h0, h1, h2, h3, hv⟩ := word_components v
  rw [exec_aton_of_isQuad hr (hsrc ▸ isQuad_quadText h0 h1 h2 h3 hv) h0 h1 h2 h3, ← hv, BitVec.ofNat_toNat,
    BitVec.setWidth_eq]

/-- NTOA spells an address by a text of its four components exactly when that text has no leading zero. -/
theorem quadText_eq_iff (hp0 : IsComponent p0 c0) (hp1 : IsComponent p1 c1) (hp2 : IsComponent p2 c2)
    (hp3 : IsComponent p3 c3) (h0 : c0 ≤ 255) (h1 : c1 ≤ 255) (h2 : c2 ≤ 255) (h3 : c3 ≤ 255)
    (hv : v.toNat = c0 * 2 ^ 24 + c1 * 2 ^ 16 + c2 * 2 ^ 8 + c3) :
    quadText v = p0 ++ [dot] ++ p1 ++ [dot] ++ p2 ++ [dot] ++ p3 ↔
      ¬ LeadingZero p0 ∧ ¬ LeadingZero p1 ∧ ¬ LeadingZero p2 ∧ ¬ LeadingZero p3 := by
  rw [quadText_of_components h1 h2 h3 hv, ← decimal_eq_iff hp0 h0, ← decimal_eq_iff hp1 h1, ← decimal_eq_iff hp2 h2,
    ← decimal_eq_iff hp3 h3]
  constructor
  · intro h
    have hs := congrArg splitDots h
    rw [splitDots_components (isComponent_decimal h0) (isComponent_decimal h1) (isComponent_decimal h2)
      (isComponent_decimal h3), splitDots_components hp0 hp1 hp2 hp3] at hs
    simpa using hs
  · rintro ⟨rfl, rfl, rfl, rfl⟩
    rfl

/-- Settles O57: ATON reads the text NTOA stored, and the text of an accepted text's address has the same components. -/
theorem addressRoundTrip : Obligations.AddressRoundTrip := by
  unfold Obligations.AddressRoundTrip
  refine ⟨?_, fun p0 p1 p2 p3 c0 c1 c2 c3 v hp0 hp1 hp2 hp3 h0 h1 h2 h3 hv =>
    ⟨quadText_eq_iff hp0 hp1 hp2 hp3 h0 h1 h2 h3 hv, isQuad_quadText h0 h1 h2 h3 hv⟩⟩
  intro s t u _ h h0 hucfg hua hun hb
  obtain ⟨hdst, hlen, hmem⟩ := ntoa_success h h0
  have hA : srcA u = dstA s := hua
  have hN : srcN u = (quadText s.addrVal).length := (congrArg BitVec.toNat hun).trans hlen
  have hsrc := srcBytes_eq_quadText hA hN fun x => (hb x).trans (hmem x)
  have hr : srcA u + srcN u ≤ u.cfg.pramSize := by rw [hucfg, hA, hN]; exact hdst
  exact ⟨_, exec_aton_of_quadText hr hsrc, rfl, rfl⟩

end Sys2Proof.Machine
end

section
/-! Completion and errors (60_exceptions.md R107–R110): the state a completion leaves, and the codes each command raises. -/

namespace Sys2Proof.Machine

variable {s t : State} {i : Instr}

/-! ### The completion state (R110) -/

/-- `t` has R110's completion state, and is `s` with nothing else written when its code is not 0. -/
def EndsCompleted (s t : State) : Prop :=
  t.status.busy = false ∧ t.status.done = true ∧ t.status.err = decide (t.errcode ≠ 0) ∧
    (t.errcode ≠ 0 → t = completedWith t.errcode s)

theorem endsCompleted_success (s u : State) : EndsCompleted s (complete .ok u) :=
  ⟨rfl, rfl, rfl, fun h => absurd rfl h⟩

theorem endsCompleted_error (e : ErrCode) (s : State) : EndsCompleted s (complete e s) :=
  ⟨rfl, rfl, rfl, fun _ => complete_eq_completedWith e s⟩

theorem exec_endsCompleted (h : exec i s = .next t) : EndsCompleted s t := by
  rcases exec_cases h with ⟨u, -, rfl⟩ | ⟨e, -, -, rfl⟩
  · exact endsCompleted_success s u
  · exact endsCompleted_error e s

theorem exists_exec_endsCompleted (i : Instr) (s : State) : ∃ t, exec i s = .next t ∧ EndsCompleted s t :=
  (exec_next i s).imp fun _ h => ⟨h, exec_endsCompleted h⟩

/-- The engine's turn is a command's completion, or the error completion of an illegal word (R23, R71). -/
theorem exists_engineTurn_endsCompleted (s : State) : ∃ t, engineTurn s = .next t ∧ EndsCompleted s t := by
  unfold engineTurn
  cases decode s.cmd with
  | ok i => exact exists_exec_endsCompleted i s
  | error _ => exact ⟨_, rfl, endsCompleted_error .illegalCmd s⟩

/-- Settles O24: a success has code 0, and an error completes the state it found. -/
theorem completionState : Obligations.CompletionState := by
  unfold Obligations.CompletionState
  exact fun s => ⟨fun i => exists_exec_endsCompleted i s, exists_engineTurn_endsCompleted s⟩

/-! ### The codes of each command (R108) -/

/-- The errors R108 lists a command under. -/
def commandErrors : Instr → List ErrCode
  | .cksum | .ntoa => [.range]
  | .pcksum => [.range, .segTooLong]
  | .ipdec => [.range, .malformedHeader]
  | .ipenc => [.range, .overlap, .badHdrLen, .optShort, .totlenMismatch]
  | .tcpdec => [.range, .malformedHeader, .segTooLong]
  | .tcpenc => [.range, .overlap, .badHdrLen, .optShort, .segTooLong]
  | .fset _ | .fclr _ | .ftest _ => [.badFlagIndex]
  | .aton => [.range, .badAddress]

/-- If the result is an error, it is one of `codes`. -/
def RaisesOnly (codes : List ErrCode) (r : Except ErrCode State) : Prop := ∀ e, r = .error e → e ∈ codes

theorem RaisesOnly.ok {codes : List ErrCode} : RaisesOnly codes (.ok t) := nofun

theorem RaisesOnly.raiseIf {codes : List ErrCode} {bad : Bool} {e : ErrCode} {r : Except ErrCode State}
    (he : e ∈ codes) (hr : RaisesOnly codes r) : RaisesOnly codes (raiseIf bad e r) := by
  intro e' h
  rcases raiseIf_eq_error.1 h with ⟨-, rfl⟩ | ⟨-, h⟩
  · exact he
  · exact hr e' h

theorem withFlagIndex_raisesOnly (k : Nat) : RaisesOnly [.badFlagIndex] (withFlagIndex k t) :=
  .raiseIf List.mem_cons_self .ok

theorem atonText_raisesOnly (text : List Byte) : RaisesOnly [.range, .badAddress] (atonText s text) := by
  unfold atonText
  cases quadValues text with
  | none =>
    rintro _ ⟨⟩
    decide
  | some q => exact .raiseIf (by decide) .ok

/-- Every check of a command raises a code R108 lists for it. -/
theorem commandResult_raisesOnly (i : Instr) (s : State) : RaisesOnly (commandErrors i) (commandResult i s) := by
  cases i
  case cksum | ntoa => exact .raiseIf (by decide) .ok
  case pcksum | ipdec => exact .raiseIf (by decide) (.raiseIf (by decide) .ok)
  case tcpdec => exact .raiseIf (by decide) (.raiseIf (by decide) (.raiseIf (by decide) .ok))
  case ipenc | tcpenc =>
    exact .raiseIf (by decide) (.raiseIf (by decide) (.raiseIf (by decide) (.raiseIf (by decide)
      (.raiseIf (by decide) (.raiseIf (by decide) .ok)))))
  case fset k | fclr k | ftest k => exact withFlagIndex_raisesOnly k
  case aton => exact .raiseIf (by decide) (atonText_raisesOnly _)

theorem exec_errcode_mem (h : exec i s = .next t) : t.errcode ∈ 0x00 :: (commandErrors i).map errorNumber := by
  rcases exec_cases h with ⟨u, -, rfl⟩ | ⟨e, -, he, rfl⟩
  · exact List.mem_cons_self
  · exact List.mem_cons_of_mem _ (List.mem_map_of_mem (commandResult_raisesOnly i s e he))

/-- Settles O25: each list is 0x00 and the numbers of the command's errors. -/
theorem codesEachCommandRaises : Obligations.CodesEachCommandRaises := by
  unfold Obligations.CodesEachCommandRaises
  refine fun s t idx => ⟨exec_errcode_mem, exec_errcode_mem, exec_errcode_mem, exec_errcode_mem, exec_errcode_mem,
    exec_errcode_mem, ?_, exec_errcode_mem, exec_errcode_mem⟩
  rintro (h | h | h) <;> exact exec_errcode_mem h

end Sys2Proof.Machine
end

section
/-! Resets and hazards (70_reset_and_hazards.md R121–R130): power-on, soft reset, the busy lockout, and the end of every
run. -/

namespace Sys2Proof.Machine

variable {s t : State} {v : Word} {r : Reg}

/-! ### Power-on (R121) -/

theorem readReg_powerOn (c : Config) (hid : r ≠ .id) (hversion : r ≠ .version) : readReg (State.powerOn c) r = 0 := by
  cases r
  case id => exact absurd rfl hid
  case version => exact absurd rfl hversion
  case status => exact (by decide : statusWord Status.zero = 0)
  all_goals rfl

/-- No byte is listed at power-on, so each is its draw (R67). -/
theorem readByte_powerOn (c : Config) (a : Nat) : readByte (State.powerOn c) a = Config.pramDraw a := rfl

/-- Settles O19: every register but the two constants holds 0, and PRAM lists no byte. -/
theorem powerOnReset : Obligations.PowerOnReset := by
  unfold Obligations.PowerOnReset
  exact fun c => ⟨rfl, rfl, fun _ => readReg_powerOn c, rfl, rfl, readByte_powerOn c⟩

/-! ### The busy lockout (R125) -/

/-- Every multiple of 4 up to 0x064 is the offset of a register (R17). -/
theorem exists_eq_regOffset {off : Nat} (h : off ≤ 0x064) (h4 : off % 4 = 0) : ∃ r, off = regOffset r :=
  (regAt_isSome h h4).imp fun _ hr => (regOffset_of_regAt hr).symm

/-- CMD and the operand registers, by their offsets, are locked out. -/
theorem writeReg_lockedOut (hb : s.status.busy = true)
    (hr : regOffset r = 0x00C ∨ (0x018 ≤ regOffset r ∧ regOffset r ≤ 0x020) ∨
      (0x02C ≤ regOffset r ∧ regOffset r ≤ 0x054)) : writeReg v s r = setAccBusy s := by
  cases r
  case id | version | ctrl | status | errcode | resultLen | cksum | optOff | optLen | pldOff | pldLen =>
    exact absurd hr (by decide)
  all_goals exact lockout_busy hb

/-- The RO registers, by their offsets, ignore a write, in flight or not (R16). -/
theorem writeReg_readOnly
    (hr : regOffset r = 0x000 ∨ regOffset r = 0x004 ∨ regOffset r = 0x014 ∨ regOffset r = 0x024 ∨ regOffset r = 0x028
      ∨ (0x058 ≤ regOffset r ∧ regOffset r ≤ 0x064)) : writeReg v s r = s := by
  cases r
  case id | version | errcode | resultLen | cksum | optOff | optLen | pldOff | pldLen => rfl
  all_goals exact absurd hr (by decide)

theorem writeReg_ctrl_of_srst (hv : v.getLsbD 1 = true) : writeReg v s .ctrl = softReset s := writeCtrl_of_srst hv

/-- Settles O11: an access below the window reaches the register at its offset, which is locked out, read-only, STATUS or
CTRL; an access of the window is dropped. -/
theorem busyLockout : Obligations.BusyLockout := by
  unfold Obligations.BusyLockout
  intro s off v hb h4
  refine ⟨fun hoff => ?_, fun hlo hhi => apertureAccess_readWindow_busy (target_window h4 hlo hhi) hb,
    fun r hr => apertureAccess_readReg s hr.symm, fun hoff => ?_, apertureAccess_writeReg s (r := .status) v,
    fun hoff hv => ?_, fun hoff hv => ?_⟩
  · by_cases hwin : 0x20000 ≤ off.toNat
    · exact apertureAccess_writeWindow_busy (target_window h4 hwin (by omega)) hb
    · obtain ⟨r, hr⟩ := exists_eq_regOffset (by omega) h4
      rw [apertureAccess_writeReg s v hr, writeReg_lockedOut hb (by omega)]
      rfl
  · obtain ⟨r, hr⟩ := exists_eq_regOffset (by omega) h4
    rw [apertureAccess_writeReg s v hr, writeReg_readOnly (by omega)]
  · rw [apertureAccess_writeReg s (r := .ctrl) v hoff, writeReg, writeCtrl_of_not_srst hv]
  · rw [apertureAccess_writeReg s (r := .ctrl) v hoff, writeReg_ctrl_of_srst hv]

/-! ### Soft reset (R122) -/

/-- The region a soft reset leaves undetermined is R72's column "writes PRAM" of the command in flight. -/
theorem destinationOf_eq_storedLen {i : Instr} (h : decode s.cmd = .ok i) : destinationOf s = storedLen i s := by
  rw [destinationOf, h]
  cases i <;> rfl

theorem abandonedLen_idle (h : s.status.busy = false) : abandonedLen s = 0 := by
  rw [abandonedLen, h, if_neg Bool.false_ne_true]

theorem abandonedLen_command {i : Instr} (hb : s.status.busy = true) (h : decode s.cmd = .ok i) :
    abandonedLen s = min (storedLen i s) (s.cfg.pramSize - dstA s) := by
  rw [abandonedLen, if_pos hb, destinationOf_eq_storedLen h]

theorem abandonedLen_illegalWord {e : DecodeError} (h : decode s.cmd = .error e) : abandonedLen s = 0 := by
  rw [abandonedLen, destinationOf, h, Nat.zero_min, ite_self]

/-- A state is idle, has a command in flight, or has an illegal word in flight; each case says how many bytes are
abandoned. -/
theorem eq_abandonedLen {n : Nat} (hidle : s.status.busy = false → n = 0)
    (hcmd : s.status.busy = true → ∀ i, decode s.cmd = .ok i → n = min (storedLen i s) (s.cfg.pramSize - dstA s))
    (hillegal : s.status.busy = true → (∃ e, decode s.cmd = .error e) → n = 0) : n = abandonedLen s := by
  cases hb : s.status.busy with
  | false => rw [hidle hb, abandonedLen_idle hb]
  | true =>
    cases hd : decode s.cmd with
    | ok i => rw [hcmd hb i hd, abandonedLen_command hb hd]
    | error e => rw [hillegal hb ⟨e, hd⟩, abandonedLen_illegalWord hd]

theorem readReg_softReset (s : State) (r : Reg) : readReg (softReset s) r = readReg (State.powerOn s.cfg) r := by
  cases r <;> rfl

/-- PRAM after a soft reset is PRAM with the fresh draws stored in the abandoned region. -/
theorem readByte_softReset (s : State) (a : Nat) : readByte (softReset s) a =
    readByte (memWrite s (dstA s) (freshBytes s.drawCount (abandonedLen s))) a :=
  readByte_congr rfl a

theorem readByte_softReset_outside {a : Nat} (h : a < dstA s ∨ dstA s + abandonedLen s ≤ a) :
    readByte (softReset s) a = readByte s a := by
  rw [readByte_softReset, readByte_memWrite_outside _ _ _ _ (by rwa [freshBytes_length])]

theorem readByte_softReset_inside {k : Nat} (h : k < abandonedLen s) :
    readByte (softReset s) (dstA s + k) = Config.freshDraw (s.drawCount + k) := by
  rw [readByte_softReset, readByte_memWrite_inside _ _ _ _ (by rwa [freshBytes_length]), byteAt_freshBytes h]

/-- Settles O18: the write is the soft reset, and `n` is the length of the region it abandons. -/
theorem Reset.softReset : Obligations.SoftReset := by
  unfold Obligations.SoftReset
  intro s v n hv hidle hcmd hillegal
  obtain rfl := eq_abandonedLen hidle hcmd hillegal
  refine ⟨apertureAccess_writeReg s v rfl, ?_⟩
  rw [writeReg_ctrl_of_srst hv]
  exact ⟨readReg_softReset s, rfl, rfl, fun _ => readByte_softReset_outside, fun _ => readByte_softReset_inside, rfl⟩

/-! ### The end of every run (R129, R130) -/

/-- What is left of a run: the host's lines, and then the latency of the command in flight and its completion. A `wait`
keeps its line only while it spends latency, and an access that starts a new command spends a line. -/
def remaining (s : State) : Nat ×ₗ Nat :=
  toLex (s.host.length, if s.status.busy then s.engineWait + 1 else 0)

theorem remaining_lt_of_line (h : t.host.length < s.host.length) : remaining t < remaining s :=
  Prod.Lex.toLex_lt_toLex.2 (.inl h)

theorem remaining_lt_of_completion (hh : t.host = s.host) (hs : s.status.busy = true) (ht : t.status.busy = false) :
    remaining t < remaining s :=
  Prod.Lex.toLex_lt_toLex.2 (.inr ⟨by rw [hh], by simp [hs, ht]⟩)

theorem remaining_lt_of_latency (hh : t.host = s.host) (hb : t.status.busy = true) (hs : s.status.busy = true)
    (hw : t.engineWait < s.engineWait) : remaining t < remaining s :=
  Prod.Lex.toLex_lt_toLex.2 (.inr ⟨by rw [hh], by simp [hs, hb, hw]⟩)

/-- The engine's turn ends the command in flight and takes no line of the host's program. -/
theorem engineTurn_host_busy (h : engineTurn s = .next t) : t.host = s.host ∧ t.status.busy = false := by
  obtain ⟨e, u, rfl, rfl | ⟨i, -, hu⟩⟩ := engineTurn_cases h
  · exact ⟨rfl, rfl⟩
  · exact ⟨(commandResult_keeps hu).1, rfl⟩

/-- The host's turn takes a line, or it is a `wait` that stays and spends one access of latency. -/
theorem hostTurn_remaining_lt (hh : s.host ≠ []) (hm : s.status.busy = false ∨ s.engineWait ≠ 0) :
    remaining (hostTurn s) < remaining s := by
  rcases hostTurn_cases s with ⟨hnil, -⟩ | ⟨a, rest, hcons, ht⟩ | ⟨rest, hcons, ht⟩
  · exact absurd hnil hh
  · rw [ht]
    exact remaining_lt_of_line (by simp [hcons, takeLine])
  · rw [ht]
    cases hb : s.status.busy with
    | false => exact remaining_lt_of_line (by simp [hcons])
    | true =>
      have hw : s.engineWait ≠ 0 := hm.resolve_left (by simp [hb])
      exact remaining_lt_of_latency rfl hb hb (Nat.sub_one_lt hw)

theorem step_remaining_lt (hf : ¬ Final s) (h : step s = .next t) : remaining t < remaining s := by
  rcases step_cases h with ⟨hb, -, ht⟩ | ⟨hm, rfl⟩
  · obtain ⟨hhost, hdone⟩ := engineTurn_host_busy ht
    exact remaining_lt_of_completion hhost hb hdone
  · rcases hm with hb | ⟨hw, hh⟩
    · exact hostTurn_remaining_lt (fun hh => hf ⟨hh, hb⟩) (.inl hb)
    · exact hostTurn_remaining_lt hh (.inr hw)

/-- Settles O9, by induction on what is left of the run: each step before the end lowers it. -/
theorem everyRunEnds : Obligations.EveryRunEnds := by
  unfold Obligations.EveryRunEnds
  intro s
  induction hr : remaining s using WellFoundedLT.induction generalizing s with
  | ind x ih =>
    by_cases hf : Final s
    · exact ⟨0, s, rfl, hf⟩
    · obtain ⟨t, ht⟩ := step_next s
      obtain ⟨n, u, hrun, hu⟩ := ih (remaining t) (hr ▸ step_remaining_lt hf ht) t rfl
      exact ⟨n + 1, u, (core_run_succ ht n).trans hrun, hu⟩

end Sys2Proof.Machine
end

section
/-! The interleavings of engine and host (20_memory.md R61; 30_encoding.md R80): the turns of `wait`, and the latency left,
which decides whose turn it is and changes nothing else of what the turn does. -/

namespace Sys2Proof.Machine

variable {s t t' : State}

/-! ### The host's turn on its first line, and the turns of `wait` (R80) -/

theorem hostTurn_nil (hh : s.host = []) : hostTurn s = s := by rw [hostTurn, hh]

theorem hostTurn_access {a : HostAccess} {rest : List HostOp} (hh : s.host = .access a :: rest) :
    hostTurn s = busAccess a (takeLine rest s) := by rw [hostTurn, hh]

/-- A turn of `wait` reads STATUS, and keeps its line while a command is in flight. -/
theorem hostTurn_wait {rest : List HostOp} (hh : s.host = .wait :: rest) :
    hostTurn s =
      { s with
        host := if s.status.busy then s.host else rest
        engineWait := s.engineWait - 1
        response := some (readReg s .status) } := by
  rcases hostTurn_cases s with ⟨hnil, -⟩ | ⟨a, rest', hacc, -⟩ | ⟨rest', hwait, ht⟩
  · simp [hnil] at hh
  · simp [hacc] at hh
  · obtain rfl : rest' = rest := by simpa [hwait] using hh
    exact ht

/-- Settles O7: in both clauses the engine does not move, and the host's turn is a turn of `wait`. -/
theorem waitRepeatsStatusReads : Obligations.WaitRepeatsStatusReads := by
  unfold Obligations.WaitRepeatsStatusReads
  refine fun s rest hh => ⟨fun hb hw => ?_, fun hb => ?_⟩
  · rw [step_eq_hostTurn (.inr ⟨hw, by simp [hh]⟩), hostTurn_wait hh, if_pos hb]
  · rw [step_eq_hostTurn (.inl hb), hostTurn_wait hh, if_neg (by simp [hb])]

/-! ### The engine's turn and the latency left -/

/-- A step is the engine's turn when a command is in flight and no latency is left. -/
theorem step_eq_engineTurn (hb : s.status.busy = true) (hw : s.engineWait = 0) : step s = engineTurn s := by
  rw [step, if_pos ((engineMoves_iff s).2 ⟨hb, .inl hw⟩)]

theorem engineTurn_withWait (s : State) (k : Nat) : engineTurn { s with engineWait := k } = engineTurn s := by
  unfold engineTurn
  cases decode s.cmd with
  | ok i => exact exec_withWait i s k
  | error e => rfl

/-! ### The host's turn and the latency left -/

theorem sameButLatency_lockout (s : State) (k : Nat) (h : SameButLatency t' t) :
    SameButLatency (lockout { s with engineWait := k } t') (lockout s t) := by
  cases hb : s.status.busy with
  | false => rwa [lockout_idle (s := { s with engineWait := k }) hb, lockout_idle hb]
  | true => rw [lockout_busy (s := { s with engineWait := k }) hb, lockout_busy hb]; rfl

/-- A soft reset spends the latency, and its fresh bytes do not depend on it. -/
theorem softReset_withWait (s : State) (k : Nat) : softReset { s with engineWait := k } = softReset s := by
  have hlen : abandonedLen { s with engineWait := k } = abandonedLen s := rfl
  simp only [softReset, hlen, memWrite_withWait]
  rfl

theorem sameButLatency_writeCtrl (v : Word) (s : State) (k : Nat) :
    SameButLatency (writeCtrl v { s with engineWait := k }) (writeCtrl v s) := by
  unfold writeCtrl
  split_ifs
  · rw [softReset_withWait]; rfl
  · rfl

theorem sameButLatency_writeReg (v : Word) (s : State) (k : Nat) (r : Reg) :
    SameButLatency (writeReg v { s with engineWait := k } r) (writeReg v s r) := by
  cases r with
  | ctrl => exact sameButLatency_writeCtrl v s k
  | id | version | status | errcode | resultLen | cksum | optOff | optLen | pldOff | pldLen => rfl
  | _ => exact sameButLatency_lockout s k rfl

theorem sameButLatency_hostWrite (g : Target) (v : Word) (s : State) (k : Nat) :
    SameButLatency (hostWrite g v { s with engineWait := k }) (hostWrite g v s) := by
  cases g with
  | malformed => rfl
  | register r => exact sameButLatency_writeReg v s k r
  | window a => exact sameButLatency_lockout s k (by rw [memWrite_withWait]; rfl)

/-- A read returns the same data whatever latency is left, and keeps that latency. -/
theorem hostRead_withWait (g : Target) (s : State) (k : Nat) :
    hostRead g { s with engineWait := k } = ({ (hostRead g s).1 with engineWait := k }, (hostRead g s).2) := by
  cases g with
  | malformed | register => rfl
  | window a =>
    have hmem : memRead { s with engineWait := k } a 4 = memRead s a 4 := memRead_congr fun _ _ => rfl
    simp only [hostRead, hmem]
    split_ifs <;> rfl

theorem SameButLatency.with_response (h : SameButLatency t' t) (r : Option Word) :
    SameButLatency { t' with response := r } { t with response := r } :=
  congrArg (fun u : State => ({ u with response := r } : State)) h

theorem sameButLatency_apertureAccess (off : Addr) (bits : Nat) (op : BusOp) (s : State) (k : Nat) :
    SameButLatency (apertureAccess off bits op { s with engineWait := k }) (apertureAccess off bits op s) := by
  have htarget : target { s with engineWait := k } off bits = target s off bits := rfl
  cases op with
  | read => simp only [apertureAccess, htarget, hostRead_withWait]; rfl
  | write v =>
    rw [apertureAccess, htarget]
    exact (sameButLatency_hostWrite _ v s k).with_response none

theorem sameButLatency_busAccess (a : HostAccess) (s : State) (k : Nat) :
    SameButLatency (busAccess a { s with engineWait := k }) (busAccess a s) := by
  unfold busAccess
  cases apertureOffset s.cfg a.addr with
  | none => rfl
  | some off => exact sameButLatency_apertureAccess off a.bits a.op s k

/-- The host's turn does the same whatever latency is left, but for that latency. -/
theorem sameButLatency_hostTurn (s : State) (k : Nat) :
    SameButLatency (hostTurn { s with engineWait := k }) (hostTurn s) := by
  rcases hostTurn_cases s with ⟨hh, ht⟩ | ⟨a, rest, hh, ht⟩ | ⟨rest, hh, ht⟩ <;> rw [ht]
  · rw [hostTurn_nil (s := { s with engineWait := k }) hh]
    rfl
  · rw [hostTurn_access (s := { s with engineWait := k }) hh]
    exact sameButLatency_busAccess a (takeLine rest s) (k - 1)
  · rw [hostTurn_wait (s := { s with engineWait := k }) hh]
    rfl

/-! ### Every step is allowed, and every allowed step is one (R61, R129) -/

theorem mayStep_or_final_of_step (h : step s = .next t) : MayStep s t ∨ (Final s ∧ t = s) := by
  rcases step_cases h with ⟨hb, -, ht⟩ | ⟨hm, rfl⟩
  · exact .inl (.inl ⟨hb, ht⟩)
  · by_cases hh : s.host = []
    · have hb : s.status.busy = false := hm.resolve_right fun hw => hw.2 hh
      exact .inr ⟨⟨hh, hb⟩, hostTurn_nil hh⟩
    · exact .inl (.inr ⟨hh, rfl⟩)

/-- A completion is the step with no latency left, and the host's next line is the step with some left. -/
theorem exists_step_of_mayStep (h : MayStep s t) :
    ∃ k t', step { s with engineWait := k } = .next t' ∧ SameButLatency t' t := by
  rcases h with ⟨hb, ht⟩ | ⟨hh, rfl⟩
  · refine ⟨0, t, ?_, rfl⟩
    rw [step_eq_engineTurn (s := { s with engineWait := 0 }) hb rfl, engineTurn_withWait, ht]
  · exact ⟨1, _, step_eq_hostTurn (.inr ⟨Nat.one_ne_zero, hh⟩), sameButLatency_hostTurn s 1⟩

/-- Settles O8: the latency left decides whose turn it is, and changes nothing else of what the turn does. -/
theorem stepsAreTheAllowedInterleavings : Obligations.StepsAreTheAllowedInterleavings := by
  unfold Obligations.StepsAreTheAllowedInterleavings
  exact fun _ _ => ⟨mayStep_or_final_of_step, exists_step_of_mayStep⟩

end Sys2Proof.Machine
end
